-- ==== Sys2Proof/Config.lean ====
section
/-! DEFINITION. The constants and the open parameters of the unit (00_scope.md R1 to R3). -/

namespace Sys2Proof

/-- The field modulus `p = 2^64 − 2^32 + 1` (R1). -/
abbrev modulus : Nat := 18446744069414584321

/-- The multiplicative generator `g = 7` of the full group (R2). -/
abbrev generator : Nat := 7

namespace Config

/-- Which legal capacity the implementation has: a constant with no body, so that a claim holds for
every one (R3, D3; log 5). -/
opaque lmaxChoice : Fin 29

/-- Which legal byte capacity the implementation has: a constant with no body (R3, D4; log 6). -/
opaque bmaxChoice : Fin 4294967288

end Config

/-- `LMAX`, the greatest number of slots of a polynomial register: a power of two with
`16 ≤ LMAX ≤ 2^32` (R3). The value is `2^(4 + lmaxChoice)`; it is written as an excess over 16 so
that the kernel can compare it with a length of at most 16 (`LMAX_eq_pow` in Laws). -/
def LMAX : Nat := (2 ^ (4 + Config.lmaxChoice.val) - 16) + 16

/-- `BMAX`, the greatest number of bytes of the byte buffer: `8 ≤ BMAX < 2^32` (R3). -/
def BMAX : Nat := Config.bmaxChoice.val + 8

end Sys2Proof
end

