-- ==== Sys2Proof/Word.lean ====
section
/-! DEFINITION. The word types of the unit and its field values (00_scope.md R4, R5; 20_memory.md R35). -/

namespace Sys2Proof

/-- A 64-bit word: an integer register, DIN, DOUT, a word of the host window (R11, R30). -/
abbrev Word := BitVec 64

/-- A byte of the byte buffer (R15). -/
abbrev Byte := BitVec 8

/-- A 32-bit command word (R40). -/
abbrev CmdWord := BitVec 32

/-- A field value: an integer in `[0, p)` (R5). The type carries the canonical-value invariant, as
R26 allows (log 14). -/
abbrev Fp := Fin modulus

end Sys2Proof
end

