-- ==== Sys2Proof/Syntax.lean ====
section
/-! DEFINITION. The 62 commands (30_encoding.md R40), one constructor per row of the opcode table. -/

namespace Sys2Proof

/-- A register number `0 … 15` of the integer file: all sixteen values are legal (R41). -/
abbrev XReg := Fin 16

/-- A register number of the field file (R41). -/
abbrev FReg := Fin 16

/-- A register number of the polynomial file (R41). -/
abbrev VReg := Fin 16

/-- A command. The operands stand in assembler order, which is the order of the fields
D, A, B, C, E (R40, R41); a name's first letter is the register file, its second the field. -/
inductive Instr where
  -- data movement and byte buffer (40_host_data.md)
  | nop
  | xli (xd : XReg) (imm16 : BitVec 16)
  | xld (xd : XReg)
  | xout (xa : XReg)
  | fld (fd : FReg)
  | fout (fa : FReg)
  | bclr
  | bpushi (imm8 : BitVec 8)
  | bpush (xa : XReg)
  | bget (xd : XReg) (xa : XReg)
  | blen (xd : XReg)
  -- field (41_field.md)
  | fsetu (fd : FReg) (xa : XReg)
  | fsets (fd : FReg) (xa : XReg)
  | fbig (fd : FReg)
  | fbign (fd : FReg)
  | fbytes (fd : FReg)
  | fsample (fd : FReg)
  | fser (fa : FReg)
  | ftox (xd : XReg) (fa : FReg)
  | fmov (fd : FReg) (fa : FReg)
  | fadd (fd : FReg) (fa : FReg) (fb : FReg)
  | fsub (fd : FReg) (fa : FReg) (fb : FReg)
  | fmul (fd : FReg) (fa : FReg) (fb : FReg)
  | fdiv (fd : FReg) (fa : FReg) (fb : FReg)
  | finv (fd : FReg) (fa : FReg)
  | fexp (fd : FReg) (fa : FReg)
  | fexpx (fd : FReg) (fa : FReg) (xb : XReg)
  | fcmp (fa : FReg) (fb : FReg)
  | frord (fd : FReg)
  | froot (fd : FReg) (xa : XReg)
  | vminv (vd : VReg) (va : VReg)
  -- polynomial structure (42_poly_struct.md)
  | vclr (vd : VReg)
  | vpush (vd : VReg) (fa : FReg)
  | vget (fd : FReg) (va : VReg) (xb : XReg)
  | vset (vd : VReg) (fa : FReg) (xb : XReg)
  | vabs (vd : VReg) (xb : XReg)
  | vpres (xd : XReg) (va : VReg) (xb : XReg)
  | vlen (xd : XReg) (va : VReg)
  | vpad (vd : VReg) (va : VReg) (xb : XReg)
  | vtrunc (vd : VReg) (va : VReg) (xb : XReg)
  | vtrim (vd : VReg) (va : VReg)
  | vmov (vd : VReg) (va : VReg)
  | vrev (vd : VReg) (va : VReg)
  | vsubsl (vd : VReg) (va : VReg) (xb : XReg) (xc : XReg)
  | vdeg (xd : XReg) (va : VReg)
  | visz (va : VReg)
  | veq (va : VReg) (vb : VReg)
  -- polynomial arithmetic (43_poly_arith.md)
  | vadd (vd : VReg) (va : VReg) (vb : VReg)
  | vsub (vd : VReg) (va : VReg) (vb : VReg)
  | vmul (vd : VReg) (va : VReg) (vb : VReg)
  | vdiv (vd : VReg) (va : VReg) (vb : VReg)
  | vmod (vd : VReg) (va : VReg) (vb : VReg)
  | vscale (vd : VReg) (va : VReg) (fb : FReg)
  | veval (fd : FReg) (va : VReg) (fb : FReg)
  | vevald (vd : VReg) (va : VReg) (vb : VReg)
  | vevalq (fd : FReg) (va : VReg) (fb : FReg)
  | vzero (vd : VReg) (va : VReg)
  | vinterp (vd : VReg) (va : VReg) (vb : VReg)
  | vpow (vd : VReg) (fa : FReg) (xb : XReg)
  -- transform (44_transform.md)
  | vntt (vd : VReg) (va : VReg) (fb : FReg)
  | vintt (vd : VReg) (va : VReg) (fb : FReg)
  | vfmul (vd : VReg) (va : VReg) (vb : VReg) (fc : FReg) (fe : FReg)
  deriving DecidableEq, Repr

end Sys2Proof
end

