-- ==== Sys2Proof/WellFormed.lean ====
section
/-! DEFINITION. When a command word is well formed (30_encoding.md R42, R45): the table of opcodes
and formats, and the legality test on a word. An `Instr` needs no test of its own: its operand types
admit exactly the values R41 and R44 call legal (log 16). The test stands on the table's masks, and
the decoder on the fields: that the two agree is a statement, not a definition. -/

namespace Sys2Proof

/-- The eleven formats of R42. -/
inductive Format where
  | z | d | a | da | ab | db | dab | dabc | dabce | i16 | i8
  deriving DecidableEq, Repr

/-- The mask of a format: the bits that must equal `opcode << 24` (R42). -/
def Format.mask : Format → CmdWord
  | .z => 0xFFFFFFFF
  | .d => 0xFF0FFFFF
  | .a => 0xFFF0FFFF
  | .da => 0xFF00FFFF
  | .ab => 0xFFF00FFF
  | .db => 0xFF0F0FFF
  | .dab => 0xFF000FFF
  | .dabc => 0xFF0000FF
  | .dabce => 0xFF00000F
  | .i16 => 0xFF0F0000
  | .i8 => 0xFFFFFF00

/-- A row of the opcode map (R40): an opcode and its format. -/
structure OpcodeRow where
  opcode : BitVec 8
  format : Format
  deriving DecidableEq, Repr

/-- The rows of 40_host_data.md in the opcode map of R40. -/
def hostDataRows : List OpcodeRow :=
  [ ⟨0x00, .z⟩, ⟨0x01, .i16⟩, ⟨0x02, .d⟩, ⟨0x03, .a⟩, ⟨0x04, .d⟩, ⟨0x05, .a⟩,
    ⟨0x10, .z⟩, ⟨0x11, .i8⟩, ⟨0x12, .a⟩, ⟨0x13, .da⟩, ⟨0x14, .d⟩ ]

/-- The rows of 41_field.md in the opcode map of R40. -/
def fieldRows : List OpcodeRow :=
  [ ⟨0x20, .da⟩, ⟨0x21, .da⟩, ⟨0x22, .d⟩, ⟨0x23, .d⟩, ⟨0x24, .d⟩, ⟨0x25, .d⟩,
    ⟨0x26, .a⟩, ⟨0x27, .da⟩, ⟨0x28, .da⟩, ⟨0x30, .dab⟩, ⟨0x31, .dab⟩, ⟨0x32, .dab⟩,
    ⟨0x33, .dab⟩, ⟨0x34, .da⟩, ⟨0x35, .da⟩, ⟨0x36, .dab⟩, ⟨0x37, .ab⟩, ⟨0x38, .d⟩,
    ⟨0x39, .da⟩, ⟨0x3A, .da⟩ ]

/-- The rows of 42_poly_struct.md in the opcode map of R40. -/
def polyStructRows : List OpcodeRow :=
  [ ⟨0x40, .d⟩, ⟨0x41, .da⟩, ⟨0x42, .dab⟩, ⟨0x43, .dab⟩, ⟨0x44, .db⟩, ⟨0x45, .dab⟩,
    ⟨0x46, .da⟩, ⟨0x47, .dab⟩, ⟨0x48, .dab⟩, ⟨0x49, .da⟩, ⟨0x4A, .da⟩, ⟨0x4B, .da⟩,
    ⟨0x4C, .dabc⟩, ⟨0x4D, .da⟩, ⟨0x4E, .a⟩, ⟨0x4F, .ab⟩ ]

/-- The rows of 43_poly_arith.md in the opcode map of R40. -/
def polyArithRows : List OpcodeRow :=
  [ ⟨0x50, .dab⟩, ⟨0x51, .dab⟩, ⟨0x52, .dab⟩, ⟨0x53, .dab⟩, ⟨0x54, .dab⟩, ⟨0x55, .dab⟩,
    ⟨0x56, .dab⟩, ⟨0x57, .dab⟩, ⟨0x58, .dab⟩, ⟨0x59, .da⟩, ⟨0x5A, .dab⟩, ⟨0x5B, .dab⟩ ]

/-- The rows of 44_transform.md in the opcode map of R40. -/
def transformRows : List OpcodeRow :=
  [ ⟨0x60, .dab⟩, ⟨0x61, .dab⟩, ⟨0x62, .dabce⟩ ]

/-- The complete opcode map (R40): 62 rows. -/
def opcodeMap : List OpcodeRow :=
  hostDataRows ++ fieldRows ++ polyStructRows ++ polyArithRows ++ transformRows

/-- `W` spells the command of row `r`: `(W AND mask) = match`, with `match = op << 24` (R42). -/
def OpcodeRow.spells (r : OpcodeRow) (w : CmdWord) : Bool :=
  w &&& r.format.mask == r.opcode ++ (0 : BitVec 24)

/-- `W` is a legal command (R45): its opcode is in the map and every bit the format does not use is 0. -/
def wordLegal (w : CmdWord) : Bool :=
  opcodeMap.any fun r => r.spells w

end Sys2Proof
end

