-- ==== Sys2Proof/Decode.lean ====
section
/-! DEFINITION. The decoder and the encoder of command words (30_encoding.md R40 to R45). -/

namespace Sys2Proof

/-- Bits 31:24, the opcode (R41). -/
def opField (w : CmdWord) : BitVec 8 := w.extractLsb' 24 8

/-- The 4-bit register field whose least significant bit is `lo` (R41). -/
def regField (w : CmdWord) (lo : Nat) : Fin 16 := (w.extractLsb' lo 4).toFin

/-- Field `rd`, bits 23:20 (R41). -/
def rdField (w : CmdWord) : Fin 16 := regField w 20

/-- Field `ra`, bits 19:16 (R41). -/
def raField (w : CmdWord) : Fin 16 := regField w 16

/-- Field `rb`, bits 15:12 (R41). -/
def rbField (w : CmdWord) : Fin 16 := regField w 12

/-- Field `rc`, bits 11:8 (R41). -/
def rcField (w : CmdWord) : Fin 16 := regField w 8

/-- Field `re`, bits 7:4 (R41). -/
def reField (w : CmdWord) : Fin 16 := regField w 4

/-- A format's answer: the command when the bits the format does not use are 0, else illegal (R42, R45). -/
def ifZero (unusedZero : Bool) (i : Instr) : Option Instr :=
  if unusedZero then some i else none

/-- The `n` bits of `w` from bit `lo` up are 0 (R42: a bit the format does not use). -/
def bitsZero (w : CmdWord) (lo n : Nat) : Bool := w.extractLsb' lo n == 0

/-- Format Z: no field (R42). -/
def decodeZ (w : CmdWord) (i : Instr) : Option Instr := ifZero (bitsZero w 0 24) i

/-- Format D: `rd` (R42). -/
def decodeD (w : CmdWord) (k : Fin 16 → Instr) : Option Instr :=
  ifZero (bitsZero w 0 20) (k (rdField w))

/-- Format A: `ra` (R42). -/
def decodeA (w : CmdWord) (k : Fin 16 → Instr) : Option Instr :=
  ifZero (bitsZero w 20 4 && bitsZero w 0 16) (k (raField w))

/-- Format DA: `rd`, `ra` (R42). -/
def decodeDA (w : CmdWord) (k : Fin 16 → Fin 16 → Instr) : Option Instr :=
  ifZero (bitsZero w 0 16) (k (rdField w) (raField w))

/-- Format AB: `ra`, `rb` (R42). -/
def decodeAB (w : CmdWord) (k : Fin 16 → Fin 16 → Instr) : Option Instr :=
  ifZero (bitsZero w 20 4 && bitsZero w 0 12) (k (raField w) (rbField w))

/-- Format DB: `rd`, `rb` (R42). -/
def decodeDB (w : CmdWord) (k : Fin 16 → Fin 16 → Instr) : Option Instr :=
  ifZero (bitsZero w 16 4 && bitsZero w 0 12) (k (rdField w) (rbField w))

/-- Format DAB: `rd`, `ra`, `rb` (R42). -/
def decodeDAB (w : CmdWord) (k : Fin 16 → Fin 16 → Fin 16 → Instr) : Option Instr :=
  ifZero (bitsZero w 0 12) (k (rdField w) (raField w) (rbField w))

/-- Format DABC: `rd`, `ra`, `rb`, `rc` (R42). -/
def decodeDABC (w : CmdWord) (k : Fin 16 → Fin 16 → Fin 16 → Fin 16 → Instr) : Option Instr :=
  ifZero (bitsZero w 0 8) (k (rdField w) (raField w) (rbField w) (rcField w))

/-- Format DABCE: all five register fields (R42). -/
def decodeDABCE (w : CmdWord) (k : Fin 16 → Fin 16 → Fin 16 → Fin 16 → Fin 16 → Instr) :
    Option Instr :=
  ifZero (bitsZero w 0 4) (k (rdField w) (raField w) (rbField w) (rcField w) (reField w))

/-- Format I16: `rd` and `imm16` in bits 15:0 (R42, R44). -/
def decodeI16 (w : CmdWord) (k : Fin 16 → BitVec 16 → Instr) : Option Instr :=
  ifZero (bitsZero w 16 4) (k (rdField w) (w.extractLsb' 0 16))

/-- Format I8: `imm8` in bits 7:0 (R42, R44). -/
def decodeI8 (w : CmdWord) (k : BitVec 8 → Instr) : Option Instr :=
  ifZero (bitsZero w 8 16) (k (w.extractLsb' 0 8))

/-- The command a word spells, or `none` when the word is illegal (R40, R45). The opcode alone selects
the command and its format. -/
def decode (w : CmdWord) : Option Instr :=
  match (opField w).toNat with
  | 0x00 => decodeZ w .nop
  | 0x01 => decodeI16 w .xli
  | 0x02 => decodeD w .xld
  | 0x03 => decodeA w .xout
  | 0x04 => decodeD w .fld
  | 0x05 => decodeA w .fout
  | 0x10 => decodeZ w .bclr
  | 0x11 => decodeI8 w .bpushi
  | 0x12 => decodeA w .bpush
  | 0x13 => decodeDA w .bget
  | 0x14 => decodeD w .blen
  | 0x20 => decodeDA w .fsetu
  | 0x21 => decodeDA w .fsets
  | 0x22 => decodeD w .fbig
  | 0x23 => decodeD w .fbign
  | 0x24 => decodeD w .fbytes
  | 0x25 => decodeD w .fsample
  | 0x26 => decodeA w .fser
  | 0x27 => decodeDA w .ftox
  | 0x28 => decodeDA w .fmov
  | 0x30 => decodeDAB w .fadd
  | 0x31 => decodeDAB w .fsub
  | 0x32 => decodeDAB w .fmul
  | 0x33 => decodeDAB w .fdiv
  | 0x34 => decodeDA w .finv
  | 0x35 => decodeDA w .fexp
  | 0x36 => decodeDAB w .fexpx
  | 0x37 => decodeAB w .fcmp
  | 0x38 => decodeD w .frord
  | 0x39 => decodeDA w .froot
  | 0x3A => decodeDA w .vminv
  | 0x40 => decodeD w .vclr
  | 0x41 => decodeDA w .vpush
  | 0x42 => decodeDAB w .vget
  | 0x43 => decodeDAB w .vset
  | 0x44 => decodeDB w .vabs
  | 0x45 => decodeDAB w .vpres
  | 0x46 => decodeDA w .vlen
  | 0x47 => decodeDAB w .vpad
  | 0x48 => decodeDAB w .vtrunc
  | 0x49 => decodeDA w .vtrim
  | 0x4A => decodeDA w .vmov
  | 0x4B => decodeDA w .vrev
  | 0x4C => decodeDABC w .vsubsl
  | 0x4D => decodeDA w .vdeg
  | 0x4E => decodeA w .visz
  | 0x4F => decodeAB w .veq
  | 0x50 => decodeDAB w .vadd
  | 0x51 => decodeDAB w .vsub
  | 0x52 => decodeDAB w .vmul
  | 0x53 => decodeDAB w .vdiv
  | 0x54 => decodeDAB w .vmod
  | 0x55 => decodeDAB w .vscale
  | 0x56 => decodeDAB w .veval
  | 0x57 => decodeDAB w .vevald
  | 0x58 => decodeDAB w .vevalq
  | 0x59 => decodeDA w .vzero
  | 0x5A => decodeDAB w .vinterp
  | 0x5B => decodeDAB w .vpow
  | 0x60 => decodeDAB w .vntt
  | 0x61 => decodeDAB w .vintt
  | 0x62 => decodeDABCE w .vfmul
  | _ => none

/-- The word with the given opcode and register fields, `re` above four zero bits (R41). -/
def packRegs (op : BitVec 8) (d a b c e : Fin 16) : CmdWord :=
  op ++ BitVec.ofFin (w := 4) d ++ BitVec.ofFin (w := 4) a ++ BitVec.ofFin (w := 4) b ++
    BitVec.ofFin (w := 4) c ++ BitVec.ofFin (w := 4) e ++ (0 : BitVec 4)

/-- Format I16 packed: opcode, `rd`, four zero bits, `imm16` (R42). -/
def packI16 (op : BitVec 8) (d : Fin 16) (imm : BitVec 16) : CmdWord :=
  op ++ BitVec.ofFin (w := 4) d ++ (0 : BitVec 4) ++ imm

/-- Format I8 packed: opcode, sixteen zero bits, `imm8` (R42). -/
def packI8 (op : BitVec 8) (imm : BitVec 8) : CmdWord :=
  op ++ (0 : BitVec 16) ++ imm

/-- The command word of an instruction (R40 to R42, R46). -/
def encode : Instr → CmdWord
  | .nop => packRegs 0x00 0 0 0 0 0
  | .xli d imm => packI16 0x01 d imm
  | .xld d => packRegs 0x02 d 0 0 0 0
  | .xout a => packRegs 0x03 0 a 0 0 0
  | .fld d => packRegs 0x04 d 0 0 0 0
  | .fout a => packRegs 0x05 0 a 0 0 0
  | .bclr => packRegs 0x10 0 0 0 0 0
  | .bpushi imm => packI8 0x11 imm
  | .bpush a => packRegs 0x12 0 a 0 0 0
  | .bget d a => packRegs 0x13 d a 0 0 0
  | .blen d => packRegs 0x14 d 0 0 0 0
  | .fsetu d a => packRegs 0x20 d a 0 0 0
  | .fsets d a => packRegs 0x21 d a 0 0 0
  | .fbig d => packRegs 0x22 d 0 0 0 0
  | .fbign d => packRegs 0x23 d 0 0 0 0
  | .fbytes d => packRegs 0x24 d 0 0 0 0
  | .fsample d => packRegs 0x25 d 0 0 0 0
  | .fser a => packRegs 0x26 0 a 0 0 0
  | .ftox d a => packRegs 0x27 d a 0 0 0
  | .fmov d a => packRegs 0x28 d a 0 0 0
  | .fadd d a b => packRegs 0x30 d a b 0 0
  | .fsub d a b => packRegs 0x31 d a b 0 0
  | .fmul d a b => packRegs 0x32 d a b 0 0
  | .fdiv d a b => packRegs 0x33 d a b 0 0
  | .finv d a => packRegs 0x34 d a 0 0 0
  | .fexp d a => packRegs 0x35 d a 0 0 0
  | .fexpx d a b => packRegs 0x36 d a b 0 0
  | .fcmp a b => packRegs 0x37 0 a b 0 0
  | .frord d => packRegs 0x38 d 0 0 0 0
  | .froot d a => packRegs 0x39 d a 0 0 0
  | .vminv d a => packRegs 0x3A d a 0 0 0
  | .vclr d => packRegs 0x40 d 0 0 0 0
  | .vpush d a => packRegs 0x41 d a 0 0 0
  | .vget d a b => packRegs 0x42 d a b 0 0
  | .vset d a b => packRegs 0x43 d a b 0 0
  | .vabs d b => packRegs 0x44 d 0 b 0 0
  | .vpres d a b => packRegs 0x45 d a b 0 0
  | .vlen d a => packRegs 0x46 d a 0 0 0
  | .vpad d a b => packRegs 0x47 d a b 0 0
  | .vtrunc d a b => packRegs 0x48 d a b 0 0
  | .vtrim d a => packRegs 0x49 d a 0 0 0
  | .vmov d a => packRegs 0x4A d a 0 0 0
  | .vrev d a => packRegs 0x4B d a 0 0 0
  | .vsubsl d a b c => packRegs 0x4C d a b c 0
  | .vdeg d a => packRegs 0x4D d a 0 0 0
  | .visz a => packRegs 0x4E 0 a 0 0 0
  | .veq a b => packRegs 0x4F 0 a b 0 0
  | .vadd d a b => packRegs 0x50 d a b 0 0
  | .vsub d a b => packRegs 0x51 d a b 0 0
  | .vmul d a b => packRegs 0x52 d a b 0 0
  | .vdiv d a b => packRegs 0x53 d a b 0 0
  | .vmod d a b => packRegs 0x54 d a b 0 0
  | .vscale d a b => packRegs 0x55 d a b 0 0
  | .veval d a b => packRegs 0x56 d a b 0 0
  | .vevald d a b => packRegs 0x57 d a b 0 0
  | .vevalq d a b => packRegs 0x58 d a b 0 0
  | .vzero d a => packRegs 0x59 d a 0 0 0
  | .vinterp d a b => packRegs 0x5A d a b 0 0
  | .vpow d a b => packRegs 0x5B d a b 0 0
  | .vntt d a b => packRegs 0x60 d a b 0 0
  | .vintt d a b => packRegs 0x61 d a b 0 0
  | .vfmul d a b c e => packRegs 0x62 d a b c e

/-- The instruction the decoder reads from the low `nbits` bits of `w`, every bit above them 0. A command
is one whole 32-bit word, never fetched from bytes (R34, R40), so there is nothing to lay out in memory. -/
def decodeTableWord (nbits w : Nat) : Option Instr :=
  decode (BitVec.ofNat 32 (w % 2 ^ nbits))

end Sys2Proof
end

