-- ==== Sys2Proof/Machine/State.lean ====
section
/-! DEFINITION. The state of the unit (10_state.md R10 to R28), the outcomes a step can have, and the
state after reset (R28, R170). The two last fields of `State` are the model's own: the accesses the
host is going to make and the words its reads have returned (70_reset_and_hazards.md R175; log 1, 3). -/

namespace Sys2Proof.Machine

/-- A slot of a polynomial register (R6): `absent`, or present with a field value. -/
inductive Slot where
  | absent
  | elem (a : Fp)
  deriving DecidableEq, Repr

/-- The value of a polynomial register (R13): `NONE`, the "designated no result value", or a sequence
of slots, slot `i` the coefficient of `x^i`. -/
inductive PolyVal where
  | none
  | seq (slots : List Slot)
  deriving DecidableEq, Repr

/-- A register file of sixteen registers (R11, R12, R13). -/
abbrev RegFile (α : Type) := Vector α 16

/-- The fatal causes of R161 (60_exceptions.md). -/
inductive Cause where
  /-- The command word is not a legal encoding (R45). -/
  | illegal
  /-- A command reads a polynomial register that holds `NONE` (R165). -/
  | useNone
  /-- A division by the additive identity (R78, R79, R88, R113, R114). -/
  | divZero
  /-- A transform length that is not a power of two, 0 included (R141, R142). -/
  | notPow2
  /-- A supplied root that fails its check (R141 to R143). -/
  | badRoot
  /-- A size that does not divide the order (R85, R143). -/
  | badSize
  /-- An index not below the length (R59, R92 to R95). -/
  | index
  /-- A result longer than LMAX, or a byte pushed on a full buffer (R57, R58, R106). -/
  | capacity
  /-- A length the command does not admit (R101, R102, R118). -/
  | length
  deriving DecidableEq, Repr

/-- The words of the host window (20_memory.md R31). -/
inductive WindowReg where
  | cmd | din | dout | status | cmdcnt | faultcmd | ctrl
  | modulus | generator | rootorder | lmaxr | bmaxr | reserved
  deriving DecidableEq, Repr

/-- What the outside world does to the unit: a host access to a word address of the window (R30), or
the platform's reset (R170). -/
inductive HostAccess where
  | read (addr : BitVec 4)
  | write (addr : BitVec 4) (w : Word)
  | platformReset
  deriving DecidableEq, Repr

/-- The state of the unit. -/
structure State where
  /-- Integer registers (R11). -/
  x : RegFile Word
  /-- Field registers (R12). -/
  f : RegFile Fp
  /-- Polynomial registers (R13). -/
  v : RegFile PolyVal
  /-- The byte buffer (R15). -/
  bb : List Byte
  /-- EQ, STATUS bit 0 (R18). -/
  eq : Bool
  /-- LT, STATUS bit 1 (R18). -/
  lt : Bool
  /-- NORES, STATUS bit 2 (R19). -/
  nores : Bool
  /-- FATAL, STATUS bit 3 (R20). -/
  fatal : Bool
  /-- CAUSE, STATUS bits 15:8 (R20). -/
  cause : BitVec 8
  /-- DIN (R21). -/
  din : Word
  /-- DOUT (R22). -/
  dout : Word
  /-- CMDCNT (R16). -/
  cmdcnt : Word
  /-- FAULTCMD (R23). -/
  faultcmd : Word
  /-- The model's own: the accesses still to be made, oldest first (R36, R175; log 1). -/
  host : List HostAccess
  /-- The model's own: the words the host's reads have returned, oldest first (R175; log 3). -/
  reads : List Word
  deriving DecidableEq, Repr

/-- Why a step would stop the machine. There is no such reason: a fatal error of the unit is a state it
enters (R163), not a stop of the model, and after 93_implementation_defined.md nothing is undefined.
The type is empty, so that no step can answer a fault (log 4). -/
inductive Fault where
  deriving DecidableEq, Repr

/-- Why an instruction would be refused. -/
inductive Refusal where
  /-- Raised only by a refused arm of `exec`, for a command without a meaning. No arm is refused.
  Safe: the model stops where the hardware goes on. -/
  | notModelled (mnemonic : String)
  deriving DecidableEq, Repr

/-- The outcome of a command or of a step. -/
abbrev Result := Host.Outcome State Fault Refusal

/-- The state after reset (R28, R170): every register 0, every polynomial register the empty sequence,
the byte buffer empty. Nothing is pending and nothing has been read (log 1, 3). -/
def State.reset : State where
  x := Vector.replicate 16 0
  f := Vector.replicate 16 0
  v := Vector.replicate 16 (.seq [])
  bb := []
  eq := false
  lt := false
  nores := false
  fatal := false
  cause := 0
  din := 0
  dout := 0
  cmdcnt := 0
  faultcmd := 0
  host := []
  reads := []

end Sys2Proof.Machine
end

