-- ==== Sys2Proof/Machine/Operands.lean ====
section
/-! DEFINITION. Reading operands and building values: the notation of 00_scope.md R4, R6 and R7, the
byte order of 20_memory.md R34, the immediates of 30_encoding.md R44. -/

namespace Sys2Proof.Machine

/-- `u(w)`, the unsigned value of a word (R4). -/
def uVal (w : Word) : Nat := w.toNat

/-- `s(w)`, the signed two's-complement value of a word (R4). -/
def sVal (w : Word) : Int := w.toInt

/-- `zext_64(n)` for `0 ≤ n < 2^64` (R4). -/
def zext (n : Nat) : Word := BitVec.ofNat 64 n

/-- `imm16` zero-extended to 64 bits (R44). -/
def zextImm16 (imm : BitVec 16) : Word := imm.setWidth 64

/-- A byte zero-extended to 64 bits (R59, R61). -/
def zextByte (b : Byte) : Word := b.setWidth 64

/-- The low byte of a word, `w[7:0]` (R58). -/
def lowByte (w : Word) : Byte := w.extractLsb' 0 8

/-- `int_be(s)`: the unsigned integer of a byte string, most significant byte first, by the
accumulation of R71 (R7, R34). -/
def intBe (s : List Byte) : Nat := s.foldl (fun acc b => acc * 256 + b.toNat) 0

/-- `be8(a)`: the eight bytes of `a`, most significant first (R7, R72). -/
def be8 (a : Nat) : List Byte :=
  (List.range 8).map fun k => BitVec.ofNat 8 (a / 256 ^ (7 - k))

/-- `val(slot)`: an absent slot reads as 0 (R6, R14). -/
def Slot.val : Slot → Fp
  | .absent => 0
  | .elem a => a

/-- Whether a slot is present; `elem(0)` is (R95). -/
def Slot.present : Slot → Bool
  | .absent => false
  | .elem _ => true

/-- `coef(s)`: the values of the slots (R6). -/
def coef (s : List Slot) : List Fp := s.map Slot.val

/-- `elems(c)`: the values as present slots (R6). -/
def elems (c : List Fp) : List Slot := c.map Slot.elem

/-- `C(s, i)` on a sequence of values: the value at `i`, 0 beyond the end (R6; `A(i)`, `B(i)` of
43_poly_arith.md). -/
def coeffAt (c : List Fp) (i : Nat) : Fp := c.getD i 0

/-- The strided extraction `s[start], s[start + step], …`, every index below the length (R100). -/
def strided {α : Type} (s : List α) (start step : Nat) : List α :=
  (List.range ((s.length - start + step - 1) / step)).filterMap fun k => s[start + k * step]?

end Sys2Proof.Machine
end

