-- ==== Sys2Proof/Machine/FieldArith.lean ====
section
/-! DEFINITION. The field operations of 00_scope.md R5 and 41_field.md R65, and the batch inversion of
R87 and R88. Sums, differences and products are computed on integers and then reduced. -/

namespace Sys2Proof.Machine

/-- The residue of a natural number modulo `p` (R4, R66). -/
def Fp.ofNat (n : Nat) : Fp := ⟨n % modulus, Nat.mod_lt n (by decide)⟩

/-- The mathematical residue of an integer of either sign modulo `p`, never negative (R4, R67). -/
def Fp.ofInt (z : Int) : Fp := Fp.ofNat (z % (modulus : Int)).toNat

/-- `a +p b` (R5). -/
def Fp.add (a b : Fp) : Fp := Fp.ofNat (a.val + b.val)

/-- `a −p b` (R5): `a − b`, plus `p` when that is negative (R65). -/
def Fp.sub (a b : Fp) : Fp := Fp.ofNat (a.val + (modulus - b.val))

/-- `a ·p b` (R5). -/
def Fp.mul (a b : Fp) : Fp := Fp.ofNat (a.val * b.val)

/-- Binary exponentiation (R80, R82): `fuel` bits of the exponent `e` from the least significant up. -/
def Fp.powLoop : Nat → Fp → Nat → Fp
  | 0, _, _ => 1
  | fuel + 1, a, e =>
    if e % 2 = 1 then Fp.mul a (Fp.powLoop fuel (Fp.mul a a) (e / 2))
    else Fp.powLoop fuel (Fp.mul a a) (e / 2)

/-- `a ^p e` for `e ≥ 0`, with `a ^p 0 = 1` for every `a` (R5); computed by binary exponentiation, the
result is `(a^e) mod p` (R82; `Fp.pow_val` in Laws). -/
def Fp.pow (a : Fp) (e : Nat) : Fp := Fp.powLoop (Nat.log2 e + 1) a e

/-- `inv(a)` for `a ≠ 0`, computed as `a ^p (p − 2)`, the source's second algorithm (R65, R82; log 9).
No command uses it at 0. -/
def Fp.inv (a : Fp) : Fp := Fp.pow a (modulus - 2)

/-- `a / b = a ·p inv(b)` for `b ≠ 0` (R65). -/
def Fp.div (a b : Fp) : Fp := Fp.mul a (Fp.inv b)

/-- The sum of a sequence of field values, in the field (R5). -/
def Fp.sum (l : List Fp) : Fp := l.foldr Fp.add 0

/-- What batch inversion makes of one slot that is not a present zero (R88): the inverse, and for a
skipped slot the additive identity, present. The one definition that holds the skip semantics
(93_implementation_defined.md U6; log 13). -/
def minvSlot : Slot → Slot
  | .absent => .elem 0
  | .elem c => .elem (Fp.inv c)

/-- What a slot contributes to the running product of R87: 1 for a skipped entry. -/
def minvFactor : Slot → Fp
  | .absent => 1
  | .elem c => c

/-- The backward pass of R87 over the entries `slots`, `pre` the partial product before them and
`inverse` the inverse of the total. The recursion reaches the last entry first, as R87's loop does; it
answers the outputs and the `I` it is left with, which is the inverse of `pre`. -/
def batchBackward (inverse : Fp) : Fp → List Slot → List Slot × Fp
  | _, [] => ([], inverse)
  | pre, s :: rest =>
    let (outs, i) := batchBackward inverse (Fp.mul pre (minvFactor s)) rest
    let out := match s with
      | .absent => Slot.elem 0
      | .elem _ => Slot.elem (Fp.mul pre i)
    (out :: outs, Fp.mul i (minvFactor s))

/-- The procedure R87 describes: forward pass of partial products, ONE inversion of the total, backward
pass. VMINV's result is fixed by R88 and does not run this; that the two agree is a statement. -/
def batchInverse (slots : List Slot) : List Slot :=
  let total := slots.foldl (fun acc s => Fp.mul acc (minvFactor s)) 1
  (batchBackward (Fp.inv total) 1 slots).1

end Sys2Proof.Machine
end

