-- ==== Sys2Proof/Machine/PolyArith.lean ====
section
/-! DEFINITION. The functions on sequences of field values the polynomial commands compute: degree and
zero test (00_scope.md R8), trimming (42_poly_struct.md R99), ring operations, long division, evaluation,
vanishing polynomial, interpolation (43_poly_arith.md R110 to R125), the transform (44_transform.md R140). The laws
R127 lists for them are theorems of Laws/PolyLaws.lean, named in the docstrings below. -/

namespace Sys2Proof.Machine

/-- `deg(c)`: the greatest index with a non-zero value, `none` for `NODEG` (R8). -/
def deg : List Fp → Option Nat
  | [] => none
  | a :: t =>
    match deg t with
    | some d => some (d + 1)
    | none => if a = 0 then none else some 0

/-- `iszero(c)`: `deg(c) = NODEG` (R8, R104). -/
def isZero (c : List Fp) : Bool := (deg c).isNone

/-- The slots below the least `n'` from which on every value is 0 (R99). -/
def trimSlots (s : List Slot) : List Slot :=
  (s.reverse.dropWhile fun c => c.val == 0).reverse

/-- The slot-wise sum over the zero-padded union of lengths (R110). It commutes and associates (R127, `polyAdd_comm`,
`polyAdd_assoc`). -/
def polyAdd (a b : List Fp) : List Fp :=
  (List.range (max a.length b.length)).map fun i => Fp.add (coeffAt a i) (coeffAt b i)

/-- The slot-wise difference over the zero-padded union of lengths (R111). -/
def polySub (a b : List Fp) : List Fp :=
  (List.range (max a.length b.length)).map fun i => Fp.sub (coeffAt a i) (coeffAt b i)

/-- The coefficient of `x^k` of the product: `Σ_{i+j=k} a[i] ·p b[j]`, the sum in the field; beyond the
ends the values are 0 (R112). -/
def convAt (a b : List Fp) (k : Nat) : Fp :=
  Fp.sum ((List.range (k + 1)).map fun i => Fp.mul (coeffAt a i) (coeffAt b (k - i)))

/-- The first `n` coefficients of the schoolbook product (R112). -/
def convolve (a b : List Fp) (n : Nat) : List Fp := (List.range n).map (convAt a b)

/-- The schoolbook product: `[]` when an operand is empty, else `len(a) + len(b) − 1` coefficients (R112).
It commutes and associates (R127, `polyMul_comm`, `polyMul_assoc`). -/
def polyMul (a b : List Fp) : List Fp :=
  if a.length = 0 ∨ b.length = 0 then [] else convolve a b (a.length + b.length - 1)

/-- One step of long division on the scratch copy `r`: `r[k + i] −= q ·p b[i]` for `i < len(b)` (R113). -/
def divStep (r b : List Fp) (k : Nat) (q : Fp) : List Fp :=
  (List.range r.length).map fun j =>
    if k ≤ j ∧ j < k + b.length then Fp.sub (coeffAt r j) (Fp.mul q (coeffAt b (j - k)))
    else coeffAt r j

/-- The loop of R113 for `k = steps − 1` down to 0: the quotient values `q[0], …, q[steps − 1]`. -/
def divLoop (b : List Fp) : Nat → List Fp → List Fp
  | 0, _ => []
  | k + 1, r =>
    let q := Fp.div (coeffAt r (k + b.length - 1)) (coeffAt b (b.length - 1))
    divLoop b k (divStep r b k q) ++ [q]

/-- The quotient of polynomial long division by length, for `0 < len(b) ≤ len(a)` and a last slot of `b`
that is not 0: `len(a) − len(b) + 1` values (R113). -/
def polyQuot (a b : List Fp) : List Fp := divLoop b (a.length - b.length + 1) a

/-- The remainder of R114: `a − q·b`, the product of length `len(a)`, truncated to `len(b) − 1` values;
`a = q·b + r` (R127, `polyQuot_mul_add_polyRem`). -/
def polyRem (a b : List Fp) : List Fp :=
  let q := polyQuot a b
  ((List.range a.length).map fun i => Fp.sub (coeffAt a i) (convAt q b i)).take (b.length - 1)

/-- Every value times `c` (R115). -/
def polyScale (a : List Fp) (c : Fp) : List Fp := a.map fun ai => Fp.mul ai c

/-- Horner evaluation at `t` (R116): `acc = acc ·p t +p a[i]` from the last index down. -/
def horner (a : List Fp) (t : Fp) : Fp := a.foldr (fun ai acc => Fp.add (Fp.mul acc t) ai) 0

/-- `ev(c, t) = Σ_i c[i] ·p (t ^p i)` (R8). -/
def ev (c : List Fp) (t : Fp) : Fp :=
  Fp.sum ((List.range c.length).map fun i => Fp.mul (coeffAt c i) (Fp.pow t i))

/-- The closed form of R118 on four coefficients. -/
def evalQuartic (a : List Fp) (t : Fp) : Fp :=
  Fp.add (Fp.add (Fp.add (coeffAt a 0) (Fp.mul (coeffAt a 1) t))
    (Fp.mul (Fp.mul (coeffAt a 2) t) t)) (Fp.mul (Fp.mul (Fp.mul (coeffAt a 3) t) t) t)

/-- One synthetic multiplication by `X − t` (R119): prepend 0, then `root[j] −= root[j+1] ·p t` for
`j` in increasing order, so that `root[j+1]` is still the old value. -/
def vanishStep (root : List Fp) (t : Fp) : List Fp :=
  let r := 0 :: root
  (List.range r.length).map fun j =>
    if j + 1 < r.length then Fp.sub (coeffAt r j) (Fp.mul (coeffAt r (j + 1)) t) else coeffAt r j

/-- The vanishing polynomial of a sequence of points, from `[1]` (R119). It is 0 at its points and its degree is their
number (R127, `ev_vanishing`, `deg_vanishing`). -/
def vanishing (points : List Fp) : List Fp := points.foldl vanishStep [1]

/-- The powers `t^0, …, t^(n−1)` (R120). -/
def powers (t : Fp) (n : Nat) : List Fp := (List.range n).map (Fp.pow t)

/-- The numerator `N_i = Z / (x − xs[i])` of R121, remainder discarded. -/
def lagrangeNumerator (z : List Fp) (xi : Fp) : List Fp := polyQuot z [Fp.sub 0 xi, 1]

/-- The weight `ys[i] ·p inv(d_i)`, with `d_i = N_i(xs[i])` (R121). -/
def lagrangeWeight (numer : List Fp) (xi yi : Fp) : Fp := Fp.mul yi (Fp.inv (ev numer xi))

/-- Lagrange interpolation through distinct points (R121, R125): `c[k] = Σ_i ys[i] ·p inv(d_i) ·p N_i[k]`.
Its value at `xs[i]` is `ys[i]` (R127, `ev_interpolate`). -/
def interpolate (xs ys : List Fp) : List Fp :=
  let terms := (xs.zip ys).map fun pt =>
    let numer := lagrangeNumerator (vanishing xs) pt.1
    polyScale numer (lagrangeWeight numer pt.1 pt.2)
  (List.range xs.length).map fun k => Fp.sum (terms.map fun term => coeffAt term k)

/-- Two points are equal by value (R125). -/
def hasDuplicate : List Fp → Bool
  | [] => false
  | a :: t => t.contains a || hasDuplicate t

/-- `n = 2^k` for some `k ≥ 0`; 0 is not (R141). -/
def isPowerOfTwo (n : Nat) : Bool := n == 2 ^ Nat.log2 n

/-- The least power of two `≥ m` (R143). -/
def nextPowerOfTwo (m : Nat) : Nat := if m ≤ 1 then 1 else 2 ^ (Nat.log2 (m - 1) + 1)

/-- `w` fails the primitive-root check for length `n ≥ 2`: `w^n ≠ 1` or `w^(n/2) = 1` (R140, R141). -/
def failsRootCheck (w : Fp) (n : Nat) : Bool := Fp.pow w n != 1 || Fp.pow w (n / 2) == 1

/-- The recursion of R140 at depth `k`, for a sequence of length `2^k`: split by index parity with the
strided subslice, transform each half with the squared root, combine with the twiddles `w^i`. -/
def nttRec : Nat → Fp → List Fp → List Fp
  | 0, _, c => c
  | k + 1, w, c =>
    let even := nttRec k (Fp.mul w w) (strided c 0 2)
    let odd := nttRec k (Fp.mul w w) (strided c 1 2)
    let twisted := (List.range (2 ^ k)).map fun i => Fp.mul (Fp.pow w i) (coeffAt odd i)
    (List.range (2 ^ k)).map (fun i => Fp.add (coeffAt even i) (coeffAt twisted i)) ++
      (List.range (2 ^ k)).map (fun i => Fp.sub (coeffAt even i) (coeffAt twisted i))

/-- `ntt(w, c)` for a length that is a power of two (R140; the depth `log2(n)` is not architectural). -/
def ntt (w : Fp) (c : List Fp) : List Fp := nttRec (Nat.log2 c.length) w c

/-- The inverse transform of R142: the transform with `inv(w)`, every value scaled by `inv(n mod p)`. -/
def intt (w : Fp) (c : List Fp) : List Fp :=
  polyScale (ntt (Fp.inv w) c) (Fp.inv (Fp.ofNat c.length))

/-- The first `d + 1` values, zero-padded to length `n` (R143). -/
def padTo (c : List Fp) (d n : Nat) : List Fp := (List.range n).map fun i => if i ≤ d then coeffAt c i else 0

/-- The transform path of R143 for operands of degree `da` and `db` and a root `r` of the padded order
`n`: transform both, multiply pointwise, transform back, keep `da + db + 1` coefficients (log 11). -/
def fastProduct (a b : List Fp) (da db : Nat) (r : Fp) (n : Nat) : List Fp :=
  let ta := ntt r (padTo a da n)
  let tb := ntt r (padTo b db n)
  let h := (List.range n).map fun k => Fp.mul (coeffAt ta k) (coeffAt tb k)
  (intt r h).take (da + db + 1)

end Sys2Proof.Machine
end

