-- ==== Sys2Proof/Machine/Flags.lean ====
section
/-! DEFINITION. The flags and the status word (10_state.md R17 to R20). -/

namespace Sys2Proof.Machine

/-- The code of a cause, the value of STATUS.CAUSE (60_exceptions.md R161). -/
def Cause.code : Cause → BitVec 8
  | .illegal => 1
  | .useNone => 2
  | .divZero => 3
  | .notPow2 => 4
  | .badRoot => 5
  | .badSize => 6
  | .index => 7
  | .capacity => 8
  | .length => 9

/-- The STATUS word (R17): EQ, LT, NORES, FATAL in bits 0 to 3, CAUSE in bits 15:8, every other bit 0. -/
def statusWord (s : State) : Word :=
  (0 : BitVec 48) ++ s.cause ++ (0 : BitVec 4) ++ BitVec.ofBool s.fatal ++ BitVec.ofBool s.nores ++
    BitVec.ofBool s.lt ++ BitVec.ofBool s.eq

/-- What FCMP writes (R18, R83): `EQ <- (a = b)`, `LT <- (a < b)` on the canonical integers. -/
def compareFlags (s : State) (a b : Fp) : State :=
  { s with eq := a == b, lt := decide (a.val < b.val) }

/-- What VISZ and VEQ write: EQ alone (R18, R104, R105). -/
def writeEq (s : State) (b : Bool) : State := { s with eq := b }

/-- What VDIV, VMOD, VINTERP and VSUBSL write (R19). -/
def writeNores (s : State) (b : Bool) : State := { s with nores := b }

end Sys2Proof.Machine
end

