-- ==== Sys2Proof/Machine/Ops.lean ====
section
/-! DEFINITION. The named operations on the state: register access, the primitives of 00_scope.md R7
(`use`, `result`, `noresult`, `raise Fatal`), the fatal entry (60_exceptions.md R163), the completion of a
command (20_memory.md R32), reset (70_reset_and_hazards.md R170). -/

namespace Sys2Proof.Machine

/-- Read a register of a file; every register number is legal and none is hard-wired (R11 to R13). -/
def readReg {α : Type} (file : RegFile α) (i : Fin 16) : α := file[i.val]

/-- Write a register of a file. -/
def writeReg {α : Type} (file : RegFile α) (i : Fin 16) (a : α) : RegFile α := file.set i.val a

/-- `x[i]` (R7). -/
def getX (s : State) (i : XReg) : Word := readReg s.x i

/-- `f[i]` (R7). -/
def getF (s : State) (i : FReg) : Fp := readReg s.f i

/-- `v[i]` (R7). -/
def getV (s : State) (i : VReg) : PolyVal := readReg s.v i

/-- `x[i] <- w` (R7). -/
def setX (s : State) (i : XReg) (w : Word) : State := { s with x := writeReg s.x i w }

/-- `f[i] <- a` (R7). -/
def setF (s : State) (i : FReg) (a : Fp) : State := { s with f := writeReg s.f i a }

/-- `v[i] <- p` (R7). -/
def setV (s : State) (i : VReg) (p : PolyVal) : State := { s with v := writeReg s.v i p }

/-- `raise Fatal(c)` when the condition holds (R7). -/
def raiseIf (cond : Prop) [Decidable cond] (c : Cause) : Except Cause Unit :=
  if cond then .error c else .ok ()

/-- `use(v[i])` (R7, R165): the slots, or the fatal cause USENONE for a register that holds `NONE`. -/
def useV (s : State) (i : VReg) : Except Cause (List Slot) :=
  match getV s i with
  | .none => .error .useNone
  | .seq slots => .ok slots

/-- The slot at an index, or the fatal cause INDEX when the index is not below the length (R92 to R95). -/
def slotAt (slots : List Slot) (i : Nat) : Except Cause Slot :=
  match slots[i]? with
  | .none => .error .index
  | .some c => .ok c

/-- `result(d, s)` (R7, R106): the sequence, or the fatal cause CAPACITY when it is longer than LMAX. -/
def result (s : State) (d : VReg) (slots : List Slot) : Except Cause State :=
  if slots.length > LMAX then .error .capacity else .ok (setV s d (.seq slots))

/-- `noresult(d)` (R7, R166): `v[d] <- NONE`, `NORES <- 1`. -/
def noResult (s : State) (d : VReg) : State := writeNores (setV s d .none) true

/-- The new byte buffer with a byte appended, or the fatal cause CAPACITY when it is full (R57, R58). -/
def pushByte (s : State) (b : Byte) : Except Cause State :=
  if s.bb.length = BMAX then .error .capacity else .ok { s with bb := s.bb ++ [b] }

/-- Fatal entry (R163): nothing of the command is kept; FATAL, CAUSE and FAULTCMD are written and
CMDCNT is not incremented. -/
def fatalEntry (s : State) (c : Cause) (w : CmdWord) : State :=
  { s with fatal := true, cause := c.code, faultcmd := w.setWidth 64 }

/-- The completion of a command: CMDCNT is incremented modulo `2^64` (R16, R32). -/
def complete (s : State) : State := { s with cmdcnt := s.cmdcnt + 1 }

/-- The end of a command `i` begun in state `s`: a state its rule computes is completed, a fatal cause is
the fatal entry from `s` itself with the command's word (R32, R163; log 17). There is no return from
a fatal error but reset (R164). -/
def command (i : Instr) (s : State) (r : Except Cause State) : Result :=
  match r with
  | .ok s' => .next (complete s')
  | .error c => .next (fatalEntry s c (encode i))

/-- Reset (R170): every piece of the unit's state as after reset; the host's side of the run stays. -/
def resetUnit (s : State) : State := { State.reset with host := s.host, reads := s.reads }

end Sys2Proof.Machine
end

