-- ==== Sys2Proof/Machine/FieldCmds.lean ====
section
/-! DEFINITION. The field commands (41_field.md R66 to R88). -/

namespace Sys2Proof.Machine

/-- FSETU: `f[rd] <- u(x[ra]) mod p` (R66). -/
def execFsetu (fd : FReg) (xa : XReg) (s : State) : Result :=
  command (.fsetu fd xa) s (.ok (setF s fd (Fp.ofNat (uVal (getX s xa)))))

/-- FSETS: `f[rd] <- s(x[ra]) mod p`, the mathematical residue (R67). -/
def execFsets (fd : FReg) (xa : XReg) (s : State) : Result :=
  command (.fsets fd xa) s (.ok (setF s fd (Fp.ofInt (sVal (getX s xa)))))

/-- FBIG: `f[rd] <- int_be(bb) mod p` (R68). -/
def execFbig (fd : FReg) (s : State) : Result :=
  command (.fbig fd) s (.ok (setF s fd (Fp.ofNat (intBe s.bb))))

/-- FBIGN: `f[rd] <- (−int_be(bb)) mod p` (R69). -/
def execFbign (fd : FReg) (s : State) : Result :=
  command (.fbign fd) s (.ok (setF s fd (Fp.ofInt (-(intBe s.bb : Int)))))

/-- FBYTES: `f[rd] <- int_be(bb) mod p` (R70). -/
def execFbytes (fd : FReg) (s : State) : Result :=
  command (.fbytes fd) s (.ok (setF s fd (Fp.ofNat (intBe s.bb))))

/-- FSAMPLE: big-endian accumulation of `bb`, reduced at the end (R71). -/
def execFsample (fd : FReg) (s : State) : Result :=
  command (.fsample fd) s (.ok (setF s fd (Fp.ofNat (intBe s.bb))))

/-- FSER: `bb <- be8(f[ra])`, replacing the old content (R72). -/
def execFser (fa : FReg) (s : State) : Result :=
  command (.fser fa) s (.ok { s with bb := be8 (getF s fa).val })

/-- FTOX: `x[rd] <- zext_64(f[ra])` (R73). -/
def execFtox (xd : XReg) (fa : FReg) (s : State) : Result :=
  command (.ftox xd fa) s (.ok (setX s xd (zext (getF s fa).val)))

/-- FMOV: `f[rd] <- f[ra]` (R74). -/
def execFmov (fd : FReg) (fa : FReg) (s : State) : Result :=
  command (.fmov fd fa) s (.ok (setF s fd (getF s fa)))

/-- FADD: `f[rd] <- f[ra] +p f[rb]` (R75). -/
def execFadd (fd : FReg) (fa : FReg) (fb : FReg) (s : State) : Result :=
  command (.fadd fd fa fb) s (.ok (setF s fd (Fp.add (getF s fa) (getF s fb))))

/-- FSUB: `f[rd] <- f[ra] −p f[rb]` (R76). -/
def execFsub (fd : FReg) (fa : FReg) (fb : FReg) (s : State) : Result :=
  command (.fsub fd fa fb) s (.ok (setF s fd (Fp.sub (getF s fa) (getF s fb))))

/-- FMUL: `f[rd] <- f[ra] ·p f[rb]` (R77). -/
def execFmul (fd : FReg) (fa : FReg) (fb : FReg) (s : State) : Result :=
  command (.fmul fd fa fb) s (.ok (setF s fd (Fp.mul (getF s fa) (getF s fb))))

/-- FDIV: DIVZERO for a divisor 0, else `f[rd] <- f[ra] ·p inv(f[rb])` (R78). -/
def execFdiv (fd : FReg) (fa : FReg) (fb : FReg) (s : State) : Result :=
  command (.fdiv fd fa fb) s do
    raiseIf (getF s fb = 0) .divZero
    pure (setF s fd (Fp.div (getF s fa) (getF s fb)))

/-- FINV: DIVZERO for 0, else `f[rd] <- inv(f[ra])` (R79). -/
def execFinv (fd : FReg) (fa : FReg) (s : State) : Result :=
  command (.finv fd fa) s do
    raiseIf (getF s fa = 0) .divZero
    pure (setF s fd (Fp.inv (getF s fa)))

/-- FEXP: `f[rd] <- f[ra] ^p int_be(bb)` (R80). -/
def execFexp (fd : FReg) (fa : FReg) (s : State) : Result :=
  command (.fexp fd fa) s (.ok (setF s fd (Fp.pow (getF s fa) (intBe s.bb))))

/-- FEXPX: `f[rd] <- f[ra] ^p u(x[rb])` (R81). -/
def execFexpx (fd : FReg) (fa : FReg) (xb : XReg) (s : State) : Result :=
  command (.fexpx fd fa xb) s (.ok (setF s fd (Fp.pow (getF s fa) (uVal (getX s xb)))))

/-- FCMP: EQ and LT by the order of the canonical integers (R83). -/
def execFcmp (fa : FReg) (fb : FReg) (s : State) : Result :=
  command (.fcmp fa fb) s (.ok (compareFlags s (getF s fa) (getF s fb)))

/-- FRORD: `f[rd] <- p − 1` (R84). -/
def execFrord (fd : FReg) (s : State) : Result :=
  command (.frord fd) s (.ok (setF s fd (Fp.ofNat (modulus - 1))))

/-- FROOT: BADSIZE when the size is 0 or does not divide `p − 1`, else `7 ^p ((p − 1) div size)` (R85). -/
def execFroot (fd : FReg) (xa : XReg) (s : State) : Result :=
  let size := uVal (getX s xa)
  command (.froot fd xa) s do
    raiseIf (size = 0 ∨ (modulus - 1) % size ≠ 0) .badSize
    pure (setF s fd (Fp.pow (Fp.ofNat generator) ((modulus - 1) / size)))

/-- VMINV: slot-wise inverses, DIVZERO when a present slot holds 0 (R88). -/
def execVminv (vd : VReg) (va : VReg) (s : State) : Result :=
  command (.vminv vd va) s do
    let a ← useV s va
    raiseIf (Slot.elem 0 ∈ a) .divZero
    result s vd (a.map minvSlot)

end Sys2Proof.Machine
end

