-- ==== Sys2Proof/Machine/HostData.lean ====
section
/-! DEFINITION. The data movement and byte buffer commands (40_host_data.md R50 to R60). -/

namespace Sys2Proof.Machine

/-- NOP: nothing but the completion (R50). -/
def execNop (s : State) : Result := command .nop s (.ok s)

/-- XLI: `x[rd] <- zext_64(imm16)` (R51). -/
def execXli (xd : XReg) (imm16 : BitVec 16) (s : State) : Result :=
  command (.xli xd imm16) s (.ok (setX s xd (zextImm16 imm16)))

/-- XLD: `x[rd] <- DIN` (R52). -/
def execXld (xd : XReg) (s : State) : Result :=
  command (.xld xd) s (.ok (setX s xd s.din))

/-- XOUT: `DOUT <- x[ra]` (R53). -/
def execXout (xa : XReg) (s : State) : Result :=
  command (.xout xa) s (.ok { s with dout := getX s xa })

/-- FLD: `f[rd] <- u(DIN) mod p` (R54). -/
def execFld (fd : FReg) (s : State) : Result :=
  command (.fld fd) s (.ok (setF s fd (Fp.ofNat (uVal s.din))))

/-- FOUT: `DOUT <- zext_64(f[ra])` (R55). -/
def execFout (fa : FReg) (s : State) : Result :=
  command (.fout fa) s (.ok { s with dout := zext (getF s fa).val })

/-- BCLR: `bb <- []` (R56). -/
def execBclr (s : State) : Result := command .bclr s (.ok { s with bb := [] })

/-- BPUSHI: append a constant byte, CAPACITY on a full buffer (R57). -/
def execBpushi (imm8 : BitVec 8) (s : State) : Result :=
  command (.bpushi imm8) s (pushByte s imm8)

/-- BPUSH: append the low byte of `x[ra]`, CAPACITY on a full buffer (R58). -/
def execBpush (xa : XReg) (s : State) : Result :=
  command (.bpush xa) s (pushByte s (lowByte (getX s xa)))

/-- BGET: `x[rd] <- zext_64(bb[u(x[ra])])`, INDEX when the index is not below the length (R59). -/
def execBget (xd : XReg) (xa : XReg) (s : State) : Result :=
  command (.bget xd xa) s <|
    match s.bb[uVal (getX s xa)]? with
    | .none => .error .index
    | .some b => .ok (setX s xd (zextByte b))

/-- BLEN: `x[rd] <- zext_64(len(bb))` (R60). -/
def execBlen (xd : XReg) (s : State) : Result :=
  command (.blen xd) s (.ok (setX s xd (zext s.bb.length)))

end Sys2Proof.Machine
end

