-- ==== Sys2Proof/Machine/PolyStruct.lean ====
section
/-! DEFINITION. The polynomial structure commands (42_poly_struct.md R90 to R106). Every source is read
through `useV`, every result that can be too long is written through `result` (R106). -/

namespace Sys2Proof.Machine

/-- VCLR: `v[rd] <- []`, also over a `NONE` (R90). -/
def execVclr (vd : VReg) (s : State) : Result :=
  command (.vclr vd) s (.ok (setV s vd (.seq [])))

/-- VPUSH: append a present slot to `v[rd]`; USENONE, CAPACITY (R91). -/
def execVpush (vd : VReg) (fa : FReg) (s : State) : Result :=
  command (.vpush vd fa) s do
    let sl ← useV s vd
    result s vd (sl ++ [.elem (getF s fa)])

/-- VGET: `f[rd] <- val(v[ra][u(x[rb])])`; USENONE, INDEX (R92). -/
def execVget (fd : FReg) (va : VReg) (xb : XReg) (s : State) : Result :=
  command (.vget fd va xb) s do
    let sl ← useV s va
    let c ← slotAt sl (uVal (getX s xb))
    pure (setF s fd c.val)

/-- VSET: slot `u(x[rb])` of `v[rd]` becomes `elem(f[ra])`; USENONE, INDEX (R93). -/
def execVset (vd : VReg) (fa : FReg) (xb : XReg) (s : State) : Result :=
  command (.vset vd fa xb) s do
    let sl ← useV s vd
    let _ ← slotAt sl (uVal (getX s xb))
    pure (setV s vd (.seq (sl.set (uVal (getX s xb)) (.elem (getF s fa)))))

/-- VABS: slot `u(x[rb])` of `v[rd]` becomes `absent`; USENONE, INDEX (R94). -/
def execVabs (vd : VReg) (xb : XReg) (s : State) : Result :=
  command (.vabs vd xb) s do
    let sl ← useV s vd
    let _ ← slotAt sl (uVal (getX s xb))
    pure (setV s vd (.seq (sl.set (uVal (getX s xb)) .absent)))

/-- VPRES: `x[rd] <- 1` for a present slot, 0 for an absent one; USENONE, INDEX (R95). -/
def execVpres (xd : XReg) (va : VReg) (xb : XReg) (s : State) : Result :=
  command (.vpres xd va xb) s do
    let sl ← useV s va
    let c ← slotAt sl (uVal (getX s xb))
    pure (setX s xd (if c.present then 1 else 0))

/-- VLEN: `x[rd] <- zext_64(len(v[ra]))`; USENONE (R96). -/
def execVlen (xd : XReg) (va : VReg) (s : State) : Result :=
  command (.vlen xd va) s do
    let sl ← useV s va
    pure (setX s xd (zext sl.length))

/-- VPAD: zero-padding to length `u(x[rb])`; USENONE, LENGTH, CAPACITY (R101). -/
def execVpad (vd : VReg) (va : VReg) (xb : XReg) (s : State) : Result :=
  let n := uVal (getX s xb)
  command (.vpad vd va xb) s do
    let sl ← useV s va
    raiseIf (n < sl.length) .length
    raiseIf (n > LMAX) .capacity
    pure (setV s vd (.seq (sl ++ List.replicate (n - sl.length) (.elem 0))))

/-- VTRUNC: truncation to length `u(x[rb])`; USENONE, LENGTH (R102). -/
def execVtrunc (vd : VReg) (va : VReg) (xb : XReg) (s : State) : Result :=
  let n := uVal (getX s xb)
  command (.vtrunc vd va xb) s do
    let sl ← useV s va
    raiseIf (n > sl.length) .length
    pure (setV s vd (.seq (sl.take n)))

/-- VTRIM: remove the trailing slots whose value is 0; USENONE (R99). -/
def execVtrim (vd : VReg) (va : VReg) (s : State) : Result :=
  command (.vtrim vd va) s do
    let sl ← useV s va
    pure (setV s vd (.seq (trimSlots sl)))

/-- VMOV: copy every slot as it is; USENONE (R97). -/
def execVmov (vd : VReg) (va : VReg) (s : State) : Result :=
  command (.vmov vd va) s do
    let sl ← useV s va
    pure (setV s vd (.seq sl))

/-- VREV: the same slots in the opposite order; USENONE (R98). -/
def execVrev (vd : VReg) (va : VReg) (s : State) : Result :=
  command (.vrev vd va) s do
    let sl ← useV s va
    pure (setV s vd (.seq sl.reverse))

/-- VSUBSL: strided extraction, both integers read signed; a `start` out of range or a `step ≤ 0` is a
signalled no-result; USENONE (R100). -/
def execVsubsl (vd : VReg) (va : VReg) (xb : XReg) (xc : XReg) (s : State) : Result :=
  let start := sVal (getX s xb)
  let step := sVal (getX s xc)
  command (.vsubsl vd va xb xc) s do
    let sl ← useV s va
    if start < 0 ∨ (sl.length : Int) ≤ start ∨ step ≤ 0 then pure (noResult s vd)
    else pure (writeNores (setV s vd (.seq (strided sl start.toNat step.toNat))) false)

/-- VDEG: the degree, or the all-ones word for the zero polynomial; USENONE (R103). -/
def execVdeg (xd : XReg) (va : VReg) (s : State) : Result :=
  command (.vdeg xd va) s do
    let sl ← useV s va
    pure (setX s xd (match deg (coef sl) with
      | .some d => zext d
      | .none => BitVec.allOnes 64))

/-- VISZ: EQ tells whether every value is 0; USENONE (R104). -/
def execVisz (va : VReg) (s : State) : Result :=
  command (.visz va) s do
    let sl ← useV s va
    pure (writeEq s (isZero (coef sl)))

/-- VEQ: EQ tells whether lengths and values are equal, with no trimming; USENONE (R105). -/
def execVeq (va : VReg) (vb : VReg) (s : State) : Result :=
  command (.veq va vb) s do
    let a ← useV s va
    let b ← useV s vb
    pure (writeEq s (coef a == coef b))

end Sys2Proof.Machine
end

