-- ==== Sys2Proof/Machine/PolyCmds.lean ====
section
/-! DEFINITION. The polynomial arithmetic, evaluation and interpolation commands (43_poly_arith.md R110 to
R125). An absent slot is read as 0, and every slot written is present (R14). -/

namespace Sys2Proof.Machine

/-- VADD: slot-wise sum, length the maximum of the two; USENONE (R110). -/
def execVadd (vd : VReg) (va : VReg) (vb : VReg) (s : State) : Result :=
  command (.vadd vd va vb) s do
    let a ← useV s va
    let b ← useV s vb
    result s vd (elems (polyAdd (coef a) (coef b)))

/-- VSUB: slot-wise difference, length the maximum of the two; USENONE (R111). -/
def execVsub (vd : VReg) (va : VReg) (vb : VReg) (s : State) : Result :=
  command (.vsub vd va vb) s do
    let a ← useV s va
    let b ← useV s vb
    result s vd (elems (polySub (coef a) (coef b)))

/-- What VMUL does once its sources are fetched, and VFMUL on its fallback path: the product, or CAPACITY when
it does not fit; the product with an empty operand is `[]` and always fits (R112). -/
def mulInto (s : State) (vd : VReg) (a b : List Fp) : Except Cause State :=
  result s vd (elems (polyMul a b))

/-- VMUL: schoolbook product; USENONE, CAPACITY (R112). -/
def execVmul (vd : VReg) (va : VReg) (vb : VReg) (s : State) : Result :=
  command (.vmul vd va vb) s do
    let a ← useV s va
    let b ← useV s vb
    mulInto s vd (coef a) (coef b)

/-- The tests and the ending VDIV and VMOD share (R113, R114): DIVZERO for an empty divisor, no-result for
a shorter dividend, DIVZERO for a divisor whose last slot is 0, else the given value and `NORES <- 0`. -/
def divideInto (s : State) (vd : VReg) (a b : List Fp) (value : List Fp → List Fp → List Fp) :
    Except Cause State := do
  raiseIf (b.length = 0) .divZero
  if a.length < b.length then pure (noResult s vd)
  else do
    raiseIf (coeffAt b (b.length - 1) = 0) .divZero
    let s' ← result s vd (elems (value a b))
    pure (writeNores s' false)

/-- VDIV: the quotient of long division by length; USENONE, DIVZERO; writes NORES (R113). -/
def execVdiv (vd : VReg) (va : VReg) (vb : VReg) (s : State) : Result :=
  command (.vdiv vd va vb) s do
    let a ← useV s va
    let b ← useV s vb
    divideInto s vd (coef a) (coef b) polyQuot

/-- VMOD: the remainder; USENONE, DIVZERO; writes NORES (R114). -/
def execVmod (vd : VReg) (va : VReg) (vb : VReg) (s : State) : Result :=
  command (.vmod vd va vb) s do
    let a ← useV s va
    let b ← useV s vb
    divideInto s vd (coef a) (coef b) polyRem

/-- VSCALE: every value times `f[rb]`; USENONE (R115). -/
def execVscale (vd : VReg) (va : VReg) (fb : FReg) (s : State) : Result :=
  command (.vscale vd va fb) s do
    let a ← useV s va
    result s vd (elems (polyScale (coef a) (getF s fb)))

/-- VEVAL: Horner evaluation at `f[rb]`; USENONE (R116). -/
def execVeval (fd : FReg) (va : VReg) (fb : FReg) (s : State) : Result :=
  command (.veval fd va fb) s do
    let a ← useV s va
    pure (setF s fd (horner (coef a) (getF s fb)))

/-- VEVALD: evaluation at every value of `v[rb]`, in order; USENONE (R117). -/
def execVevald (vd : VReg) (va : VReg) (vb : VReg) (s : State) : Result :=
  command (.vevald vd va vb) s do
    let a ← useV s va
    let b ← useV s vb
    result s vd (elems ((coef b).map (ev (coef a))))

/-- VEVALQ: closed-form evaluation of exactly four coefficients; USENONE, LENGTH (R118). -/
def execVevalq (fd : FReg) (va : VReg) (fb : FReg) (s : State) : Result :=
  command (.vevalq fd va fb) s do
    let a ← useV s va
    raiseIf (a.length ≠ 4) .length
    pure (setF s fd (evalQuartic (coef a) (getF s fb)))

/-- VZERO: the vanishing polynomial of the points `v[ra]`; USENONE, CAPACITY (R119). -/
def execVzero (vd : VReg) (va : VReg) (s : State) : Result :=
  command (.vzero vd va) s do
    let a ← useV s va
    raiseIf (a.length + 1 > LMAX) .capacity
    result s vd (elems (vanishing (coef a)))

/-- VINTERP: interpolation through the points `(v[ra], v[rb])`; a length mismatch or two equal points are
a signalled no-result; USENONE; writes NORES (R125). -/
def execVinterp (vd : VReg) (va : VReg) (vb : VReg) (s : State) : Result :=
  command (.vinterp vd va vb) s do
    let xs ← useV s va
    let ys ← useV s vb
    if xs.length ≠ ys.length then pure (noResult s vd)
    else if hasDuplicate (coef xs) then pure (noResult s vd)
    else do
      let s' ← result s vd (elems (interpolate (coef xs) (coef ys)))
      pure (writeNores s' false)

/-- VPOW: the powers `f[ra]^0, …, f[ra]^(n−1)` for `n = u(x[rb])`; CAPACITY (R120). -/
def execVpow (vd : VReg) (fa : FReg) (xb : XReg) (s : State) : Result :=
  let n := uVal (getX s xb)
  command (.vpow vd fa xb) s do
    raiseIf (n > LMAX) .capacity
    result s vd (elems (powers (getF s fa) n))

end Sys2Proof.Machine
end

