-- ==== Sys2Proof/Machine/TransformCmds.lean ====
section
/-! DEFINITION. The transform commands (44_transform.md R141 to R143). -/

namespace Sys2Proof.Machine

/-- The tests VNTT and VINTT share (R141, R142): NOTPOW2; for length 1 the values as they are, the root not
looked at; BADROOT; else the given transform. -/
def transformInto (s : State) (vd : VReg) (a : List Fp) (w : Fp) (value : Fp → List Fp → List Fp) :
    Except Cause State := do
  raiseIf (isPowerOfTwo a.length = false) .notPow2
  if a.length = 1 then result s vd (elems a)
  else do
    raiseIf (failsRootCheck w a.length = true) .badRoot
    result s vd (elems (value w a))

/-- VNTT: the transform of `v[ra]` with root `f[rb]`; USENONE, NOTPOW2, BADROOT (R141). -/
def execVntt (vd : VReg) (va : VReg) (fb : FReg) (s : State) : Result :=
  command (.vntt vd va fb) s do
    let a ← useV s va
    transformInto s vd (coef a) (getF s fb) ntt

/-- VINTT: the inverse transform of `v[ra]` with the forward root `f[rb]`; USENONE, NOTPOW2, BADROOT (R142). -/
def execVintt (vd : VReg) (va : VReg) (fb : FReg) (s : State) : Result :=
  command (.vintt vd va fb) s do
    let a ← useV s va
    transformInto s vd (coef a) (getF s fb) intt

/-- Case (3) of R143, for operands of degree `da` and `db` with `da + db ≥ 8`: the padded length, BADSIZE,
the derived root, BADROOT, CAPACITY, the transform path. -/
def fastInto (s : State) (vd : VReg) (a b : List Fp) (da db : Nat) (w : Fp) (ord : Nat) :
    Except Cause State := do
  let n := nextPowerOfTwo (da + db + 1)
  raiseIf (ord % n ≠ 0) .badSize
  let r := Fp.pow w (ord / n)
  raiseIf (Fp.pow r (n / 2) = 1) .badRoot
  raiseIf (da + db + 1 > LMAX) .capacity
  result s vd (elems (fastProduct a b da db r n))

/-- What VFMUL does once its sources are fetched (R143): BADROOT when the root fails its order, then the
fallback of VMUL for a zero operand or a product degree below 8, else the transform path. -/
def fastMulInto (s : State) (vd : VReg) (a b : List Fp) (w : Fp) (ord : Nat) : Except Cause State := do
  raiseIf (Fp.pow w ord ≠ 1) .badRoot
  match deg a, deg b with
  | .some da, .some db =>
    if da + db < 8 then mulInto s vd a b else fastInto s vd a b da db w ord
  | _, _ => mulInto s vd a b

/-- VFMUL: the product by the transform, with the root `f[rc]` of order `f[re]`; USENONE, BADROOT, CAPACITY or
BADSIZE, BADROOT, CAPACITY (R143). -/
def execVfmul (vd : VReg) (va : VReg) (vb : VReg) (fc : FReg) (fe : FReg) (s : State) : Result :=
  command (.vfmul vd va vb fc fe) s do
    let a ← useV s va
    let b ← useV s vb
    fastMulInto s vd (coef a) (coef b) (getF s fc) (getF s fe).val

end Sys2Proof.Machine
end

