-- ==== Sys2Proof/Machine/Dispatch.lean ====
section
/-! DEFINITION. What each command does: one arm per constructor of Instr (30_encoding.md R40). -/

namespace Sys2Proof.Machine

def exec (i : Instr) (s : State) : Host.Outcome State Fault Refusal :=
  match i with
  | .nop => Sys2Proof.Machine.execNop s
  | .xli xd imm16 => Sys2Proof.Machine.execXli xd imm16 s
  | .xld xd => Sys2Proof.Machine.execXld xd s
  | .xout xa => Sys2Proof.Machine.execXout xa s
  | .fld fd => Sys2Proof.Machine.execFld fd s
  | .fout fa => Sys2Proof.Machine.execFout fa s
  | .bclr => Sys2Proof.Machine.execBclr s
  | .bpushi imm8 => Sys2Proof.Machine.execBpushi imm8 s
  | .bpush xa => Sys2Proof.Machine.execBpush xa s
  | .bget xd xa => Sys2Proof.Machine.execBget xd xa s
  | .blen xd => Sys2Proof.Machine.execBlen xd s
  | .fsetu fd xa => Sys2Proof.Machine.execFsetu fd xa s
  | .fsets fd xa => Sys2Proof.Machine.execFsets fd xa s
  | .fbig fd => Sys2Proof.Machine.execFbig fd s
  | .fbign fd => Sys2Proof.Machine.execFbign fd s
  | .fbytes fd => Sys2Proof.Machine.execFbytes fd s
  | .fsample fd => Sys2Proof.Machine.execFsample fd s
  | .fser fa => Sys2Proof.Machine.execFser fa s
  | .ftox xd fa => Sys2Proof.Machine.execFtox xd fa s
  | .fmov fd fa => Sys2Proof.Machine.execFmov fd fa s
  | .fadd fd fa fb => Sys2Proof.Machine.execFadd fd fa fb s
  | .fsub fd fa fb => Sys2Proof.Machine.execFsub fd fa fb s
  | .fmul fd fa fb => Sys2Proof.Machine.execFmul fd fa fb s
  | .fdiv fd fa fb => Sys2Proof.Machine.execFdiv fd fa fb s
  | .finv fd fa => Sys2Proof.Machine.execFinv fd fa s
  | .fexp fd fa => Sys2Proof.Machine.execFexp fd fa s
  | .fexpx fd fa xb => Sys2Proof.Machine.execFexpx fd fa xb s
  | .fcmp fa fb => Sys2Proof.Machine.execFcmp fa fb s
  | .frord fd => Sys2Proof.Machine.execFrord fd s
  | .froot fd xa => Sys2Proof.Machine.execFroot fd xa s
  | .vminv vd va => Sys2Proof.Machine.execVminv vd va s
  | .vclr vd => Sys2Proof.Machine.execVclr vd s
  | .vpush vd fa => Sys2Proof.Machine.execVpush vd fa s
  | .vget fd va xb => Sys2Proof.Machine.execVget fd va xb s
  | .vset vd fa xb => Sys2Proof.Machine.execVset vd fa xb s
  | .vabs vd xb => Sys2Proof.Machine.execVabs vd xb s
  | .vpres xd va xb => Sys2Proof.Machine.execVpres xd va xb s
  | .vlen xd va => Sys2Proof.Machine.execVlen xd va s
  | .vpad vd va xb => Sys2Proof.Machine.execVpad vd va xb s
  | .vtrunc vd va xb => Sys2Proof.Machine.execVtrunc vd va xb s
  | .vtrim vd va => Sys2Proof.Machine.execVtrim vd va s
  | .vmov vd va => Sys2Proof.Machine.execVmov vd va s
  | .vrev vd va => Sys2Proof.Machine.execVrev vd va s
  | .vsubsl vd va xb xc => Sys2Proof.Machine.execVsubsl vd va xb xc s
  | .vdeg xd va => Sys2Proof.Machine.execVdeg xd va s
  | .visz va => Sys2Proof.Machine.execVisz va s
  | .veq va vb => Sys2Proof.Machine.execVeq va vb s
  | .vadd vd va vb => Sys2Proof.Machine.execVadd vd va vb s
  | .vsub vd va vb => Sys2Proof.Machine.execVsub vd va vb s
  | .vmul vd va vb => Sys2Proof.Machine.execVmul vd va vb s
  | .vdiv vd va vb => Sys2Proof.Machine.execVdiv vd va vb s
  | .vmod vd va vb => Sys2Proof.Machine.execVmod vd va vb s
  | .vscale vd va fb => Sys2Proof.Machine.execVscale vd va fb s
  | .veval fd va fb => Sys2Proof.Machine.execVeval fd va fb s
  | .vevald vd va vb => Sys2Proof.Machine.execVevald vd va vb s
  | .vevalq fd va fb => Sys2Proof.Machine.execVevalq fd va fb s
  | .vzero vd va => Sys2Proof.Machine.execVzero vd va s
  | .vinterp vd va vb => Sys2Proof.Machine.execVinterp vd va vb s
  | .vpow vd fa xb => Sys2Proof.Machine.execVpow vd fa xb s
  | .vntt vd va fb => Sys2Proof.Machine.execVntt vd va fb s
  | .vintt vd va fb => Sys2Proof.Machine.execVintt vd va fb s
  | .vfmul vd va vb fc fe => Sys2Proof.Machine.execVfmul vd va vb fc fe s

end Sys2Proof.Machine
end

