-- ==== Sys2Proof/Machine/Window.lean ====
section
/-! DEFINITION. The host register window (20_memory.md R30, R31): the address map, what a read returns and
what a write other than to CMD does. -/

namespace Sys2Proof.Machine

/-- The address map of R31. -/
def windowReg (addr : BitVec 4) : WindowReg :=
  match addr.toNat with
  | 0x0 => .cmd
  | 0x1 => .din
  | 0x2 => .dout
  | 0x3 => .status
  | 0x4 => .cmdcnt
  | 0x5 => .faultcmd
  | 0x6 => .ctrl
  | 0x7 => .modulus
  | 0x8 => .generator
  | 0x9 => .rootorder
  | 0xA => .lmaxr
  | 0xB => .bmaxr
  | _ => .reserved

/-- What a host read returns (R31); no read has a side effect on the unit (R35). -/
def windowRead (s : State) : WindowReg → Word
  | .cmd => 0
  | .din => s.din
  | .dout => s.dout
  | .status => statusWord s
  | .cmdcnt => s.cmdcnt
  | .faultcmd => s.faultcmd
  | .ctrl => 0
  | .modulus => zext modulus
  | .generator => zext generator
  | .rootorder => zext (modulus - 1)
  | .lmaxr => zext LMAX
  | .bmaxr => zext BMAX
  | .reserved => 0

/-- The command a host write to CMD issues: bits 31:0 of the word written (R31, R32). -/
def commandWord (w : Word) : CmdWord := w.extractLsb' 0 32

/-- What a host write to CTRL does (R24): reset when bit 0 is set, else nothing. -/
def ctrlWrite (s : State) (w : Word) : State := if w.getLsbD 0 then resetUnit s else s

/-- A host read completed: the word returned joins the observable result of the run (R175; log 3). -/
def recordRead (s : State) (w : Word) : State := { s with reads := s.reads ++ [w] }

end Sys2Proof.Machine
end

