-- ==== Sys2Proof/Machine/Issue.lean ====
section
/-! DEFINITION. One host access (20_memory.md R30 to R32, R35) and one step of a run: the unit acts only
inside a host write to CMD (10_state.md R10). -/

namespace Sys2Proof.Machine

/-- Issue a command word (R32): ignored in the FATAL state (R164); an illegal word is the fatal entry
with ILLEGAL (R45); else the command runs by its rule. -/
def issueCommand (w : CmdWord) (s : State) : Result :=
  if s.fatal then .next s
  else
    match decode w with
    | .none => .next (fatalEntry s .illegal w)
    | .some i => exec i s

/-- A host write to a word of the window (R31): CMD issues a command, DIN takes the word, CTRL may reset,
every other write is ignored. -/
def windowWrite (s : State) (r : WindowReg) (w : Word) : Result :=
  match r with
  | .cmd => issueCommand (commandWord w) s
  | .din => .next { s with din := w }
  | .ctrl => .next (ctrlWrite s w)
  | .dout | .status | .cmdcnt | .faultcmd | .modulus | .generator | .rootorder | .lmaxr | .bmaxr
  | .reserved => .next s

/-- One access of the outside world, performed completely (R35): a host read or write, or the platform's
reset (R170). -/
def performAccess (a : HostAccess) (s : State) : Result :=
  match a with
  | .read addr => .next (recordRead s (windowRead s (windowReg addr)))
  | .write addr w => windowWrite s (windowReg addr) w
  | .platformReset => .next (resetUnit s)

/-- One step of a run: the first access still to be made. When none is left the unit is idle and the state
does not change (R10, R175; log 2). -/
def stepHost (s : State) : Result :=
  match s.host with
  | [] => .next s
  | a :: rest => performAccess a { s with host := rest }

/-- The host write that issues the low `nbits` bits of `w` as a command, put before everything else the
host is going to do (log 1). -/
def queueCommand (s : State) (nbits w : Nat) : State :=
  { s with host := .write 0x0 (BitVec.ofNat 64 (w % 2 ^ nbits % 2 ^ 32)) :: s.host }

end Sys2Proof.Machine
end

