-- ==== Sys2Proof/Machine/Step.lean ====
section
/-! DEFINITION. The step of the machine and the placing of a command where the step takes its next one. -/

namespace Sys2Proof.Machine

/-- One step: the next access of the host, commands included, performed as one atomic step (20_memory.md
R35, 10_state.md R10). -/
def step (s : State) : Host.Outcome State Fault Refusal := stepHost s

/-- `s` with the command word `w` as the next host write to CMD (log 1). -/
def State.withFetchWord (s : State) (nbits w : Nat) : State := queueCommand s nbits w

end Sys2Proof.Machine
end

