-- ==== Sys2Proof/Safety.lean ====
section
/-! DEFINITION. The terms claims are stated in: the integer formulas of the rules, which registers a command writes and reads, which fatal
causes it can raise, when it is one of the commands that move slots, and the invariant of the unit. -/

namespace Sys2Proof.Machine

/-- `int_be(s) = Σ_{k<n} s[k] · 256^(n−1−k)` (00_scope.md R7). -/
def intBeSum (bytes : List Byte) : Nat :=
  ∑ k ∈ Finset.range bytes.length, (bytes.getD k 0).toNat * 256 ^ (bytes.length - 1 - k)

/-- `Σ_i a[i] · t^i` on integers, not yet reduced (R8). -/
def evalSum (a : List Fp) (t : Nat) : Nat :=
  ∑ i ∈ Finset.range a.length, (coeffAt a i).val * t ^ i

/-- `Σ_{i+j=k} A(i) · B(j)` on integers, not yet reduced (43_poly_arith.md R112). -/
def convSum (a b : List Fp) (k : Nat) : Nat :=
  ∑ i ∈ Finset.range (k + 1), (coeffAt a i).val * (coeffAt b (k - i)).val

/-- `Σ_j c[j] · w^(j·k)` on integers, not yet reduced (44_transform.md R140). -/
def dftSum (a : List Fp) (w k : Nat) : Nat :=
  ∑ j ∈ Finset.range a.length, (coeffAt a j).val * w ^ (j * k)

/-- The word `w` is the encoding of the command `i`, and decodes to it (30_encoding.md R40 to R42). -/
def spelledBy (i : Instr) (w : CmdWord) : Prop := encode i = w ∧ decode w = some i

/-- The command `i` in state `s` ends in the fatal error with cause `c` (60_exceptions.md R163). -/
def endsFatal (i : Instr) (s : State) (c : Cause) : Prop :=
  exec i s = .next { s with fatal := true, cause := c.code, faultcmd := (encode i).setWidth 64 }

/-- The command `i` in state `s` completes, with next state `t`: CMDCNT counts it, as it counts no fatal error (10_state.md
R16, 20_memory.md R32). -/
def completesTo (i : Instr) (s t : State) : Prop := exec i s = .next t ∧ t.cmdcnt = s.cmdcnt + 1

/-- The integer register a command writes (10_state.md R11: XLI, XLD, BGET, BLEN, FTOX, VPRES, VLEN, VDEG). -/
def destX : Instr → Option XReg
  | .xli d _ | .xld d | .bget d _ | .blen d | .ftox d _ | .vpres d _ _ | .vlen d _ | .vdeg d _ => some d
  | _ => none

/-- The field register a command writes (R12: FLD, FSETU, FSETS, FBIG, FBIGN, FBYTES, FSAMPLE, FMOV, FADD, FSUB,
FMUL, FDIV, FINV, FEXP, FEXPX, FRORD, FROOT, VGET, VEVAL, VEVALQ). -/
def destF : Instr → Option FReg
  | .fld d | .fsetu d _ | .fsets d _ | .fbig d | .fbign d | .fbytes d | .fsample d | .fmov d _
  | .fadd d _ _ | .fsub d _ _ | .fmul d _ _ | .fdiv d _ _ | .finv d _ | .fexp d _ | .fexpx d _ _
  | .frord d | .froot d _ | .vget d _ _ | .veval d _ _ | .vevalq d _ _ => some d
  | _ => none

/-- The polynomial register a command writes: the operand `vd` of its row in 30_encoding.md R40. -/
def destV : Instr → Option VReg
  | .vminv d _ | .vclr d | .vpush d _ | .vset d _ _ | .vabs d _ | .vpad d _ _ | .vtrunc d _ _
  | .vtrim d _ | .vmov d _ | .vrev d _ | .vsubsl d _ _ _ | .vadd d _ _ | .vsub d _ _ | .vmul d _ _
  | .vdiv d _ _ | .vmod d _ _ | .vscale d _ _ | .vevald d _ _ | .vzero d _ | .vinterp d _ _
  | .vpow d _ _ | .vntt d _ _ | .vintt d _ _ | .vfmul d _ _ _ _ => some d
  | _ => none

/-- The commands that write the byte buffer (R15). -/
def writesBuffer : Instr → Bool
  | .bclr | .bpushi _ | .bpush _ | .fser _ => true
  | _ => false

/-- The commands that write DOUT (R22). -/
def writesDout : Instr → Bool
  | .xout _ | .fout _ => true
  | _ => false

/-- The commands that write EQ (R18). -/
def writesEqFlag : Instr → Bool
  | .fcmp _ _ | .veq _ _ | .visz _ => true
  | _ => false

/-- The command that writes LT (R18). -/
def writesLtFlag : Instr → Bool
  | .fcmp _ _ => true
  | _ => false

/-- The commands that write NORES (R19). -/
def writesNoresFlag : Instr → Bool
  | .vdiv _ _ _ | .vmod _ _ _ | .vinterp _ _ _ | .vsubsl _ _ _ _ => true
  | _ => false

/-- The polynomial registers a command reads, in the order they are tested: `rd` first when the destination is
also read, then `ra`, then `rb` (42_poly_struct.md R106, 60_exceptions.md R165, R169). -/
def polySources : Instr → List VReg
  | .vpush d _ | .vset d _ _ | .vabs d _ => [d]
  | .vminv _ a | .vget _ a _ | .vpres _ a _ | .vlen _ a | .vpad _ a _ | .vtrunc _ a _ | .vtrim _ a
  | .vmov _ a | .vrev _ a | .vsubsl _ a _ _ | .vdeg _ a | .visz a | .vscale _ a _ | .veval _ a _
  | .vevalq _ a _ | .vzero _ a | .vntt _ a _ | .vintt _ a _ => [a]
  | .veq a b | .vadd _ a b | .vsub _ a b | .vmul _ a b | .vdiv _ a b | .vmod _ a b | .vevald _ a b
  | .vinterp _ a b | .vfmul _ a b _ _ => [a, b]
  | _ => []

/-- The command `i` in state `s` is fatal with USENONE when a register it reads holds `NONE` (R165). -/
def faultsOnNone (i : Instr) (s : State) : Prop :=
  (∃ r ∈ polySources i, getV s r = PolyVal.none) → endsFatal i s .useNone

/-- The fatal causes a legal command can raise (60_exceptions.md R162). -/
def fatalCauses : Instr → List Cause
  | .bpushi _ | .bpush _ | .vpow _ _ _ => [.capacity]
  | .bget _ _ => [.index]
  | .fdiv _ _ _ | .finv _ _ => [.divZero]
  | .froot _ _ => [.badSize]
  | .vminv _ _ | .vdiv _ _ _ | .vmod _ _ _ => [.useNone, .divZero]
  | .vpush _ _ | .vmul _ _ _ | .vzero _ _ => [.useNone, .capacity]
  | .vget _ _ _ | .vset _ _ _ | .vabs _ _ | .vpres _ _ _ => [.useNone, .index]
  | .vlen _ _ | .vtrim _ _ | .vmov _ _ | .vrev _ _ | .vsubsl _ _ _ _ | .vdeg _ _ | .visz _ | .veq _ _
  | .vadd _ _ _ | .vsub _ _ _ | .vscale _ _ _ | .veval _ _ _ | .vevald _ _ _ | .vinterp _ _ _ =>
    [.useNone]
  | .vpad _ _ _ => [.useNone, .length, .capacity]
  | .vtrunc _ _ _ | .vevalq _ _ _ => [.useNone, .length]
  | .vntt _ _ _ | .vintt _ _ _ => [.useNone, .notPow2, .badRoot]
  | .vfmul _ _ _ _ _ => [.useNone, .badRoot, .capacity, .badSize]
  | _ => []

/-- A polynomial register's value fits: `NONE`, or at most LMAX slots (R13). -/
def PolyVal.fits : PolyVal → Bool
  | .none => true
  | .seq slots => decide (slots.length ≤ LMAX)

/-- Every slot of a polynomial register's value is present (R14). -/
def PolyVal.allPresent : PolyVal → Bool
  | .none => true
  | .seq slots => slots.all Slot.present

/-- The value with every absent slot replaced by a present zero (R14). -/
def PolyVal.fillAbsent : PolyVal → PolyVal
  | .none => .none
  | .seq slots => .seq (slots.map fun c => .elem c.val)

/-- The state with every absent slot of every polynomial register replaced by a present zero (R14). -/
def fillAbsent (s : State) : State := { s with v := s.v.map PolyVal.fillAbsent }

/-- The commands whose result can hold an absent slot: VABS, which makes one, and those that move or keep slots
as they are (R14; 42_poly_struct.md R91, R93, R94, R97 to R102). -/
def keepsSlots : Instr → Bool
  | .vabs _ _ | .vpush _ _ | .vset _ _ _ | .vmov _ _ | .vrev _ _ | .vsubsl _ _ _ _ | .vpad _ _ _
  | .vtrunc _ _ _ | .vtrim _ _ => true
  | _ => false

/-- The two commands that tell an absent slot from a present zero in what they compute (R14). -/
def tellsAbsent : Instr → Bool
  | .vminv _ _ | .vpres _ _ _ => true
  | _ => false

/-- The command word FAULTCMD records (R23). -/
def faultWord (s : State) : CmdWord := s.faultcmd.extractLsb' 0 32

/-- What holds of the unit in every reachable state: the capacities of R13 and R15 are kept; while FATAL is 0,
CAUSE and FAULTCMD are 0 (R20, R23); while FATAL is 1, CAUSE is the code of a cause the recorded word can
raise (R161 to R163); FAULTCMD has bits 63:32 zero (R23). The canonical values of R26 are in the types. -/
structure Inv (s : State) : Prop where
  polyFits : ∀ i : VReg, (getV s i).fits = true
  bufferFits : s.bb.length ≤ BMAX
  quiet : s.fatal = false → s.cause = 0 ∧ s.faultcmd = 0
  recorded : s.fatal = true → ∃ c : Cause, s.cause = c.code ∧
    match decode (faultWord s) with
    | none => c = .illegal
    | some i => c ∈ fatalCauses i
  faultHigh : s.faultcmd.toNat < 2 ^ 32

end Sys2Proof.Machine
end

