-- ==== Sys2Proof/Certificates/Slice0/Obligations.lean ====
section
/-! DEFINITION. The statements about the unit. `A(i)` of the spec is `coeffAt (coef sl) i`. A premise
`sl.length ≤ LMAX` on a source register is the invariant of R13, stated by `InvariantHoldsAtReset` and
`EveryStepKeepsTheInvariant`. -/

open Sys2Proof Sys2Proof.Machine

/-! ### Encoding -/

/-- R40 to R42: the decoder reads back every instruction from its word. -/
def Obligations.DecodeOfEncodeIsTheInstruction : Prop :=
  ∀ i : Instr, decode (encode i) = some i

/-- R40 to R42: a word that decodes is the encoding of what it decodes to. -/
def Obligations.EncodeOfDecodeIsTheWord : Prop :=
  ∀ (w : CmdWord) (i : Instr), decode w = some i → encode i = w

/-- R45: a word decodes exactly when the mask test of the opcode table passes, for exactly one row; every
other word, issued outside the FATAL state, is the fatal error ILLEGAL with no other effect; 194 opcodes are
not assigned; the all-zero word is NOP. -/
def Obligations.IllegalWordsAreExactlyTheUnspelled : Prop :=
  (∀ w : CmdWord, wordLegal w = true ↔ ∃ i, decode w = some i) ∧
  (∀ w : CmdWord, wordLegal w = true → ∃ r ∈ opcodeMap, r.spells w = true ∧
    ∀ r' ∈ opcodeMap, r'.spells w = true → r' = r) ∧
  (∀ (w : CmdWord) (s : State), s.fatal = false → wordLegal w = false →
    issueCommand w s =
      .next { s with fatal := true, cause := 1, faultcmd := w.setWidth 64 }) ∧
  ((List.range 256).filter fun n => opcodeMap.all fun r => r.opcode.toNat != n).length = 194 ∧
  decode 0 = some .nop

/-- Words written out in the spec decode to the commands it names (R46, R51, R57, R75, R94, R100, R105, R143). -/
def Obligations.WordsOfTheSpecDecode : Prop :=
  decode 0x00000000 = some .nop ∧
  decode 0x01100002 = some (.xli 1 2) ∧
  decode 0x110000FF = some (.bpushi 255) ∧
  decode 0x30201000 = some (.fadd 2 0 1) ∧
  decode 0x44000000 = some (.vabs 0 0) ∧
  decode 0x4C100100 = some (.vsubsl 1 0 0 1) ∧
  decode 0x4F001000 = some (.veq 0 1) ∧
  decode 0x5A201000 = some (.vinterp 2 0 1) ∧
  decode 0x62201010 = some (.vfmul 2 0 1 0 1) ∧
  decode 0x30201001 = none

/-! ### The machine: commands, fatal errors, reset, the window -/

/-- R32, R35, R36: a host write to CMD whose bits 31:0 decode runs exactly that command. Beside it, what the step
adds in the model's own terms: it performs the first access of the list `host` (log 1), does nothing when there is none
(log 2), and a read adds the word returned to the list `reads` and changes nothing else (log 3). -/
def Obligations.StepRunsTheDecodedCommand : Prop :=
  (∀ (s : State) (w : Word) (rest : List HostAccess) (i : Instr),
    s.fatal = false → s.host = .write 0x0 w :: rest → decode (w.extractLsb' 0 32) = some i →
    step s = exec i { s with host := rest }) ∧
  (∀ (s : State) (a : HostAccess) (rest : List HostAccess), s.host = a :: rest →
    step s = performAccess a { s with host := rest }) ∧
  (∀ s : State, s.host = [] → step s = .next s) ∧
  ∀ (s : State) (a : BitVec 4), performAccess (.read a) s =
    .next { s with reads := s.reads ++ [windowRead s (windowReg a)] }

/-- Every state has a next state: no step stops the machine (93_implementation_defined.md, after its table 1). -/
def Obligations.EveryStepHasANextState : Prop :=
  ∀ s : State, ∃ t, step s = .next t

/-- R16, R32, R160: outside the FATAL state every command either completes, with one more in CMDCNT and FATAL,
CAUSE and FAULTCMD as they were, or is a fatal error that changes nothing but FATAL, CAUSE and FAULTCMD. -/
def Obligations.EveryCommandCompletesOrIsFatal : Prop :=
  ∀ (i : Instr) (s : State), s.fatal = false →
    (∃ t, exec i s = .next t ∧ t.fatal = false ∧ t.cmdcnt = s.cmdcnt + 1 ∧ t.cause = s.cause ∧
      t.faultcmd = s.faultcmd) ∨
    ∃ c, endsFatal i s c

/-- R163: a write to CMD after which FATAL is 1 changed nothing but FATAL, CAUSE and FAULTCMD, and FAULTCMD is the
command word zero-extended. -/
def Obligations.FatalEntryIsPrecise : Prop :=
  ∀ (s t : State) (w : CmdWord), s.fatal = false → issueCommand w s = .next t → t.fatal = true →
    ∃ c : Cause, t = { s with fatal := true, cause := c.code, faultcmd := w.setWidth 64 }

/-- R161, R162: from a state that keeps the capacities, a command that ends fatal recorded one of the causes R162
lists for it. -/
def Obligations.FatalCausesAreThoseListed : Prop :=
  ∀ (i : Instr) (s t : State), Inv s → s.fatal = false → exec i s = .next t → t.fatal = true →
    ∃ c ∈ fatalCauses i, t.cause = c.code

/-- R164: in the FATAL state a write to CMD changes nothing; reads return what they return in the same state outside
it, but for STATUS, and change nothing of the unit (the word joins the model's list `reads`, log 3); writes of DIN work as
usual; the only exit is a reset, by CTRL bit 0 or by the platform, which clears everything. -/
def Obligations.FatalStateIsLeftOnlyByReset : Prop :=
  ∀ s : State, s.fatal = true →
    (∀ w, performAccess (.write 0x0 w) s = .next s) ∧
    (∀ a, ∃ value, performAccess (.read a) s = .next { s with reads := s.reads ++ [value] } ∧
      (a = 0x3 → value = statusWord s) ∧
      (a ≠ 0x3 → value = windowRead { s with fatal := false } (windowReg a))) ∧
    (∀ w, performAccess (.write 0x1 w) s = .next { s with din := w }) ∧
    (∀ t a, performAccess a s = .next t → t.fatal = false →
      (a = .platformReset ∨ ∃ w : Word, a = .write 0x6 w ∧ w.getLsbD 0 = true) ∧
      t = { State.reset with host := s.host, reads := s.reads })

/-- R28: every piece of the unit's state after reset, and the constants. -/
def Obligations.ResetValues : Prop :=
  (∀ i, getX State.reset i = 0) ∧ (∀ i, getF State.reset i = 0) ∧
  (∀ i, getV State.reset i = .seq []) ∧ State.reset.bb = [] ∧
  State.reset.eq = false ∧ State.reset.lt = false ∧ State.reset.nores = false ∧
  State.reset.fatal = false ∧ State.reset.cause = 0 ∧ State.reset.din = 0 ∧ State.reset.dout = 0 ∧
  State.reset.cmdcnt = 0 ∧ State.reset.faultcmd = 0 ∧
  (windowRead State.reset .modulus).toNat = modulus ∧ windowRead State.reset .generator = 7 ∧
  (windowRead State.reset .rootorder).toNat = modulus - 1 ∧
  (windowRead State.reset .lmaxr).toNat = LMAX ∧ (windowRead State.reset .bmaxr).toNat = BMAX

/-- R170, R24: the platform's reset and a host write to CTRL with bit 0 set both leave the unit exactly as after
reset, from any state; a write to CTRL with bit 0 clear does nothing. -/
def Obligations.ResetFromAnyState : Prop :=
  ∀ s : State,
    performAccess .platformReset s = .next { State.reset with host := s.host, reads := s.reads } ∧
    (∀ w : Word, w.getLsbD 0 = true → performAccess (.write 0x6 w) s =
      .next { State.reset with host := s.host, reads := s.reads }) ∧
    (∀ w : Word, w.getLsbD 0 = false → performAccess (.write 0x6 w) s = .next s) ∧
    windowRead s (windowReg 0x6) = 0 ∧
    ∀ r ∈ [WindowReg.modulus, .generator, .rootorder, .lmaxr, .bmaxr],
      windowRead State.reset r = windowRead s r

/-- R31, R25, R32: what a host read of each of the sixteen words returns, and what a host write to each does. -/
def Obligations.WindowFollowsTheMap : Prop :=
  (∀ (s : State) (a : BitVec 4) (value : Word),
    (a = 0x0 ∧ value = 0) ∨ (a = 0x1 ∧ value = s.din) ∨ (a = 0x2 ∧ value = s.dout) ∨
    (a = 0x3 ∧ value = statusWord s) ∨ (a = 0x4 ∧ value = s.cmdcnt) ∨
    (a = 0x5 ∧ value = s.faultcmd) ∨ (a = 0x6 ∧ value = 0) ∨
    (a = 0x7 ∧ value = 0xFFFFFFFF00000001) ∨ (a = 0x8 ∧ value = 7) ∨
    (a = 0x9 ∧ value = 0xFFFFFFFF00000000) ∨ (a = 0xA ∧ value.toNat = LMAX) ∨
    (a = 0xB ∧ value.toNat = BMAX) ∨ (0xC ≤ a.toNat ∧ value = 0) →
    windowRead s (windowReg a) = value) ∧
  ∀ (s : State) (a : BitVec 4) (w : Word),
    (a = 0x0 → performAccess (.write a w) s = issueCommand (BitVec.ofNat 32 w.toNat) s) ∧
    (a = 0x1 → performAccess (.write a w) s = .next { s with din := w }) ∧
    (a = 0x6 → w.getLsbD 0 = true → performAccess (.write a w) s =
      .next { State.reset with host := s.host, reads := s.reads }) ∧
    (a = 0x6 → w.getLsbD 0 = false → performAccess (.write a w) s = .next s) ∧
    (a ≠ 0x0 → a ≠ 0x1 → a ≠ 0x6 → performAccess (.write a w) s = .next s)

/-- R17: the places of the fields of STATUS; every other bit is 0. -/
def Obligations.StatusWordLayout : Prop :=
  ∀ s : State, (statusWord s).toNat =
    s.eq.toNat + 2 * s.lt.toNat + 4 * s.nores.toNat + 8 * s.fatal.toNat + 256 * s.cause.toNat

/-- R28: the invariant holds after reset. -/
def Obligations.InvariantHoldsAtReset : Prop := Inv State.reset

/-- R13, R15, R20, R23, R161 to R164: every step keeps the invariant. -/
def Obligations.EveryStepKeepsTheInvariant : Prop :=
  ∀ s t : State, Inv s → step s = .next t → Inv t

/-- R11, R12, R15, R18, R19, R21, R22, R173: what a command leaves unchanged, for all 62 commands: every register
but its destination, the byte buffer, DOUT and each flag unless it is one the rules name for the command, DIN,
and the host's side of the run. -/
def Obligations.EveryCommandsFrame : Prop :=
  ∀ (i : Instr) (s t : State), exec i s = .next t →
    (∀ r, destX i ≠ some r → getX t r = getX s r) ∧
    (∀ r, destF i ≠ some r → getF t r = getF s r) ∧
    (∀ r, destV i ≠ some r → getV t r = getV s r) ∧
    (writesBuffer i = false → t.bb = s.bb) ∧
    (writesDout i = false → t.dout = s.dout) ∧
    (writesEqFlag i = false → t.eq = s.eq) ∧
    (writesLtFlag i = false → t.lt = s.lt) ∧
    (writesNoresFlag i = false → t.nores = s.nores) ∧
    t.din = s.din ∧ t.host = s.host ∧ t.reads = s.reads

/-- R165, R169: every command that reads a polynomial register holding `NONE` is fatal with USENONE, before any
other test of the command. -/
def Obligations.ReadingNoneIsFatal : Prop :=
  ∀ (i : Instr) (s : State) (r : VReg), r ∈ polySources i → getV s r = .none → endsFatal i s .useNone

/-- R166, R100, R113, R114, R125: a command other than the four sets no register to `NONE`; when one of the four
leaves its destination `NONE` it has set NORES, and else cleared it. -/
def Obligations.NoResultIsSignalled : Prop :=
  ∀ (i : Instr) (s t : State) (d : VReg), s.fatal = false → exec i s = .next t → t.fatal = false →
    destV i = some d →
    (writesNoresFlag i = false → getV t d ≠ .none) ∧
    (writesNoresFlag i = true → (t.nores = true ↔ getV t d = .none))

/-- R14: a command that is not one of those that move or keep slots leaves only present slots in its destination. -/
def Obligations.ArithmeticLeavesOnlyPresentSlots : Prop :=
  ∀ (i : Instr) (s t : State) (d : VReg), keepsSlots i = false → s.fatal = false →
    exec i s = .next t → t.fatal = false → destV i = some d → (getV t d).allPresent = true

/-- R14: no command but VMINV and VPRES tells an absent slot from a present zero: run on the state with every
absent slot filled by a present zero, it leaves the same state up to that filling. -/
def Obligations.AbsentReadsAsZero : Prop :=
  ∀ (i : Instr) (s t u : State), tellsAbsent i = false →
    exec i s = .next t → exec i (fillAbsent s) = .next u → fillAbsent u = fillAbsent t

/-! ### Data movement and byte buffer (40_host_data.md) -/

/-- R50, R56, R60: NOP, BCLR and BLEN: encoding and result. -/
def Obligations.NopBclrBlen : Prop :=
  ∀ (s : State) (d : XReg),
    spelledBy .nop (packRegs 0x00 0 0 0 0 0) ∧
    exec .nop s = .next { s with cmdcnt := s.cmdcnt + 1 } ∧
    spelledBy .bclr (packRegs 0x10 0 0 0 0 0) ∧
    exec .bclr s = .next { s with bb := [], cmdcnt := s.cmdcnt + 1 } ∧
    spelledBy (.blen d) (packRegs 0x14 d 0 0 0 0) ∧
    exec (.blen d) s = .next { s with
      x := writeReg s.x d (BitVec.ofNat 64 s.bb.length), cmdcnt := s.cmdcnt + 1 }

/-- R51, R52, R53: XLI, XLD and XOUT: encoding and result. -/
def Obligations.IntegerRegisterMoves : Prop :=
  ∀ (s : State) (d a : XReg) (imm : BitVec 16),
    spelledBy (.xli d imm) (packI16 0x01 d imm) ∧
    exec (.xli d imm) s = .next { s with
      x := writeReg s.x d (BitVec.ofNat 64 imm.toNat), cmdcnt := s.cmdcnt + 1 } ∧
    spelledBy (.xld d) (packRegs 0x02 d 0 0 0 0) ∧
    exec (.xld d) s = .next { s with x := writeReg s.x d s.din, cmdcnt := s.cmdcnt + 1 } ∧
    spelledBy (.xout a) (packRegs 0x03 0 a 0 0 0) ∧
    exec (.xout a) s = .next { s with dout := getX s a, cmdcnt := s.cmdcnt + 1 }

/-- R54, R55: FLD and FOUT: encoding and result. -/
def Obligations.FieldRegisterMovesToTheHost : Prop :=
  ∀ (s : State) (d a : FReg),
    spelledBy (.fld d) (packRegs 0x04 d 0 0 0 0) ∧
    (∃ e : Fp, e.val = s.din.toNat % modulus ∧
      e.val = (if s.din.toNat < modulus then s.din.toNat else s.din.toNat - modulus) ∧
      exec (.fld d) s = .next { s with f := writeReg s.f d e, cmdcnt := s.cmdcnt + 1 }) ∧
    spelledBy (.fout a) (packRegs 0x05 0 a 0 0 0) ∧
    ∃ w : Word, w.toNat = (getF s a).val ∧ w.toNat < modulus ∧
      exec (.fout a) s = .next { s with dout := w, cmdcnt := s.cmdcnt + 1 }

/-- R57, R58: BPUSHI and BPUSH: encoding, CAPACITY on a full buffer, result. -/
def Obligations.BytePushes : Prop :=
  ∀ (s : State) (imm : BitVec 8) (a : XReg),
    spelledBy (.bpushi imm) (packI8 0x11 imm) ∧
    (s.bb.length = BMAX → endsFatal (.bpushi imm) s .capacity) ∧
    (s.bb.length ≠ BMAX → exec (.bpushi imm) s =
      .next { s with bb := s.bb ++ [imm], cmdcnt := s.cmdcnt + 1 }) ∧
    spelledBy (.bpush a) (packRegs 0x12 0 a 0 0 0) ∧
    (s.bb.length = BMAX → endsFatal (.bpush a) s .capacity) ∧
    (s.bb.length ≠ BMAX → exec (.bpush a) s =
      .next { s with bb := s.bb ++ [BitVec.ofNat 8 (getX s a).toNat], cmdcnt := s.cmdcnt + 1 })

/-- R59: BGET: encoding, INDEX at or beyond the length, result. -/
def Obligations.BgetReadsAByte : Prop :=
  ∀ (s : State) (d a : XReg),
    spelledBy (.bget d a) (packRegs 0x13 d a 0 0 0) ∧
    (s.bb.length ≤ (getX s a).toNat → endsFatal (.bget d a) s .index) ∧
    ∀ b : Byte, s.bb[(getX s a).toNat]? = some b →
      exec (.bget d a) s = .next { s with
        x := writeReg s.x d (BitVec.ofNat 64 b.toNat), cmdcnt := s.cmdcnt + 1 }

/-! ### Field (41_field.md) -/

/-- R66, R67: FSETU and FSETS: encoding and the residue of the unsigned and the signed reading. -/
def Obligations.ConstructionFromAnInteger : Prop :=
  ∀ (s : State) (d : FReg) (a : XReg),
    spelledBy (.fsetu d a) (packRegs 0x20 d a 0 0 0) ∧
    (∃ e : Fp, e.val = (getX s a).toNat % modulus ∧
      exec (.fsetu d a) s = .next { s with f := writeReg s.f d e, cmdcnt := s.cmdcnt + 1 }) ∧
    spelledBy (.fsets d a) (packRegs 0x21 d a 0 0 0) ∧
    ∃ e : Fp, (e.val : Int) = (getX s a).toInt % (modulus : Int) ∧
      (e.val : Int) = (if 0 ≤ (getX s a).toInt then (getX s a).toInt
        else (getX s a).toInt + (modulus : Int)) ∧
      exec (.fsets d a) s = .next { s with f := writeReg s.f d e, cmdcnt := s.cmdcnt + 1 }

/-- R68 to R71: the byte buffer read as an integer, most significant byte first, is `Σ bb[k] · 256^(n−1−k)`. -/
def Obligations.ConstructionFromTheByteBuffer : Prop :=
  ∀ (s : State) (d : FReg),
    spelledBy (.fbig d) (packRegs 0x22 d 0 0 0 0) ∧ spelledBy (.fbign d) (packRegs 0x23 d 0 0 0 0) ∧
    spelledBy (.fbytes d) (packRegs 0x24 d 0 0 0 0) ∧
    spelledBy (.fsample d) (packRegs 0x25 d 0 0 0 0) ∧
    ∃ e m : Fp, e.val = intBeSum s.bb % modulus ∧
      m.val = (if intBeSum s.bb % modulus = 0 then 0 else modulus - intBeSum s.bb % modulus) ∧
      exec (.fbig d) s = .next { s with f := writeReg s.f d e, cmdcnt := s.cmdcnt + 1 } ∧
      exec (.fbign d) s = .next { s with f := writeReg s.f d m, cmdcnt := s.cmdcnt + 1 } ∧
      exec (.fbytes d) s = .next { s with f := writeReg s.f d e, cmdcnt := s.cmdcnt + 1 } ∧
      exec (.fsample d) s = .next { s with f := writeReg s.f d e, cmdcnt := s.cmdcnt + 1 }

/-- R72: FSER writes the eight bytes `f[63:56], …, f[7:0]`; FBYTES after it gives the element back. -/
def Obligations.SerialiseAndBack : Prop :=
  ∀ (s : State) (a d : FReg),
    spelledBy (.fser a) (packRegs 0x26 0 a 0 0 0) ∧
    ∃ t, t = { s with
        bb := (List.range 8).map fun k =>
          (BitVec.ofNat 64 (getF s a).val).extractLsb' (56 - 8 * k) 8,
        cmdcnt := s.cmdcnt + 1 } ∧
      exec (.fser a) s = .next t ∧
      exec (.fbytes d) t = .next { t with f := writeReg t.f d (getF s a), cmdcnt := t.cmdcnt + 1 }

/-- R73, R74: FTOX and FMOV: encoding and result. -/
def Obligations.FieldRegisterCopies : Prop :=
  ∀ (s : State) (x : XReg) (d a : FReg),
    spelledBy (.ftox x a) (packRegs 0x27 x a 0 0 0) ∧
    (∃ w : Word, w.toNat = (getF s a).val ∧
      exec (.ftox x a) s = .next { s with x := writeReg s.x x w, cmdcnt := s.cmdcnt + 1 }) ∧
    spelledBy (.fmov d a) (packRegs 0x28 d a 0 0 0) ∧
    exec (.fmov d a) s = .next { s with f := writeReg s.f d (getF s a), cmdcnt := s.cmdcnt + 1 }

/-- R75, R76, R77, with the results of the table of R65. -/
def Obligations.FieldSumDifferenceProduct : Prop :=
  ∀ (s : State) (d ra rb : FReg) (a b : Fp), getF s ra = a → getF s rb = b →
    spelledBy (.fadd d ra rb) (packRegs 0x30 d ra rb 0 0) ∧
    spelledBy (.fsub d ra rb) (packRegs 0x31 d ra rb 0 0) ∧
    spelledBy (.fmul d ra rb) (packRegs 0x32 d ra rb 0 0) ∧
    ∃ sum diff prod : Fp,
      sum.val = (if a.val + b.val < modulus then a.val + b.val else a.val + b.val - modulus) ∧
      diff.val = (if b.val ≤ a.val then a.val - b.val else a.val + modulus - b.val) ∧
      prod.val = a.val * b.val % modulus ∧
      exec (.fadd d ra rb) s = .next { s with f := writeReg s.f d sum, cmdcnt := s.cmdcnt + 1 } ∧
      exec (.fsub d ra rb) s = .next { s with f := writeReg s.f d diff, cmdcnt := s.cmdcnt + 1 } ∧
      exec (.fmul d ra rb) s = .next { s with f := writeReg s.f d prod, cmdcnt := s.cmdcnt + 1 }

/-- R78, R79: division by 0 is DIVZERO; else the result is the one `c` with `c ·p b = a`, and the one `c` with
`a ·p c = 1`. -/
def Obligations.FieldDivisionAndInverse : Prop :=
  ∀ (s : State) (d ra rb : FReg) (a b : Fp), getF s ra = a → getF s rb = b →
    spelledBy (.fdiv d ra rb) (packRegs 0x33 d ra rb 0 0) ∧
    spelledBy (.finv d ra) (packRegs 0x34 d ra 0 0 0) ∧
    (b = 0 → endsFatal (.fdiv d ra rb) s .divZero) ∧
    (b ≠ 0 → ∃ e : Fp, e.val * b.val % modulus = a.val ∧
      (∀ e' : Fp, e'.val * b.val % modulus = a.val → e' = e) ∧
      exec (.fdiv d ra rb) s = .next { s with f := writeReg s.f d e, cmdcnt := s.cmdcnt + 1 }) ∧
    (a = 0 → endsFatal (.finv d ra) s .divZero) ∧
    (a ≠ 0 → ∃ e : Fp, a.val * e.val % modulus = 1 ∧
      (∀ e' : Fp, a.val * e'.val % modulus = 1 → e' = e) ∧
      exec (.finv d ra) s = .next { s with f := writeReg s.f d e, cmdcnt := s.cmdcnt + 1 })

/-- R80, R81: FEXP and FEXPX: the power with the exponent of the byte buffer or of an integer register. -/
def Obligations.Exponentiation : Prop :=
  ∀ (s : State) (d a : FReg) (b : XReg),
    spelledBy (.fexp d a) (packRegs 0x35 d a 0 0 0) ∧
    spelledBy (.fexpx d a b) (packRegs 0x36 d a b 0 0) ∧
    ∃ e e' : Fp, e.val = (getF s a).val ^ intBeSum s.bb % modulus ∧
      e'.val = (getF s a).val ^ (getX s b).toNat % modulus ∧
      exec (.fexp d a) s = .next { s with f := writeReg s.f d e, cmdcnt := s.cmdcnt + 1 } ∧
      exec (.fexpx d a b) s = .next { s with f := writeReg s.f d e', cmdcnt := s.cmdcnt + 1 }

/-- R83: FCMP writes EQ and LT by the order of the canonical integers. -/
def Obligations.CompareFlags : Prop :=
  ∀ (s : State) (a b : FReg),
    spelledBy (.fcmp a b) (packRegs 0x37 0 a b 0 0) ∧
    ∃ eq lt : Bool, (eq = true ↔ getF s a = getF s b) ∧
      (lt = true ↔ (getF s a).val < (getF s b).val) ∧
      exec (.fcmp a b) s = .next { s with eq := eq, lt := lt, cmdcnt := s.cmdcnt + 1 }

/-- R84, R85: FRORD gives `p − 1`; FROOT is BADSIZE for a size that is 0 or does not divide `p − 1`, and else gives
`7^((p−1)/size)`, whose multiplicative order is exactly the size. -/
def Obligations.RootsOfUnity : Prop :=
  ∀ (s : State) (d : FReg) (a : XReg) (size : Nat), (getX s a).toNat = size →
    spelledBy (.frord d) (packRegs 0x38 d 0 0 0 0) ∧
    (∃ e : Fp, e.val = modulus - 1 ∧
      exec (.frord d) s = .next { s with f := writeReg s.f d e, cmdcnt := s.cmdcnt + 1 }) ∧
    spelledBy (.froot d a) (packRegs 0x39 d a 0 0 0) ∧
    (¬ size ∣ modulus - 1 → endsFatal (.froot d a) s .badSize) ∧
    (size = 0 → endsFatal (.froot d a) s .badSize) ∧
    (size ∣ modulus - 1 → ∃ e : Fp, e.val = 7 ^ ((modulus - 1) / size) % modulus ∧
      e.val ^ size % modulus = 1 ∧ (∀ k, 0 < k → k < size → e.val ^ k % modulus ≠ 1) ∧
      exec (.froot d a) s = .next { s with f := writeReg s.f d e, cmdcnt := s.cmdcnt + 1 })

/-- R88: a present zero is DIVZERO; else every present slot becomes its inverse and every absent slot a present
zero, the length kept. -/
def Obligations.BatchInversion : Prop :=
  ∀ (s : State) (d a : VReg),
    spelledBy (.vminv d a) (packRegs 0x3A d a 0 0 0) ∧ faultsOnNone (.vminv d a) s ∧
    ∀ sl, getV s a = .seq sl → sl.length ≤ LMAX →
      (.elem 0 ∈ sl → endsFatal (.vminv d a) s .divZero) ∧
      (.elem 0 ∉ sl → ∃ out, out.length = sl.length ∧
        (∀ i : Nat, sl[i]? = some .absent → out[i]? = some (.elem 0)) ∧
        (∀ (i : Nat) (e : Fp), sl[i]? = some (.elem e) →
          ∃ e' : Fp, out[i]? = some (.elem e') ∧ e.val * e'.val % modulus = 1) ∧
        exec (.vminv d a) s =
          .next { s with v := writeReg s.v d (.seq out), cmdcnt := s.cmdcnt + 1 })

/-- R87, R88: the procedure with one inversion gives, for every sequence without a present zero, what VMINV gives
slot by slot. -/
def Obligations.RunningProductProcedureAgrees : Prop :=
  ∀ sl : List Slot, .elem 0 ∉ sl → batchInverse sl = sl.map minvSlot

/-! ### Polynomial structure (42_poly_struct.md) -/

/-- R90, R91: VCLR and VPUSH: encoding, USENONE, CAPACITY, result. -/
def Obligations.ClearAndPush : Prop :=
  ∀ (s : State) (d : VReg) (a : FReg),
    spelledBy (.vclr d) (packRegs 0x40 d 0 0 0 0) ∧
    exec (.vclr d) s = .next { s with v := writeReg s.v d (.seq []), cmdcnt := s.cmdcnt + 1 } ∧
    spelledBy (.vpush d a) (packRegs 0x41 d a 0 0 0) ∧ faultsOnNone (.vpush d a) s ∧
    ∀ sl, getV s d = .seq sl →
      (sl.length = LMAX → endsFatal (.vpush d a) s .capacity) ∧
      (sl.length < LMAX → exec (.vpush d a) s = .next { s with
        v := writeReg s.v d (.seq (sl ++ [.elem (getF s a)])), cmdcnt := s.cmdcnt + 1 })

/-- R92, R95, R96: VGET, VPRES and VLEN: USENONE, INDEX, the value 0 of an absent slot, presence, length. -/
def Obligations.SlotAndLengthReads : Prop :=
  ∀ (s : State) (fd : FReg) (xd : XReg) (a : VReg) (b : XReg),
    spelledBy (.vget fd a b) (packRegs 0x42 fd a b 0 0) ∧ faultsOnNone (.vget fd a b) s ∧
    spelledBy (.vpres xd a b) (packRegs 0x45 xd a b 0 0) ∧ faultsOnNone (.vpres xd a b) s ∧
    spelledBy (.vlen xd a) (packRegs 0x46 xd a 0 0 0) ∧ faultsOnNone (.vlen xd a) s ∧
    ∀ sl, getV s a = .seq sl →
      (sl.length ≤ (getX s b).toNat →
        endsFatal (.vget fd a b) s .index ∧ endsFatal (.vpres xd a b) s .index) ∧
      (sl[(getX s b).toNat]? = some .absent →
        exec (.vget fd a b) s = .next { s with f := writeReg s.f fd 0, cmdcnt := s.cmdcnt + 1 } ∧
        exec (.vpres xd a b) s = .next { s with x := writeReg s.x xd 0, cmdcnt := s.cmdcnt + 1 }) ∧
      (∀ e : Fp, sl[(getX s b).toNat]? = some (.elem e) →
        exec (.vget fd a b) s = .next { s with f := writeReg s.f fd e, cmdcnt := s.cmdcnt + 1 } ∧
        exec (.vpres xd a b) s = .next { s with x := writeReg s.x xd 1, cmdcnt := s.cmdcnt + 1 }) ∧
      exec (.vlen xd a) s = .next { s with
        x := writeReg s.x xd (BitVec.ofNat 64 sl.length), cmdcnt := s.cmdcnt + 1 }

/-- R93, R94: VSET and VABS: USENONE, INDEX, one slot replaced. -/
def Obligations.SlotWrites : Prop :=
  ∀ (s : State) (d : VReg) (a : FReg) (b : XReg),
    spelledBy (.vset d a b) (packRegs 0x43 d a b 0 0) ∧ faultsOnNone (.vset d a b) s ∧
    spelledBy (.vabs d b) (packRegs 0x44 d 0 b 0 0) ∧ faultsOnNone (.vabs d b) s ∧
    ∀ sl, getV s d = .seq sl →
      (sl.length ≤ (getX s b).toNat →
        endsFatal (.vset d a b) s .index ∧ endsFatal (.vabs d b) s .index) ∧
      ((getX s b).toNat < sl.length →
        exec (.vset d a b) s = .next { s with
          v := writeReg s.v d (.seq (sl.set (getX s b).toNat (.elem (getF s a)))),
          cmdcnt := s.cmdcnt + 1 } ∧
        exec (.vabs d b) s = .next { s with
          v := writeReg s.v d (.seq (sl.set (getX s b).toNat .absent)), cmdcnt := s.cmdcnt + 1 })

/-- R101, R102: VPAD and VTRUNC: USENONE, LENGTH, CAPACITY in that order, result. -/
def Obligations.PaddingAndTruncation : Prop :=
  ∀ (s : State) (d a : VReg) (b : XReg) (n : Nat), (getX s b).toNat = n →
    spelledBy (.vpad d a b) (packRegs 0x47 d a b 0 0) ∧ faultsOnNone (.vpad d a b) s ∧
    spelledBy (.vtrunc d a b) (packRegs 0x48 d a b 0 0) ∧ faultsOnNone (.vtrunc d a b) s ∧
    ∀ sl, getV s a = .seq sl →
      (n < sl.length → endsFatal (.vpad d a b) s .length) ∧
      (sl.length ≤ n → LMAX < n → endsFatal (.vpad d a b) s .capacity) ∧
      (sl.length ≤ n → n ≤ LMAX → ∃ out, out.length = n ∧
        (∀ i, i < sl.length → out[i]? = sl[i]?) ∧
        (∀ i, sl.length ≤ i → i < n → out[i]? = some (.elem 0)) ∧
        exec (.vpad d a b) s =
          .next { s with v := writeReg s.v d (.seq out), cmdcnt := s.cmdcnt + 1 }) ∧
      (sl.length < n → endsFatal (.vtrunc d a b) s .length) ∧
      (n ≤ sl.length → exec (.vtrunc d a b) s =
        .next { s with v := writeReg s.v d (.seq (sl.take n)), cmdcnt := s.cmdcnt + 1 })

/-- R99: VTRIM keeps the slots below the least `n` from which on every value is 0. -/
def Obligations.TrimmingIsLeast : Prop :=
  ∀ (s : State) (d a : VReg),
    spelledBy (.vtrim d a) (packRegs 0x49 d a 0 0 0) ∧ faultsOnNone (.vtrim d a) s ∧
    ∀ sl, getV s a = .seq sl → ∃ n, n ≤ sl.length ∧
      (∀ i, n ≤ i → coeffAt (coef sl) i = 0) ∧
      (∀ m, m < n → ∃ i, m ≤ i ∧ i < sl.length ∧ coeffAt (coef sl) i ≠ 0) ∧
      exec (.vtrim d a) s =
        .next { s with v := writeReg s.v d (.seq (sl.take n)), cmdcnt := s.cmdcnt + 1 }

/-- R97, R98: VMOV and VREV: USENONE, the slots as they are, in the same and in the opposite order. -/
def Obligations.CopyAndReverse : Prop :=
  ∀ (s : State) (d a : VReg),
    spelledBy (.vmov d a) (packRegs 0x4A d a 0 0 0) ∧ faultsOnNone (.vmov d a) s ∧
    spelledBy (.vrev d a) (packRegs 0x4B d a 0 0 0) ∧ faultsOnNone (.vrev d a) s ∧
    ∀ sl, getV s a = .seq sl →
      exec (.vmov d a) s = .next { s with v := writeReg s.v d (.seq sl), cmdcnt := s.cmdcnt + 1 } ∧
      ∃ out, out.length = sl.length ∧
        (∀ i, i < sl.length → out[i]? = sl[sl.length - 1 - i]?) ∧
        exec (.vrev d a) s =
          .next { s with v := writeReg s.v d (.seq out), cmdcnt := s.cmdcnt + 1 }

/-- R100: the two integers are read signed; out of range is a no-result; else slot `k` of the result is slot
`start + k·step` of the source, `ceil((n − start)/step)` slots in all. -/
def Obligations.StridedSubslice : Prop :=
  ∀ (s : State) (d a : VReg) (b e : XReg) (start step : Int),
    (getX s b).toInt = start → (getX s e).toInt = step →
    spelledBy (.vsubsl d a b e) (packRegs 0x4C d a b e 0) ∧ faultsOnNone (.vsubsl d a b e) s ∧
    ∀ sl, getV s a = .seq sl →
      (start < 0 ∨ (sl.length : Int) ≤ start ∨ step ≤ 0 → exec (.vsubsl d a b e) s = .next { s with
        v := writeReg s.v d .none, nores := true, cmdcnt := s.cmdcnt + 1 }) ∧
      (0 ≤ start → start < (sl.length : Int) → 0 < step → ∃ out,
        (∀ k : Nat, out[k]? = sl[start.toNat + k * step.toNat]?) ∧
        (∀ k : Nat, k < out.length ↔ start.toNat + k * step.toNat < sl.length) ∧
        exec (.vsubsl d a b e) s = .next { s with
          v := writeReg s.v d (.seq out), nores := false, cmdcnt := s.cmdcnt + 1 })

/-- R103, R104, R105: VDEG, VISZ and VEQ: the degree or the all-ones word, the zero test, equality of lengths and
values. -/
def Obligations.DegreeZeroTestEquality : Prop :=
  ∀ (s : State) (d : XReg) (ra rb : VReg),
    spelledBy (.vdeg d ra) (packRegs 0x4D d ra 0 0 0) ∧ faultsOnNone (.vdeg d ra) s ∧
    spelledBy (.visz ra) (packRegs 0x4E 0 ra 0 0 0) ∧ faultsOnNone (.visz ra) s ∧
    spelledBy (.veq ra rb) (packRegs 0x4F 0 ra rb 0 0) ∧ faultsOnNone (.veq ra rb) s ∧
    ∀ a b, getV s ra = .seq a → getV s rb = .seq b →
      ((∀ i, coeffAt (coef a) i = 0) → exec (.vdeg d ra) s = .next { s with
        x := writeReg s.x d 0xFFFFFFFFFFFFFFFF, cmdcnt := s.cmdcnt + 1 }) ∧
      (∀ n, coeffAt (coef a) n ≠ 0 → (∀ i, n < i → coeffAt (coef a) i = 0) →
        exec (.vdeg d ra) s = .next { s with
          x := writeReg s.x d (BitVec.ofNat 64 n), cmdcnt := s.cmdcnt + 1 }) ∧
      ∃ z e : Bool, (z = true ↔ ∀ i, coeffAt (coef a) i = 0) ∧
        (e = true ↔ a.length = b.length ∧ ∀ i, coeffAt (coef a) i = coeffAt (coef b) i) ∧
        exec (.visz ra) s = .next { s with eq := z, cmdcnt := s.cmdcnt + 1 } ∧
        exec (.veq ra rb) s = .next { s with eq := e, cmdcnt := s.cmdcnt + 1 }

/-! ### Polynomial arithmetic (43_poly_arith.md) -/

/-- R110, R111: VADD and VSUB: slot-wise over the zero-padded union of lengths. -/
def Obligations.PolynomialSumAndDifference : Prop :=
  ∀ (s : State) (d ra rb : VReg),
    spelledBy (.vadd d ra rb) (packRegs 0x50 d ra rb 0 0) ∧ faultsOnNone (.vadd d ra rb) s ∧
    spelledBy (.vsub d ra rb) (packRegs 0x51 d ra rb 0 0) ∧ faultsOnNone (.vsub d ra rb) s ∧
    ∀ a b, getV s ra = .seq a → getV s rb = .seq b → a.length ≤ LMAX → b.length ≤ LMAX →
      ∃ sum diff : List Fp, sum.length = max a.length b.length ∧
        diff.length = max a.length b.length ∧
        (∀ i, i < max a.length b.length → (coeffAt sum i).val =
          ((coeffAt (coef a) i).val + (coeffAt (coef b) i).val) % modulus) ∧
        (∀ i, i < max a.length b.length →
          ((coeffAt diff i).val + (coeffAt (coef b) i).val) % modulus = (coeffAt (coef a) i).val) ∧
        exec (.vadd d ra rb) s =
          .next { s with v := writeReg s.v d (.seq (elems sum)), cmdcnt := s.cmdcnt + 1 } ∧
        exec (.vsub d ra rb) s =
          .next { s with v := writeReg s.v d (.seq (elems diff)), cmdcnt := s.cmdcnt + 1 }

/-- R112: VMUL: the schoolbook product, [] for an empty operand, CAPACITY when it does not fit. -/
def Obligations.PolynomialProduct : Prop :=
  ∀ (s : State) (d ra rb : VReg),
    spelledBy (.vmul d ra rb) (packRegs 0x52 d ra rb 0 0) ∧ faultsOnNone (.vmul d ra rb) s ∧
    ∀ a b, getV s ra = .seq a → getV s rb = .seq b →
      (a.length = 0 ∨ b.length = 0 → exec (.vmul d ra rb) s =
        .next { s with v := writeReg s.v d (.seq []), cmdcnt := s.cmdcnt + 1 }) ∧
      (0 < a.length → 0 < b.length → LMAX < a.length + b.length - 1 →
        endsFatal (.vmul d ra rb) s .capacity) ∧
      (0 < a.length → 0 < b.length → a.length + b.length - 1 ≤ LMAX →
        ∃ out : List Fp, out.length = a.length + b.length - 1 ∧
          (∀ k, k < out.length → (coeffAt out k).val = convSum (coef a) (coef b) k % modulus) ∧
          exec (.vmul d ra rb) s =
            .next { s with v := writeReg s.v d (.seq (elems out)), cmdcnt := s.cmdcnt + 1 })

/-- R113: the tests in their order; the quotient is the one sequence `q` of length `la − lb + 1` whose product with
the divisor agrees with the dividend at every index from `lb − 1` up. -/
def Obligations.PolynomialQuotient : Prop :=
  ∀ (s : State) (d ra rb : VReg),
    spelledBy (.vdiv d ra rb) (packRegs 0x53 d ra rb 0 0) ∧ faultsOnNone (.vdiv d ra rb) s ∧
    ∀ a b, getV s ra = .seq a → getV s rb = .seq b → a.length ≤ LMAX →
      (b.length = 0 → endsFatal (.vdiv d ra rb) s .divZero) ∧
      (a.length < b.length → exec (.vdiv d ra rb) s = .next { s with
        v := writeReg s.v d .none, nores := true, cmdcnt := s.cmdcnt + 1 }) ∧
      (0 < b.length → b.length ≤ a.length → coeffAt (coef b) (b.length - 1) = 0 →
        endsFatal (.vdiv d ra rb) s .divZero) ∧
      (0 < b.length → b.length ≤ a.length → coeffAt (coef b) (b.length - 1) ≠ 0 →
        ∃ q : List Fp, q.length = a.length - b.length + 1 ∧
          (∀ i, b.length - 1 ≤ i → i < a.length →
            convSum q (coef b) i % modulus = (coeffAt (coef a) i).val) ∧
          (∀ q' : List Fp, q'.length = a.length - b.length + 1 →
            (∀ i, b.length - 1 ≤ i → i < a.length →
              convSum q' (coef b) i % modulus = (coeffAt (coef a) i).val) → q' = q) ∧
          exec (.vdiv d ra rb) s = .next { s with
            v := writeReg s.v d (.seq (elems q)), nores := false, cmdcnt := s.cmdcnt + 1 })

/-- R114: the same tests; the remainder `r` has `lb − 1` values, and `a = q·b + r` for the quotient VDIV leaves. -/
def Obligations.PolynomialRemainder : Prop :=
  ∀ (s : State) (d ra rb : VReg),
    spelledBy (.vmod d ra rb) (packRegs 0x54 d ra rb 0 0) ∧ faultsOnNone (.vmod d ra rb) s ∧
    ∀ a b, getV s ra = .seq a → getV s rb = .seq b → a.length ≤ LMAX →
      (b.length = 0 → endsFatal (.vmod d ra rb) s .divZero) ∧
      (a.length < b.length → exec (.vmod d ra rb) s = .next { s with
        v := writeReg s.v d .none, nores := true, cmdcnt := s.cmdcnt + 1 }) ∧
      (0 < b.length → b.length ≤ a.length → coeffAt (coef b) (b.length - 1) = 0 →
        endsFatal (.vmod d ra rb) s .divZero) ∧
      (0 < b.length → b.length ≤ a.length → coeffAt (coef b) (b.length - 1) ≠ 0 →
        ∃ q r : List Fp,
          exec (.vdiv d ra rb) s = .next { s with
            v := writeReg s.v d (.seq (elems q)), nores := false, cmdcnt := s.cmdcnt + 1 } ∧
          r.length = b.length - 1 ∧
          (∀ i, i < a.length →
            (convSum q (coef b) i + (coeffAt r i).val) % modulus = (coeffAt (coef a) i).val) ∧
          exec (.vmod d ra rb) s = .next { s with
            v := writeReg s.v d (.seq (elems r)), nores := false, cmdcnt := s.cmdcnt + 1 })

/-- R115, R116, R117, R118: VSCALE, VEVAL, VEVALD and VEVALQ: scaling and the value of the polynomial at one point
and at a domain. -/
def Obligations.ScalingAndEvaluation : Prop :=
  ∀ (s : State) (d ra rb : VReg) (fd fb : FReg),
    spelledBy (.vscale d ra fb) (packRegs 0x55 d ra fb 0 0) ∧ faultsOnNone (.vscale d ra fb) s ∧
    spelledBy (.veval fd ra fb) (packRegs 0x56 fd ra fb 0 0) ∧ faultsOnNone (.veval fd ra fb) s ∧
    spelledBy (.vevald d ra rb) (packRegs 0x57 d ra rb 0 0) ∧ faultsOnNone (.vevald d ra rb) s ∧
    spelledBy (.vevalq fd ra fb) (packRegs 0x58 fd ra fb 0 0) ∧ faultsOnNone (.vevalq fd ra fb) s ∧
    ∀ a, getV s ra = .seq a → a.length ≤ LMAX →
      (∃ out : List Fp, out.length = a.length ∧
        (∀ i, i < a.length →
          (coeffAt out i).val = (coeffAt (coef a) i).val * (getF s fb).val % modulus) ∧
        exec (.vscale d ra fb) s =
          .next { s with v := writeReg s.v d (.seq (elems out)), cmdcnt := s.cmdcnt + 1 }) ∧
      (∃ e : Fp, e.val = evalSum (coef a) (getF s fb).val % modulus ∧
        exec (.veval fd ra fb) s = .next { s with f := writeReg s.f fd e, cmdcnt := s.cmdcnt + 1 } ∧
        (a.length = 4 → exec (.vevalq fd ra fb) s =
          .next { s with f := writeReg s.f fd e, cmdcnt := s.cmdcnt + 1 })) ∧
      (a.length ≠ 4 → endsFatal (.vevalq fd ra fb) s .length) ∧
      ∀ b, getV s rb = .seq b → b.length ≤ LMAX → ∃ out : List Fp, out.length = b.length ∧
        (∀ i, i < b.length → (coeffAt out i).val =
          evalSum (coef a) (coeffAt (coef b) i).val % modulus) ∧
        exec (.vevald d ra rb) s =
          .next { s with v := writeReg s.v d (.seq (elems out)), cmdcnt := s.cmdcnt + 1 }

/-- R119: the result has `n + 1` values, is monic, and at every `t` has the value `Π_i (t − a[i])`. -/
def Obligations.VanishingPolynomial : Prop :=
  ∀ (s : State) (d ra : VReg),
    spelledBy (.vzero d ra) (packRegs 0x59 d ra 0 0 0) ∧ faultsOnNone (.vzero d ra) s ∧
    ∀ a, getV s ra = .seq a →
      (LMAX < a.length + 1 → endsFatal (.vzero d ra) s .capacity) ∧
      (a.length + 1 ≤ LMAX → ∃ out : List Fp, out.length = a.length + 1 ∧
        coeffAt out a.length = 1 ∧
        (∀ t : Fp, evalSum out t.val % modulus =
          ((coef a).map fun e => t.val + (modulus - e.val)).prod % modulus) ∧
        exec (.vzero d ra) s =
          .next { s with v := writeReg s.v d (.seq (elems out)), cmdcnt := s.cmdcnt + 1 })

/-- R120: VPOW: the first n powers, CAPACITY above LMAX. -/
def Obligations.PowersOfAnElement : Prop :=
  ∀ (s : State) (d : VReg) (a : FReg) (b : XReg) (n : Nat), (getX s b).toNat = n →
    spelledBy (.vpow d a b) (packRegs 0x5B d a b 0 0) ∧
    (LMAX < n → endsFatal (.vpow d a b) s .capacity) ∧
    (n ≤ LMAX → ∃ out : List Fp, out.length = n ∧
      (∀ i, i < n → (coeffAt out i).val = (getF s a).val ^ i % modulus) ∧
      exec (.vpow d a b) s =
        .next { s with v := writeReg s.v d (.seq (elems out)), cmdcnt := s.cmdcnt + 1 })

/-- R125: lengths that differ and equal points are a no-result; else the result is the one sequence of length `n`
that takes the value `b[i]` at every point `a[i]`. -/
def Obligations.Interpolation : Prop :=
  ∀ (s : State) (d ra rb : VReg),
    spelledBy (.vinterp d ra rb) (packRegs 0x5A d ra rb 0 0) ∧ faultsOnNone (.vinterp d ra rb) s ∧
    ∀ a b, getV s ra = .seq a → getV s rb = .seq b → a.length ≤ LMAX →
      (a.length ≠ b.length ∨
        (∃ i j, i < j ∧ j < a.length ∧ coeffAt (coef a) i = coeffAt (coef a) j) →
        exec (.vinterp d ra rb) s = .next { s with
          v := writeReg s.v d .none, nores := true, cmdcnt := s.cmdcnt + 1 }) ∧
      (a.length = b.length →
        (∀ i j, i < j → j < a.length → coeffAt (coef a) i ≠ coeffAt (coef a) j) →
        ∃ out : List Fp, out.length = a.length ∧
          (∀ i, i < a.length → evalSum out (coeffAt (coef a) i).val % modulus =
            (coeffAt (coef b) i).val) ∧
          (∀ out' : List Fp, out'.length = a.length →
            (∀ i, i < a.length → evalSum out' (coeffAt (coef a) i).val % modulus =
              (coeffAt (coef b) i).val) → out' = out) ∧
          exec (.vinterp d ra rb) s = .next { s with
            v := writeReg s.v d (.seq (elems out)), nores := false, cmdcnt := s.cmdcnt + 1 })

/-- R127, as runs of the commands. VADD and VMUL commute; they associate, where the products fit; the quotient of VDIV
times the divisor plus the remainder of VMOD is the dividend; the result of VINTERP has the value `b[i]` at the point
`a[i]`; the result of VZERO has the value 0 at each of its points and their number as its degree. The laws of the
functions on sequences, of any length, are proved in Laws/PolyLaws.lean. -/
def Obligations.PolynomialRingLaws : Prop :=
  (∀ (s t : State) (d ra rb : VReg),
    (completesTo (.vadd d ra rb) s t ↔ completesTo (.vadd d rb ra) s t) ∧
    (completesTo (.vmul d ra rb) s t ↔ completesTo (.vmul d rb ra) s t)) ∧
  (∀ (s : State) (d e ra rb rc : VReg) (a b c : List Slot), d ≠ ra → d ≠ rc →
    getV s ra = .seq a → getV s rb = .seq b → getV s rc = .seq c →
    (a.length ≤ LMAX → b.length ≤ LMAX → c.length ≤ LMAX →
      ∃ t u t' u', completesTo (.vadd d ra rb) s t ∧ completesTo (.vadd e d rc) t u ∧
        completesTo (.vadd d rb rc) s t' ∧ completesTo (.vadd e ra d) t' u' ∧ getV u e = getV u' e) ∧
    (a.length + b.length - 1 ≤ LMAX → b.length + c.length - 1 ≤ LMAX →
      (0 < b.length → a.length + b.length + c.length - 2 ≤ LMAX) →
      ∃ t u t' u', completesTo (.vmul d ra rb) s t ∧ completesTo (.vmul e d rc) t u ∧
        completesTo (.vmul d rb rc) s t' ∧ completesTo (.vmul e ra d) t' u' ∧ getV u e = getV u' e)) ∧
  (∀ (s : State) (q m r e ra rb : VReg) (a b : List Slot), q ≠ ra → q ≠ rb → m ≠ ra → m ≠ rb → m ≠ r →
    getV s ra = .seq a → getV s rb = .seq b → a.length ≤ LMAX → 0 < b.length → b.length ≤ a.length →
    coeffAt (coef b) (b.length - 1) ≠ 0 →
    ∃ t₁ t₂ t₃ t₄, completesTo (.vdiv q ra rb) s t₁ ∧ completesTo (.vmul m q rb) t₁ t₂ ∧
      completesTo (.vmod r ra rb) t₂ t₃ ∧ completesTo (.vadd e m r) t₃ t₄ ∧
      getV t₄ e = .seq (elems (coef a))) ∧
  (∀ (s : State) (c ra rb : VReg) (d fb : FReg) (a b : List Slot) (i : Nat),
    getV s ra = .seq a → getV s rb = .seq b → a.length ≤ LMAX → a.length = b.length →
    (∀ j k, j < k → k < a.length → coeffAt (coef a) j ≠ coeffAt (coef a) k) →
    i < a.length → getF s fb = coeffAt (coef a) i →
    ∃ t u, completesTo (.vinterp c ra rb) s t ∧ completesTo (.veval d c fb) t u ∧
      getF u d = coeffAt (coef b) i) ∧
  (∀ (s : State) (c ra : VReg) (d fb : FReg) (x : XReg) (a : List Slot),
    getV s ra = .seq a → a.length + 1 ≤ LMAX →
    (∀ i, i < a.length → getF s fb = coeffAt (coef a) i →
      ∃ t u, completesTo (.vzero c ra) s t ∧ completesTo (.veval d c fb) t u ∧ getF u d = 0) ∧
    ∃ t u, completesTo (.vzero c ra) s t ∧ completesTo (.vdeg x c) t u ∧ (getX u x).toNat = a.length)

/-! ### Transform (44_transform.md) -/

/-- R140, R141: the tests in their order, and for a length `n ≥ 2` that is a power of two and a root that passes the
check the value `ntt(w, a)`, which has the closed form `out[j] = Σ_i a[i] · w^(i·j)`. `ntt` is the function of R140's
recursion: a length of 1 is returned unchanged, and with `even` and `odd` the transforms of the two halves under `w·w`,
`out[i] = even[i] + w^i · odd[i]` and `out[i + n/2] = even[i] − w^i · odd[i]`. -/
def Obligations.NumberTheoreticTransform : Prop :=
  (∀ (s : State) (d ra : VReg) (fb : FReg) (w : Fp), getF s fb = w →
    spelledBy (.vntt d ra fb) (packRegs 0x60 d ra fb 0 0) ∧ faultsOnNone (.vntt d ra fb) s ∧
    ∀ a, getV s ra = .seq a → a.length ≤ LMAX →
      ((∀ k, a.length ≠ 2 ^ k) → endsFatal (.vntt d ra fb) s .notPow2) ∧
      (a.length = 1 → exec (.vntt d ra fb) s =
        .next { s with v := writeReg s.v d (.seq (elems (coef a))), cmdcnt := s.cmdcnt + 1 }) ∧
      (∀ k, a.length = 2 ^ (k + 1) →
        (w.val ^ a.length % modulus ≠ 1 ∨ w.val ^ (a.length / 2) % modulus = 1 →
          endsFatal (.vntt d ra fb) s .badRoot) ∧
        (w.val ^ a.length % modulus = 1 → w.val ^ (a.length / 2) % modulus ≠ 1 →
          (∀ j, j < a.length →
            (coeffAt (ntt w (coef a)) j).val = dftSum (coef a) w.val j % modulus) ∧
          exec (.vntt d ra fb) s = .next { s with
            v := writeReg s.v d (.seq (elems (ntt w (coef a)))), cmdcnt := s.cmdcnt + 1 }))) ∧
  (∀ (w : Fp) (c : List Fp), c.length = 1 → ntt w c = c) ∧
  ∀ (w : Fp) (c even odd : List Fp) (k : Nat), c.length = 2 ^ (k + 1) →
    even = ntt (Fp.mul w w) ((List.range (2 ^ k)).map fun j => coeffAt c (2 * j)) →
    odd = ntt (Fp.mul w w) ((List.range (2 ^ k)).map fun j => coeffAt c (2 * j + 1)) →
    (ntt w c).length = 2 ^ (k + 1) ∧ ∀ i, i < 2 ^ k →
      (coeffAt (ntt w c) i).val = ((coeffAt even i).val + w.val ^ i * (coeffAt odd i).val) % modulus ∧
      ((coeffAt (ntt w c) (i + 2 ^ k)).val + w.val ^ i * (coeffAt odd i).val) % modulus =
        (coeffAt even i).val

/-- R142: the same tests; the result is the sequence whose forward transform is the source, and
`n · out[j] = Σ_i a[i] · w^(−i·j)`, the exponent written `i·(n − j)` since `w^n = 1`. -/
def Obligations.InverseTransform : Prop :=
  ∀ (s : State) (d ra : VReg) (fb : FReg) (w : Fp), getF s fb = w →
    spelledBy (.vintt d ra fb) (packRegs 0x61 d ra fb 0 0) ∧ faultsOnNone (.vintt d ra fb) s ∧
    ∀ a, getV s ra = .seq a → a.length ≤ LMAX →
      ((∀ k, a.length ≠ 2 ^ k) → endsFatal (.vintt d ra fb) s .notPow2) ∧
      (a.length = 1 → exec (.vintt d ra fb) s =
        .next { s with v := writeReg s.v d (.seq (elems (coef a))), cmdcnt := s.cmdcnt + 1 }) ∧
      (∀ k, a.length = 2 ^ (k + 1) →
        (w.val ^ a.length % modulus ≠ 1 ∨ w.val ^ (a.length / 2) % modulus = 1 →
          endsFatal (.vintt d ra fb) s .badRoot) ∧
        (w.val ^ a.length % modulus = 1 → w.val ^ (a.length / 2) % modulus ≠ 1 →
          ∃ out : List Fp, out.length = a.length ∧
            (∀ j, j < a.length → a.length * (coeffAt out j).val % modulus =
              dftSum (coef a) w.val (a.length - j) % modulus) ∧
            (∀ j, j < a.length → dftSum out w.val j % modulus = (coeffAt (coef a) j).val) ∧
            exec (.vintt d ra fb) s =
              .next { s with v := writeReg s.v d (.seq (elems out)), cmdcnt := s.cmdcnt + 1 }))

/-- R144: for every length that is a power of two and every primitive root of it, VINTT after VNTT gives the values
back, and VNTT after VINTT does; all four commands complete. -/
def Obligations.TransformsAreMutualInverses : Prop :=
  ∀ (s : State) (d e ra : VReg) (fb : FReg) (a : List Slot) (k : Nat),
    getV s ra = .seq a → a.length ≤ LMAX → a.length = 2 ^ k →
    (a.length ≠ 1 → (getF s fb).val ^ a.length % modulus = 1 ∧
      (getF s fb).val ^ (a.length / 2) % modulus ≠ 1) →
    (∃ t u, completesTo (.vntt d ra fb) s t ∧ completesTo (.vintt e d fb) t u ∧
      getV u e = .seq (elems (coef a))) ∧
    ∃ t u, completesTo (.vintt d ra fb) s t ∧ completesTo (.vntt e d fb) t u ∧
      getV u e = .seq (elems (coef a))

/-- R143: the root is validated first; the fallback has the result and the faults of VMUL; the transform path has
its tests in their order and leaves the first `D + 1` coefficients of the schoolbook product. -/
def Obligations.FastMultiplication : Prop :=
  ∀ (s : State) (d ra rb : VReg) (fc fe : FReg) (w : Fp) (ord : Nat),
    getF s fc = w → (getF s fe).val = ord →
    spelledBy (.vfmul d ra rb fc fe) (packRegs 0x62 d ra rb fc fe) ∧
    faultsOnNone (.vfmul d ra rb fc fe) s ∧
    ∀ a b, getV s ra = .seq a → getV s rb = .seq b →
      (w.val ^ ord % modulus ≠ 1 → endsFatal (.vfmul d ra rb fc fe) s .badRoot) ∧
      (w.val ^ ord % modulus = 1 →
        deg (coef a) = none ∨ deg (coef b) = none ∨
          (∃ da db, deg (coef a) = some da ∧ deg (coef b) = some db ∧ da + db < 8) →
        (∀ cause, endsFatal (.vmul d ra rb) s cause → endsFatal (.vfmul d ra rb fc fe) s cause) ∧
        (∀ t, exec (.vmul d ra rb) s = .next t → (∀ cause, ¬ endsFatal (.vmul d ra rb) s cause) →
          exec (.vfmul d ra rb fc fe) s = .next t)) ∧
      (∀ da db m : Nat, w.val ^ ord % modulus = 1 →
        deg (coef a) = some da → deg (coef b) = some db → 8 ≤ da + db →
        da + db + 1 ≤ 2 ^ m → 2 ^ m < 2 * (da + db + 1) →
        (ord % 2 ^ m ≠ 0 → endsFatal (.vfmul d ra rb fc fe) s .badSize) ∧
        (ord % 2 ^ m = 0 → (w.val ^ (ord / 2 ^ m)) ^ (2 ^ m / 2) % modulus = 1 →
          endsFatal (.vfmul d ra rb fc fe) s .badRoot) ∧
        (ord % 2 ^ m = 0 → (w.val ^ (ord / 2 ^ m)) ^ (2 ^ m / 2) % modulus ≠ 1 →
          (LMAX < da + db + 1 → endsFatal (.vfmul d ra rb fc fe) s .capacity) ∧
          (da + db + 1 ≤ LMAX → ∃ out : List Fp, out.length = da + db + 1 ∧
            (∀ k, k < out.length →
              (coeffAt out k).val = convSum (coef a) (coef b) k % modulus) ∧
            exec (.vfmul d ra rb fc fe) s = .next { s with
              v := writeReg s.v d (.seq (elems out)), cmdcnt := s.cmdcnt + 1 })))

/-- R144, R143's first corner case: where VFMUL and VMUL both give a result the two are the same polynomial, and their
lengths differ exactly on the transform path with an operand that has trailing zeros. -/
def Obligations.FastAndSchoolbookProductsAgree : Prop :=
  ∀ (s t u : State) (d ra rb : VReg) (fc fe : FReg) (a b : List Slot),
    getV s ra = .seq a → getV s rb = .seq b →
    exec (.vfmul d ra rb fc fe) s = .next t → t.fatal = false →
    exec (.vmul d ra rb) s = .next u → u.fatal = false →
    ∃ x y : List Fp, getV t d = .seq (elems x) ∧ getV u d = .seq (elems y) ∧
      (∀ i, coeffAt x i = coeffAt y i) ∧
      (x.length ≠ y.length ↔ ∃ da db, deg (coef a) = some da ∧ deg (coef b) = some db ∧
        8 ≤ da + db ∧ (da + 1 < a.length ∨ db + 1 < b.length))
end

