-- ==== Sys2Proof/Laws/Config.lean ====
section
/-! SUPPORT. What is provable of the open parameters: the bounds of 00_scope.md R3, and nothing else. -/

namespace Sys2Proof

theorem LMAX_eq_pow : LMAX = 2 ^ (4 + Config.lmaxChoice.val) := by
  have h : 2 ^ 4 ≤ 2 ^ (4 + Config.lmaxChoice.val) := Nat.pow_le_pow_right (by decide) (by omega)
  unfold LMAX
  omega

theorem sixteen_le_LMAX : 16 ≤ LMAX := Nat.le_add_left 16 _

theorem LMAX_le : LMAX ≤ 2 ^ 32 := by
  rw [LMAX_eq_pow]
  exact Nat.pow_le_pow_right (by decide) (by have := Config.lmaxChoice.isLt; omega)

theorem LMAX_lt_word : LMAX < 2 ^ 64 := Nat.lt_of_le_of_lt LMAX_le (by decide)

theorem LMAX_lt_modulus : LMAX < modulus := Nat.lt_of_le_of_lt LMAX_le (by decide)

theorem eight_le_BMAX : 8 ≤ BMAX := Nat.le_add_left 8 _

theorem BMAX_lt : BMAX < 2 ^ 32 := by
  have := Config.bmaxChoice.isLt
  unfold BMAX
  omega

end Sys2Proof
end

