-- ==== Sys2Proof/Laws/State.lean ====
section
/-! SUPPORT. One lemma per field of State per update: what the update leaves in the field. -/

namespace Sys2Proof.Machine

/-! ### setX -/

@[simp] theorem setX_x (s : State) (i : XReg) (w : Word) :
    (setX s i w).x = writeReg s.x i w := rfl
@[simp] theorem setX_f (s : State) (i : XReg) (w : Word) :
    (setX s i w).f = s.f := rfl
@[simp] theorem setX_v (s : State) (i : XReg) (w : Word) :
    (setX s i w).v = s.v := rfl
@[simp] theorem setX_bb (s : State) (i : XReg) (w : Word) :
    (setX s i w).bb = s.bb := rfl
@[simp] theorem setX_eq (s : State) (i : XReg) (w : Word) :
    (setX s i w).eq = s.eq := rfl
@[simp] theorem setX_lt (s : State) (i : XReg) (w : Word) :
    (setX s i w).lt = s.lt := rfl
@[simp] theorem setX_nores (s : State) (i : XReg) (w : Word) :
    (setX s i w).nores = s.nores := rfl
@[simp] theorem setX_fatal (s : State) (i : XReg) (w : Word) :
    (setX s i w).fatal = s.fatal := rfl
@[simp] theorem setX_cause (s : State) (i : XReg) (w : Word) :
    (setX s i w).cause = s.cause := rfl
@[simp] theorem setX_din (s : State) (i : XReg) (w : Word) :
    (setX s i w).din = s.din := rfl
@[simp] theorem setX_dout (s : State) (i : XReg) (w : Word) :
    (setX s i w).dout = s.dout := rfl
@[simp] theorem setX_cmdcnt (s : State) (i : XReg) (w : Word) :
    (setX s i w).cmdcnt = s.cmdcnt := rfl
@[simp] theorem setX_faultcmd (s : State) (i : XReg) (w : Word) :
    (setX s i w).faultcmd = s.faultcmd := rfl
@[simp] theorem setX_host (s : State) (i : XReg) (w : Word) :
    (setX s i w).host = s.host := rfl
@[simp] theorem setX_reads (s : State) (i : XReg) (w : Word) :
    (setX s i w).reads = s.reads := rfl

/-! ### setF -/

@[simp] theorem setF_x (s : State) (i : FReg) (a : Fp) :
    (setF s i a).x = s.x := rfl
@[simp] theorem setF_f (s : State) (i : FReg) (a : Fp) :
    (setF s i a).f = writeReg s.f i a := rfl
@[simp] theorem setF_v (s : State) (i : FReg) (a : Fp) :
    (setF s i a).v = s.v := rfl
@[simp] theorem setF_bb (s : State) (i : FReg) (a : Fp) :
    (setF s i a).bb = s.bb := rfl
@[simp] theorem setF_eq (s : State) (i : FReg) (a : Fp) :
    (setF s i a).eq = s.eq := rfl
@[simp] theorem setF_lt (s : State) (i : FReg) (a : Fp) :
    (setF s i a).lt = s.lt := rfl
@[simp] theorem setF_nores (s : State) (i : FReg) (a : Fp) :
    (setF s i a).nores = s.nores := rfl
@[simp] theorem setF_fatal (s : State) (i : FReg) (a : Fp) :
    (setF s i a).fatal = s.fatal := rfl
@[simp] theorem setF_cause (s : State) (i : FReg) (a : Fp) :
    (setF s i a).cause = s.cause := rfl
@[simp] theorem setF_din (s : State) (i : FReg) (a : Fp) :
    (setF s i a).din = s.din := rfl
@[simp] theorem setF_dout (s : State) (i : FReg) (a : Fp) :
    (setF s i a).dout = s.dout := rfl
@[simp] theorem setF_cmdcnt (s : State) (i : FReg) (a : Fp) :
    (setF s i a).cmdcnt = s.cmdcnt := rfl
@[simp] theorem setF_faultcmd (s : State) (i : FReg) (a : Fp) :
    (setF s i a).faultcmd = s.faultcmd := rfl
@[simp] theorem setF_host (s : State) (i : FReg) (a : Fp) :
    (setF s i a).host = s.host := rfl
@[simp] theorem setF_reads (s : State) (i : FReg) (a : Fp) :
    (setF s i a).reads = s.reads := rfl

/-! ### setV -/

@[simp] theorem setV_x (s : State) (i : VReg) (p : PolyVal) :
    (setV s i p).x = s.x := rfl
@[simp] theorem setV_f (s : State) (i : VReg) (p : PolyVal) :
    (setV s i p).f = s.f := rfl
@[simp] theorem setV_v (s : State) (i : VReg) (p : PolyVal) :
    (setV s i p).v = writeReg s.v i p := rfl
@[simp] theorem setV_bb (s : State) (i : VReg) (p : PolyVal) :
    (setV s i p).bb = s.bb := rfl
@[simp] theorem setV_eq (s : State) (i : VReg) (p : PolyVal) :
    (setV s i p).eq = s.eq := rfl
@[simp] theorem setV_lt (s : State) (i : VReg) (p : PolyVal) :
    (setV s i p).lt = s.lt := rfl
@[simp] theorem setV_nores (s : State) (i : VReg) (p : PolyVal) :
    (setV s i p).nores = s.nores := rfl
@[simp] theorem setV_fatal (s : State) (i : VReg) (p : PolyVal) :
    (setV s i p).fatal = s.fatal := rfl
@[simp] theorem setV_cause (s : State) (i : VReg) (p : PolyVal) :
    (setV s i p).cause = s.cause := rfl
@[simp] theorem setV_din (s : State) (i : VReg) (p : PolyVal) :
    (setV s i p).din = s.din := rfl
@[simp] theorem setV_dout (s : State) (i : VReg) (p : PolyVal) :
    (setV s i p).dout = s.dout := rfl
@[simp] theorem setV_cmdcnt (s : State) (i : VReg) (p : PolyVal) :
    (setV s i p).cmdcnt = s.cmdcnt := rfl
@[simp] theorem setV_faultcmd (s : State) (i : VReg) (p : PolyVal) :
    (setV s i p).faultcmd = s.faultcmd := rfl
@[simp] theorem setV_host (s : State) (i : VReg) (p : PolyVal) :
    (setV s i p).host = s.host := rfl
@[simp] theorem setV_reads (s : State) (i : VReg) (p : PolyVal) :
    (setV s i p).reads = s.reads := rfl

/-! ### compareFlags -/

@[simp] theorem compareFlags_x (s : State) (a b : Fp) :
    (compareFlags s a b).x = s.x := rfl
@[simp] theorem compareFlags_f (s : State) (a b : Fp) :
    (compareFlags s a b).f = s.f := rfl
@[simp] theorem compareFlags_v (s : State) (a b : Fp) :
    (compareFlags s a b).v = s.v := rfl
@[simp] theorem compareFlags_bb (s : State) (a b : Fp) :
    (compareFlags s a b).bb = s.bb := rfl
@[simp] theorem compareFlags_eq (s : State) (a b : Fp) :
    (compareFlags s a b).eq = (a == b) := rfl
@[simp] theorem compareFlags_lt (s : State) (a b : Fp) :
    (compareFlags s a b).lt = decide (a.val < b.val) := rfl
@[simp] theorem compareFlags_nores (s : State) (a b : Fp) :
    (compareFlags s a b).nores = s.nores := rfl
@[simp] theorem compareFlags_fatal (s : State) (a b : Fp) :
    (compareFlags s a b).fatal = s.fatal := rfl
@[simp] theorem compareFlags_cause (s : State) (a b : Fp) :
    (compareFlags s a b).cause = s.cause := rfl
@[simp] theorem compareFlags_din (s : State) (a b : Fp) :
    (compareFlags s a b).din = s.din := rfl
@[simp] theorem compareFlags_dout (s : State) (a b : Fp) :
    (compareFlags s a b).dout = s.dout := rfl
@[simp] theorem compareFlags_cmdcnt (s : State) (a b : Fp) :
    (compareFlags s a b).cmdcnt = s.cmdcnt := rfl
@[simp] theorem compareFlags_faultcmd (s : State) (a b : Fp) :
    (compareFlags s a b).faultcmd = s.faultcmd := rfl
@[simp] theorem compareFlags_host (s : State) (a b : Fp) :
    (compareFlags s a b).host = s.host := rfl
@[simp] theorem compareFlags_reads (s : State) (a b : Fp) :
    (compareFlags s a b).reads = s.reads := rfl

/-! ### writeEq -/

@[simp] theorem writeEq_x (s : State) (b : Bool) :
    (writeEq s b).x = s.x := rfl
@[simp] theorem writeEq_f (s : State) (b : Bool) :
    (writeEq s b).f = s.f := rfl
@[simp] theorem writeEq_v (s : State) (b : Bool) :
    (writeEq s b).v = s.v := rfl
@[simp] theorem writeEq_bb (s : State) (b : Bool) :
    (writeEq s b).bb = s.bb := rfl
@[simp] theorem writeEq_eq (s : State) (b : Bool) :
    (writeEq s b).eq = b := rfl
@[simp] theorem writeEq_lt (s : State) (b : Bool) :
    (writeEq s b).lt = s.lt := rfl
@[simp] theorem writeEq_nores (s : State) (b : Bool) :
    (writeEq s b).nores = s.nores := rfl
@[simp] theorem writeEq_fatal (s : State) (b : Bool) :
    (writeEq s b).fatal = s.fatal := rfl
@[simp] theorem writeEq_cause (s : State) (b : Bool) :
    (writeEq s b).cause = s.cause := rfl
@[simp] theorem writeEq_din (s : State) (b : Bool) :
    (writeEq s b).din = s.din := rfl
@[simp] theorem writeEq_dout (s : State) (b : Bool) :
    (writeEq s b).dout = s.dout := rfl
@[simp] theorem writeEq_cmdcnt (s : State) (b : Bool) :
    (writeEq s b).cmdcnt = s.cmdcnt := rfl
@[simp] theorem writeEq_faultcmd (s : State) (b : Bool) :
    (writeEq s b).faultcmd = s.faultcmd := rfl
@[simp] theorem writeEq_host (s : State) (b : Bool) :
    (writeEq s b).host = s.host := rfl
@[simp] theorem writeEq_reads (s : State) (b : Bool) :
    (writeEq s b).reads = s.reads := rfl

/-! ### writeNores -/

@[simp] theorem writeNores_x (s : State) (b : Bool) :
    (writeNores s b).x = s.x := rfl
@[simp] theorem writeNores_f (s : State) (b : Bool) :
    (writeNores s b).f = s.f := rfl
@[simp] theorem writeNores_v (s : State) (b : Bool) :
    (writeNores s b).v = s.v := rfl
@[simp] theorem writeNores_bb (s : State) (b : Bool) :
    (writeNores s b).bb = s.bb := rfl
@[simp] theorem writeNores_eq (s : State) (b : Bool) :
    (writeNores s b).eq = s.eq := rfl
@[simp] theorem writeNores_lt (s : State) (b : Bool) :
    (writeNores s b).lt = s.lt := rfl
@[simp] theorem writeNores_nores (s : State) (b : Bool) :
    (writeNores s b).nores = b := rfl
@[simp] theorem writeNores_fatal (s : State) (b : Bool) :
    (writeNores s b).fatal = s.fatal := rfl
@[simp] theorem writeNores_cause (s : State) (b : Bool) :
    (writeNores s b).cause = s.cause := rfl
@[simp] theorem writeNores_din (s : State) (b : Bool) :
    (writeNores s b).din = s.din := rfl
@[simp] theorem writeNores_dout (s : State) (b : Bool) :
    (writeNores s b).dout = s.dout := rfl
@[simp] theorem writeNores_cmdcnt (s : State) (b : Bool) :
    (writeNores s b).cmdcnt = s.cmdcnt := rfl
@[simp] theorem writeNores_faultcmd (s : State) (b : Bool) :
    (writeNores s b).faultcmd = s.faultcmd := rfl
@[simp] theorem writeNores_host (s : State) (b : Bool) :
    (writeNores s b).host = s.host := rfl
@[simp] theorem writeNores_reads (s : State) (b : Bool) :
    (writeNores s b).reads = s.reads := rfl

/-! ### noResult -/

@[simp] theorem noResult_x (s : State) (d : VReg) :
    (noResult s d).x = s.x := rfl
@[simp] theorem noResult_f (s : State) (d : VReg) :
    (noResult s d).f = s.f := rfl
@[simp] theorem noResult_v (s : State) (d : VReg) :
    (noResult s d).v = writeReg s.v d .none := rfl
@[simp] theorem noResult_bb (s : State) (d : VReg) :
    (noResult s d).bb = s.bb := rfl
@[simp] theorem noResult_eq (s : State) (d : VReg) :
    (noResult s d).eq = s.eq := rfl
@[simp] theorem noResult_lt (s : State) (d : VReg) :
    (noResult s d).lt = s.lt := rfl
@[simp] theorem noResult_nores (s : State) (d : VReg) :
    (noResult s d).nores = true := rfl
@[simp] theorem noResult_fatal (s : State) (d : VReg) :
    (noResult s d).fatal = s.fatal := rfl
@[simp] theorem noResult_cause (s : State) (d : VReg) :
    (noResult s d).cause = s.cause := rfl
@[simp] theorem noResult_din (s : State) (d : VReg) :
    (noResult s d).din = s.din := rfl
@[simp] theorem noResult_dout (s : State) (d : VReg) :
    (noResult s d).dout = s.dout := rfl
@[simp] theorem noResult_cmdcnt (s : State) (d : VReg) :
    (noResult s d).cmdcnt = s.cmdcnt := rfl
@[simp] theorem noResult_faultcmd (s : State) (d : VReg) :
    (noResult s d).faultcmd = s.faultcmd := rfl
@[simp] theorem noResult_host (s : State) (d : VReg) :
    (noResult s d).host = s.host := rfl
@[simp] theorem noResult_reads (s : State) (d : VReg) :
    (noResult s d).reads = s.reads := rfl

/-! ### fatalEntry -/

@[simp] theorem fatalEntry_x (s : State) (c : Cause) (w : CmdWord) :
    (fatalEntry s c w).x = s.x := rfl
@[simp] theorem fatalEntry_f (s : State) (c : Cause) (w : CmdWord) :
    (fatalEntry s c w).f = s.f := rfl
@[simp] theorem fatalEntry_v (s : State) (c : Cause) (w : CmdWord) :
    (fatalEntry s c w).v = s.v := rfl
@[simp] theorem fatalEntry_bb (s : State) (c : Cause) (w : CmdWord) :
    (fatalEntry s c w).bb = s.bb := rfl
@[simp] theorem fatalEntry_eq (s : State) (c : Cause) (w : CmdWord) :
    (fatalEntry s c w).eq = s.eq := rfl
@[simp] theorem fatalEntry_lt (s : State) (c : Cause) (w : CmdWord) :
    (fatalEntry s c w).lt = s.lt := rfl
@[simp] theorem fatalEntry_nores (s : State) (c : Cause) (w : CmdWord) :
    (fatalEntry s c w).nores = s.nores := rfl
@[simp] theorem fatalEntry_fatal (s : State) (c : Cause) (w : CmdWord) :
    (fatalEntry s c w).fatal = true := rfl
@[simp] theorem fatalEntry_cause (s : State) (c : Cause) (w : CmdWord) :
    (fatalEntry s c w).cause = c.code := rfl
@[simp] theorem fatalEntry_din (s : State) (c : Cause) (w : CmdWord) :
    (fatalEntry s c w).din = s.din := rfl
@[simp] theorem fatalEntry_dout (s : State) (c : Cause) (w : CmdWord) :
    (fatalEntry s c w).dout = s.dout := rfl
@[simp] theorem fatalEntry_cmdcnt (s : State) (c : Cause) (w : CmdWord) :
    (fatalEntry s c w).cmdcnt = s.cmdcnt := rfl
@[simp] theorem fatalEntry_faultcmd (s : State) (c : Cause) (w : CmdWord) :
    (fatalEntry s c w).faultcmd = w.setWidth 64 := rfl
@[simp] theorem fatalEntry_host (s : State) (c : Cause) (w : CmdWord) :
    (fatalEntry s c w).host = s.host := rfl
@[simp] theorem fatalEntry_reads (s : State) (c : Cause) (w : CmdWord) :
    (fatalEntry s c w).reads = s.reads := rfl

/-! ### complete -/

@[simp] theorem complete_x (s : State) :
    (complete s).x = s.x := rfl
@[simp] theorem complete_f (s : State) :
    (complete s).f = s.f := rfl
@[simp] theorem complete_v (s : State) :
    (complete s).v = s.v := rfl
@[simp] theorem complete_bb (s : State) :
    (complete s).bb = s.bb := rfl
@[simp] theorem complete_eq (s : State) :
    (complete s).eq = s.eq := rfl
@[simp] theorem complete_lt (s : State) :
    (complete s).lt = s.lt := rfl
@[simp] theorem complete_nores (s : State) :
    (complete s).nores = s.nores := rfl
@[simp] theorem complete_fatal (s : State) :
    (complete s).fatal = s.fatal := rfl
@[simp] theorem complete_cause (s : State) :
    (complete s).cause = s.cause := rfl
@[simp] theorem complete_din (s : State) :
    (complete s).din = s.din := rfl
@[simp] theorem complete_dout (s : State) :
    (complete s).dout = s.dout := rfl
@[simp] theorem complete_cmdcnt (s : State) :
    (complete s).cmdcnt = s.cmdcnt + 1 := rfl
@[simp] theorem complete_faultcmd (s : State) :
    (complete s).faultcmd = s.faultcmd := rfl
@[simp] theorem complete_host (s : State) :
    (complete s).host = s.host := rfl
@[simp] theorem complete_reads (s : State) :
    (complete s).reads = s.reads := rfl

/-! ### recordRead -/

@[simp] theorem recordRead_x (s : State) (w : Word) :
    (recordRead s w).x = s.x := rfl
@[simp] theorem recordRead_f (s : State) (w : Word) :
    (recordRead s w).f = s.f := rfl
@[simp] theorem recordRead_v (s : State) (w : Word) :
    (recordRead s w).v = s.v := rfl
@[simp] theorem recordRead_bb (s : State) (w : Word) :
    (recordRead s w).bb = s.bb := rfl
@[simp] theorem recordRead_eq (s : State) (w : Word) :
    (recordRead s w).eq = s.eq := rfl
@[simp] theorem recordRead_lt (s : State) (w : Word) :
    (recordRead s w).lt = s.lt := rfl
@[simp] theorem recordRead_nores (s : State) (w : Word) :
    (recordRead s w).nores = s.nores := rfl
@[simp] theorem recordRead_fatal (s : State) (w : Word) :
    (recordRead s w).fatal = s.fatal := rfl
@[simp] theorem recordRead_cause (s : State) (w : Word) :
    (recordRead s w).cause = s.cause := rfl
@[simp] theorem recordRead_din (s : State) (w : Word) :
    (recordRead s w).din = s.din := rfl
@[simp] theorem recordRead_dout (s : State) (w : Word) :
    (recordRead s w).dout = s.dout := rfl
@[simp] theorem recordRead_cmdcnt (s : State) (w : Word) :
    (recordRead s w).cmdcnt = s.cmdcnt := rfl
@[simp] theorem recordRead_faultcmd (s : State) (w : Word) :
    (recordRead s w).faultcmd = s.faultcmd := rfl
@[simp] theorem recordRead_host (s : State) (w : Word) :
    (recordRead s w).host = s.host := rfl
@[simp] theorem recordRead_reads (s : State) (w : Word) :
    (recordRead s w).reads = s.reads ++ [w] := rfl

/-! ### resetUnit -/

@[simp] theorem resetUnit_x (s : State) :
    (resetUnit s).x = State.reset.x := rfl
@[simp] theorem resetUnit_f (s : State) :
    (resetUnit s).f = State.reset.f := rfl
@[simp] theorem resetUnit_v (s : State) :
    (resetUnit s).v = State.reset.v := rfl
@[simp] theorem resetUnit_bb (s : State) :
    (resetUnit s).bb = State.reset.bb := rfl
@[simp] theorem resetUnit_eq (s : State) :
    (resetUnit s).eq = State.reset.eq := rfl
@[simp] theorem resetUnit_lt (s : State) :
    (resetUnit s).lt = State.reset.lt := rfl
@[simp] theorem resetUnit_nores (s : State) :
    (resetUnit s).nores = State.reset.nores := rfl
@[simp] theorem resetUnit_fatal (s : State) :
    (resetUnit s).fatal = State.reset.fatal := rfl
@[simp] theorem resetUnit_cause (s : State) :
    (resetUnit s).cause = State.reset.cause := rfl
@[simp] theorem resetUnit_din (s : State) :
    (resetUnit s).din = State.reset.din := rfl
@[simp] theorem resetUnit_dout (s : State) :
    (resetUnit s).dout = State.reset.dout := rfl
@[simp] theorem resetUnit_cmdcnt (s : State) :
    (resetUnit s).cmdcnt = State.reset.cmdcnt := rfl
@[simp] theorem resetUnit_faultcmd (s : State) :
    (resetUnit s).faultcmd = State.reset.faultcmd := rfl
@[simp] theorem resetUnit_host (s : State) :
    (resetUnit s).host = s.host := rfl
@[simp] theorem resetUnit_reads (s : State) :
    (resetUnit s).reads = s.reads := rfl

end Sys2Proof.Machine
end

