-- ==== Sys2Proof/Laws/Ops.lean ====
section
/-! SUPPORT. What each shared operation can do, said once: register files, `use`, `result`, `noresult`,
the fatal entry and the completion of a command. -/

namespace Sys2Proof.Machine

/-! ### Register files -/

@[simp] theorem readReg_writeReg_same {α : Type} (r : RegFile α) (i : Fin 16) (a : α) :
    readReg (writeReg r i a) i = a := by
  simp [readReg, writeReg]

theorem readReg_writeReg_ne {α : Type} (r : RegFile α) {i j : Fin 16} (a : α) (h : i ≠ j) :
    readReg (writeReg r i a) j = readReg r j := by
  have h' : i.val ≠ j.val := fun e => h (Fin.ext e)
  simp [readReg, writeReg, Vector.getElem_set_ne _ _ h']

theorem readReg_writeReg {α : Type} (r : RegFile α) (i j : Fin 16) (a : α) :
    readReg (writeReg r i a) j = if i = j then a else readReg r j := by
  split
  · rename_i h; subst h; simp
  · rename_i h; exact readReg_writeReg_ne r a h

theorem regFile_ext {α : Type} {r r' : RegFile α} (h : ∀ i, readReg r i = readReg r' i) : r = r' :=
  Vector.ext fun i hi => h ⟨i, hi⟩

@[simp] theorem readReg_replicate {α : Type} (a : α) (i : Fin 16) :
    readReg (Vector.replicate 16 a) i = a := by
  simp [readReg]

@[simp] theorem getX_setX_same (s : State) (i : XReg) (w : Word) : getX (setX s i w) i = w := by
  simp [getX]

theorem getX_setX_ne (s : State) {i j : XReg} (w : Word) (h : i ≠ j) :
    getX (setX s i w) j = getX s j := by
  simp [getX, readReg_writeReg_ne _ _ h]

@[simp] theorem getF_setF_same (s : State) (i : FReg) (a : Fp) : getF (setF s i a) i = a := by
  simp [getF]

theorem getF_setF_ne (s : State) {i j : FReg} (a : Fp) (h : i ≠ j) :
    getF (setF s i a) j = getF s j := by
  simp [getF, readReg_writeReg_ne _ _ h]

@[simp] theorem getV_setV_same (s : State) (i : VReg) (p : PolyVal) : getV (setV s i p) i = p := by
  simp [getV]

theorem getV_setV_ne (s : State) {i j : VReg} (p : PolyVal) (h : i ≠ j) :
    getV (setV s i p) j = getV s j := by
  simp [getV, readReg_writeReg_ne _ _ h]

/-! ### Except -/

@[simp] theorem except_ok_bind {α β : Type} (a : α) (k : α → Except Cause β) :
    ((Except.ok a : Except Cause α) >>= k) = k a := rfl

@[simp] theorem except_error_bind {α β : Type} (c : Cause) (k : α → Except Cause β) :
    ((Except.error c : Except Cause α) >>= k) = .error c := rfl

@[simp] theorem except_pure {α : Type} (a : α) : (pure a : Except Cause α) = .ok a := rfl

/-- A sequence of operations that ends in a value ran its first operation to a value. -/
theorem except_bind_eq_ok {α β : Type} {e : Except Cause α} {k : α → Except Cause β} {b : β} :
    (e >>= k) = .ok b ↔ ∃ a, e = .ok a ∧ k a = .ok b := by
  cases e <;> simp

theorem except_bind_eq_error {α β : Type} {e : Except Cause α} {k : α → Except Cause β} {c : Cause} :
    (e >>= k) = .error c ↔ e = .error c ∨ ∃ a, e = .ok a ∧ k a = .error c := by
  cases e <;> simp

theorem raiseIf_pos {p : Prop} [Decidable p] {c : Cause} (h : p) : raiseIf p c = .error c := by
  simp [raiseIf, h]

theorem raiseIf_neg {p : Prop} [Decidable p] {c : Cause} (h : ¬p) : raiseIf p c = .ok () := by
  simp [raiseIf, h]

theorem raiseIf_eq_ok {p : Prop} [Decidable p] {c : Cause} {u : Unit} :
    raiseIf p c = .ok u ↔ ¬p := by
  by_cases h : p <;> simp [raiseIf, h]

theorem raiseIf_eq_error {p : Prop} [Decidable p] {c d : Cause} :
    raiseIf p c = .error d ↔ p ∧ c = d := by
  by_cases h : p <;> simp [raiseIf, h]

/-! ### The primitives of R7 -/

theorem useV_of_seq {s : State} {i : VReg} {sl : List Slot} (h : getV s i = .seq sl) :
    useV s i = .ok sl := by
  simp [useV, h]

theorem useV_of_none {s : State} {i : VReg} (h : getV s i = .none) :
    useV s i = .error .useNone := by
  simp [useV, h]

theorem useV_eq_ok {s : State} {i : VReg} {sl : List Slot} :
    useV s i = .ok sl ↔ getV s i = .seq sl := by
  unfold useV
  cases getV s i <;> simp

theorem useV_eq_error {s : State} {i : VReg} {c : Cause} :
    useV s i = .error c ↔ getV s i = .none ∧ c = .useNone := by
  unfold useV
  cases getV s i <;> simp [eq_comm]

theorem slotAt_eq_ok {sl : List Slot} {i : Nat} {c : Slot} : slotAt sl i = .ok c ↔ sl[i]? = some c := by
  unfold slotAt
  cases sl[i]? <;> simp

theorem slotAt_of_lt {sl : List Slot} {i : Nat} (h : i < sl.length) : slotAt sl i = .ok sl[i] := by
  simp [slotAt, h]

theorem slotAt_of_ge {sl : List Slot} {i : Nat} (h : sl.length ≤ i) : slotAt sl i = .error .index := by
  simp [slotAt, h]

theorem slotAt_eq_error {sl : List Slot} {i : Nat} {d : Cause} :
    slotAt sl i = .error d ↔ sl.length ≤ i ∧ d = .index := by
  rcases Nat.lt_or_ge i sl.length with h | h
  · simp [slotAt_of_lt h, h]
  · simp [slotAt_of_ge h, h, eq_comm]

theorem result_of_le {s : State} {d : VReg} {sl : List Slot} (h : sl.length ≤ LMAX) :
    result s d sl = .ok (setV s d (.seq sl)) := by
  simp [result, Nat.not_lt.2 h]

theorem result_of_gt {s : State} {d : VReg} {sl : List Slot} (h : LMAX < sl.length) :
    result s d sl = .error .capacity := by
  simp [result, h]

theorem result_eq_ok {s s' : State} {d : VReg} {sl : List Slot} :
    result s d sl = .ok s' ↔ sl.length ≤ LMAX ∧ s' = setV s d (.seq sl) := by
  rcases Nat.lt_or_ge LMAX sl.length with h | h
  · simp [result_of_gt h, Nat.not_le.2 h]
  · simp [result_of_le h, h, eq_comm]

theorem result_eq_error {s : State} {d : VReg} {sl : List Slot} {c : Cause} :
    result s d sl = .error c ↔ LMAX < sl.length ∧ c = .capacity := by
  rcases Nat.lt_or_ge LMAX sl.length with h | h
  · simp [result_of_gt h, h, eq_comm]
  · simp [result_of_le h, Nat.not_lt.2 h]

theorem pushByte_eq_ok {s s' : State} {b : Byte} :
    pushByte s b = .ok s' ↔ s.bb.length ≠ BMAX ∧ s' = { s with bb := s.bb ++ [b] } := by
  by_cases h : s.bb.length = BMAX <;> simp [pushByte, h, eq_comm]

theorem pushByte_eq_error {s : State} {b : Byte} {c : Cause} :
    pushByte s b = .error c ↔ s.bb.length = BMAX ∧ c = .capacity := by
  by_cases h : s.bb.length = BMAX <;> simp [pushByte, h, eq_comm]

/-! ### The end of a command -/

@[simp] theorem command_ok (i : Instr) (s s' : State) :
    command i s (.ok s') = .next (complete s') := rfl

@[simp] theorem command_error (i : Instr) (s : State) (c : Cause) :
    command i s (.error c) = .next (fatalEntry s c (encode i)) := rfl

/-- All a command can do: complete the state its rule computed, or enter the FATAL state from the state it
began in. -/
theorem command_eq_next {i : Instr} {s t : State} {r : Except Cause State} :
    command i s r = .next t ↔
      (∃ s', r = .ok s' ∧ t = complete s') ∨ (∃ c, r = .error c ∧ t = fatalEntry s c (encode i)) := by
  cases r <;> simp [eq_comm]

end Sys2Proof.Machine
end

