-- ==== Sys2Proof/Laws/Field.lean ====
section
/-! SUPPORT. The field operations: their integer values (00_scope.md R5, 41_field.md R65), the bridge to
Mathlib's `ZMod p`, and that `p` is prime (R1). -/

namespace Sys2Proof.Machine

/-! ### Integer values -/

@[simp] theorem Fp.ofNat_val (n : Nat) : (Fp.ofNat n).val = n % modulus := rfl

theorem Fp.ofNat_self (a : Fp) : Fp.ofNat a.val = a := Fin.ext (Nat.mod_eq_of_lt a.isLt)

@[simp] theorem Fp.add_val (a b : Fp) : (Fp.add a b).val = (a.val + b.val) % modulus := rfl

@[simp] theorem Fp.sub_val (a b : Fp) :
    (Fp.sub a b).val = (a.val + (modulus - b.val)) % modulus := rfl

@[simp] theorem Fp.mul_val (a b : Fp) : (Fp.mul a b).val = (a.val * b.val) % modulus := rfl

theorem Fp.ofInt_val (z : Int) : ((Fp.ofInt z).val : Int) = z % (modulus : Int) := by
  have h0 : (0 : Int) ≤ z % (modulus : Int) := Int.emod_nonneg z (by decide)
  have h1 : z % (modulus : Int) < (modulus : Int) := Int.emod_lt_of_pos z (by decide)
  have h2 : (z % (modulus : Int)).toNat < modulus := by omega
  rw [Fp.ofInt, Fp.ofNat_val, Nat.mod_eq_of_lt h2, Int.toNat_of_nonneg h0]

@[simp] theorem Fp.zero_val : (0 : Fp).val = 0 := rfl

@[simp] theorem Fp.one_val : (1 : Fp).val = 1 := rfl

theorem Fp.powLoop_val (fuel : Nat) :
    ∀ (a : Fp) (e : Nat), e < 2 ^ fuel → (Fp.powLoop fuel a e).val = a.val ^ e % modulus := by
  induction fuel with
  | zero => intro a e h; obtain rfl : e = 0 := by omega
            simp [Fp.powLoop]
  | succ n ih =>
    intro a e h
    have h2 : e / 2 < 2 ^ n := by rw [Nat.pow_succ] at h; omega
    have key : ((Fp.mul a a).val ^ (e / 2)) % modulus = a.val ^ (2 * (e / 2)) % modulus := by
      rw [Fp.mul_val, ← Nat.pow_mod, ← Nat.pow_two, ← Nat.pow_mul]
    unfold Fp.powLoop
    split
    · rename_i ho
      have he : e = 2 * (e / 2) + 1 := by omega
      rw [Fp.mul_val, ih _ _ h2, key, Nat.mul_mod, Nat.mod_mod, ← Nat.mul_mod]
      conv => rhs; rw [he, Nat.pow_succ, Nat.mul_comm]
    · rename_i ho
      have he : e = 2 * (e / 2) := by omega
      rw [ih _ _ h2, key]
      conv => rhs; rw [he]

/-- Exponentiation computes `(a^e) mod p` (R5, R82). -/
theorem Fp.pow_val (a : Fp) (e : Nat) : (Fp.pow a e).val = a.val ^ e % modulus :=
  Fp.powLoop_val _ a e Nat.lt_log2_self

/-! ### The bridge to `ZMod p` -/

/-- A field value as an element of Mathlib's ring of integers modulo `p`. -/
def Fp.toZ (a : Fp) : ZMod modulus := (a.val : ZMod modulus)

theorem Fp.toZ_inj {a b : Fp} : Fp.toZ a = Fp.toZ b ↔ a = b := by
  constructor
  · intro h
    have h' := (ZMod.natCast_eq_natCast_iff' a.val b.val modulus).1 h
    rw [Nat.mod_eq_of_lt a.isLt, Nat.mod_eq_of_lt b.isLt] at h'
    exact Fin.ext h'
  · rintro rfl; rfl

@[simp] theorem Fp.toZ_ofNat (n : Nat) : Fp.toZ (Fp.ofNat n) = (n : ZMod modulus) := by
  simp [Fp.toZ]

@[simp] theorem Fp.toZ_zero : Fp.toZ 0 = 0 := by simp [Fp.toZ]

@[simp] theorem Fp.toZ_one : Fp.toZ 1 = 1 := by simp [Fp.toZ]

@[simp] theorem Fp.toZ_add (a b : Fp) : Fp.toZ (Fp.add a b) = Fp.toZ a + Fp.toZ b := by
  simp [Fp.add, Fp.toZ]

@[simp] theorem Fp.toZ_mul (a b : Fp) : Fp.toZ (Fp.mul a b) = Fp.toZ a * Fp.toZ b := by
  simp [Fp.mul, Fp.toZ]

@[simp] theorem Fp.toZ_sub (a b : Fp) : Fp.toZ (Fp.sub a b) = Fp.toZ a - Fp.toZ b := by
  have h : b.val ≤ modulus := b.isLt.le
  rw [Fp.sub, Fp.toZ_ofNat, Nat.cast_add, Nat.cast_sub h, ZMod.natCast_self]
  simp [Fp.toZ, sub_eq_add_neg]

@[simp] theorem Fp.toZ_pow (a : Fp) (e : Nat) : Fp.toZ (Fp.pow a e) = Fp.toZ a ^ e := by
  unfold Fp.toZ
  rw [Fp.pow_val, ZMod.natCast_mod, Nat.cast_pow]

theorem Fp.toZ_surjective (z : ZMod modulus) : ∃ a : Fp, Fp.toZ a = z :=
  ⟨Fp.ofNat z.val, by simp⟩

@[simp] theorem Fp.toZ_sum (l : List Fp) : Fp.toZ (Fp.sum l) = (l.map Fp.toZ).sum := by
  induction l with
  | nil => simp [Fp.sum]
  | cons a t ih =>
    rw [List.map_cons, List.sum_cons, ← ih, ← Fp.toZ_add]
    rfl

/-! ### The modulus is prime -/

theorem prime_dvd_group_order {q : Nat} (hq : q.Prime) (h : q ∣ modulus - 1) :
    q = 2 ∨ q = 3 ∨ q = 5 ∨ q = 17 ∨ q = 257 ∨ q = 65537 := by
  have hf : modulus - 1 = 2 ^ 32 * 3 * 5 * 17 * 257 * 65537 := by decide
  rw [hf] at h
  have one {r : Nat} (hr : r.Prime) (hd : q ∣ r) : q = r := (Nat.prime_dvd_prime_iff_eq hq hr).1 hd
  rcases (hq.dvd_mul).1 h with h | h
  · rcases (hq.dvd_mul).1 h with h | h
    · rcases (hq.dvd_mul).1 h with h | h
      · rcases (hq.dvd_mul).1 h with h | h
        · rcases (hq.dvd_mul).1 h with h | h
          · exact .inl (one Nat.prime_two (hq.dvd_of_dvd_pow h))
          · exact .inr (.inl (one Nat.prime_three h))
        · exact .inr (.inr (.inl (one Nat.prime_five h)))
      · exact .inr (.inr (.inr (.inl (one (by norm_num) h))))
    · exact .inr (.inr (.inr (.inr (.inl (one (by norm_num) h)))))
  · exact .inr (.inr (.inr (.inr (.inr (one (by norm_num) h)))))

theorem generator_pow_order : Fp.pow (Fp.ofNat generator) (modulus - 1) = 1 := by decide +kernel

theorem generator_pow_half : Fp.pow (Fp.ofNat generator) ((modulus - 1) / 2) ≠ 1 := by
  decide +kernel

theorem generator_pow_third : Fp.pow (Fp.ofNat generator) ((modulus - 1) / 3) ≠ 1 := by
  decide +kernel

theorem generator_pow_fifth : Fp.pow (Fp.ofNat generator) ((modulus - 1) / 5) ≠ 1 := by
  decide +kernel

theorem generator_pow_seventeenth : Fp.pow (Fp.ofNat generator) ((modulus - 1) / 17) ≠ 1 := by
  decide +kernel

theorem generator_pow_257th : Fp.pow (Fp.ofNat generator) ((modulus - 1) / 257) ≠ 1 := by
  decide +kernel

theorem generator_pow_65537th : Fp.pow (Fp.ofNat generator) ((modulus - 1) / 65537) ≠ 1 := by
  decide +kernel

theorem generator_pow_ne_one {q : Nat} (hq : q.Prime) (h : q ∣ modulus - 1) :
    Fp.pow (Fp.ofNat generator) ((modulus - 1) / q) ≠ 1 := by
  rcases prime_dvd_group_order hq h with rfl | rfl | rfl | rfl | rfl | rfl
  · exact generator_pow_half
  · exact generator_pow_third
  · exact generator_pow_fifth
  · exact generator_pow_seventeenth
  · exact generator_pow_257th
  · exact generator_pow_65537th

/-- The modulus is prime (R1), by Lucas' criterion with the generator (R2). -/
theorem modulus_prime : Nat.Prime modulus := by
  refine lucas_primality modulus (Fp.toZ (Fp.ofNat generator)) ?_ ?_
  · rw [← Fp.toZ_pow, generator_pow_order, Fp.toZ_one]
  · intro q hq h hone
    rw [← Fp.toZ_pow, ← Fp.toZ_one, Fp.toZ_inj] at hone
    exact generator_pow_ne_one hq h hone

theorem Fp.toZ_ne_zero {a : Fp} (h : a ≠ 0) : Fp.toZ a ≠ 0 := by
  rwa [← Fp.toZ_zero, Ne, Fp.toZ_inj]

/-- The inverse command's value is the multiplicative inverse in the field (R65). -/
theorem Fp.toZ_inv (a : Fp) (h : a ≠ 0) : Fp.toZ (Fp.inv a) * Fp.toZ a = 1 := by
  have : Fact modulus.Prime := ⟨modulus_prime⟩
  have hf := ZMod.pow_card_sub_one_eq_one (Fp.toZ_ne_zero h)
  have he : modulus - 1 = (modulus - 2) + 1 := by decide
  rw [he, pow_succ] at hf
  rw [Fp.inv, Fp.toZ_pow]
  exact hf

end Sys2Proof.Machine
end

