-- ==== Sys2Proof/Laws/Poly.lean ====
section
/-! SUPPORT. The functions on sequences: lengths, entries, and the bridge to Mathlib's polynomials over
`ZMod p`. -/

namespace Sys2Proof.Machine

open Polynomial

/-! ### Slots and values -/

@[simp] theorem coef_elems (c : List Fp) : coef (elems c) = c := by
  induction c with
  | nil => rfl
  | cons a t ih => simpa [coef, elems, Slot.val] using ih

@[simp] theorem length_elems (c : List Fp) : (elems c).length = c.length := by simp [elems]

@[simp] theorem length_coef (s : List Slot) : (coef s).length = s.length := by simp [coef]

theorem coeffAt_of_lt {l : List Fp} {i : Nat} (h : i < l.length) : coeffAt l i = l[i] := by
  simp [coeffAt, h]

theorem coeffAt_of_ge {l : List Fp} {i : Nat} (h : l.length ≤ i) : coeffAt l i = 0 := by
  simp [coeffAt, h]

@[simp] theorem coeffAt_map_range (n : Nat) (g : Nat → Fp) (i : Nat) :
    coeffAt ((List.range n).map g) i = if i < n then g i else 0 := by
  rcases Nat.lt_or_ge i n with h | h
  · rw [coeffAt_of_lt (by simpa using h)]; simp [h]
  · rw [coeffAt_of_ge (by simpa using h)]; simp [Nat.not_lt.2 h]

theorem list_ext_coeffAt {a b : List Fp} (hl : a.length = b.length)
    (h : ∀ i, i < a.length → coeffAt a i = coeffAt b i) : a = b := by
  refine List.ext_getElem hl fun i h1 h2 => ?_
  have := h i h1
  rwa [coeffAt_of_lt h1, coeffAt_of_lt h2] at this

/-! ### Lengths -/

@[simp] theorem length_polyAdd (a b : List Fp) : (polyAdd a b).length = max a.length b.length := by
  simp [polyAdd]

@[simp] theorem length_polySub (a b : List Fp) : (polySub a b).length = max a.length b.length := by
  simp [polySub]

@[simp] theorem length_convolve (a b : List Fp) (n : Nat) : (convolve a b n).length = n := by
  simp [convolve]

@[simp] theorem length_polyMul (a b : List Fp) :
    (polyMul a b).length =
      if a.length = 0 ∨ b.length = 0 then 0 else a.length + b.length - 1 := by
  unfold polyMul; split <;> simp

theorem polyMul_of_empty {a b : List Fp} (h : a.length = 0 ∨ b.length = 0) : polyMul a b = [] :=
  if_pos h

theorem polyMul_of_nonempty {a b : List Fp} (h : ¬(a.length = 0 ∨ b.length = 0)) :
    polyMul a b = convolve a b (a.length + b.length - 1) := if_neg h

@[simp] theorem length_divStep (r b : List Fp) (k : Nat) (q : Fp) :
    (divStep r b k q).length = r.length := by
  simp [divStep]

@[simp] theorem length_divLoop (b : List Fp) (n : Nat) (r : List Fp) :
    (divLoop b n r).length = n := by
  induction n generalizing r with
  | zero => rfl
  | succ k ih => simp [divLoop, ih]

@[simp] theorem length_polyQuot (a b : List Fp) :
    (polyQuot a b).length = a.length - b.length + 1 := by
  simp [polyQuot]

@[simp] theorem length_polyRem (a b : List Fp) :
    (polyRem a b).length = min (b.length - 1) a.length := by
  simp [polyRem]

@[simp] theorem length_polyScale (a : List Fp) (c : Fp) : (polyScale a c).length = a.length := by
  simp [polyScale]

@[simp] theorem length_vanishStep (r : List Fp) (t : Fp) :
    (vanishStep r t).length = r.length + 1 := by
  simp [vanishStep]

theorem length_foldl_vanishStep (points : List Fp) (r : List Fp) :
    (points.foldl vanishStep r).length = r.length + points.length := by
  induction points generalizing r with
  | nil => rfl
  | cons t rest ih => simp [ih]; omega

@[simp] theorem length_vanishing (points : List Fp) :
    (vanishing points).length = points.length + 1 := by
  simp [vanishing, length_foldl_vanishStep]; omega

@[simp] theorem length_powers (t : Fp) (n : Nat) : (powers t n).length = n := by simp [powers]

@[simp] theorem length_interpolate (xs ys : List Fp) : (interpolate xs ys).length = xs.length := by
  simp [interpolate]

theorem length_nttRec (k : Nat) (w : Fp) (c : List Fp) (h : c.length = 2 ^ k) :
    (nttRec k w c).length = 2 ^ k := by
  cases k with
  | zero => simpa [nttRec] using h
  | succ k => simp [nttRec, Nat.pow_succ]; omega

@[simp] theorem length_padTo (c : List Fp) (d n : Nat) : (padTo c d n).length = n := by
  simp [padTo]

/-! ### Strided extraction -/

theorem stride_count_iff {len start step k : Nat} (hs : start < len) (hp : 0 < step) :
    k < (len - start + step - 1) / step ↔ start + k * step < len := by
  rw [Nat.lt_iff_add_one_le, Nat.le_div_iff_mul_le hp, Nat.add_mul]
  omega

theorem strided_eq_map {α : Type} [Inhabited α] (s : List α) {start step : Nat}
    (hs : start < s.length) (hp : 0 < step) :
    strided s start step =
      (List.range ((s.length - start + step - 1) / step)).map fun k => s[start + k * step]! := by
  unfold strided
  rw [← List.filterMap_eq_map]
  refine List.filterMap_congr fun k hk => ?_
  have h := (stride_count_iff hs hp).1 (List.mem_range.1 hk)
  simp [h]

theorem length_strided {α : Type} (s : List α) {start step : Nat} (hs : start < s.length)
    (hp : 0 < step) : (strided s start step).length = (s.length - start + step - 1) / step := by
  cases s with
  | nil => simp at hs
  | cons a t =>
    have : Inhabited α := ⟨a⟩
    rw [strided_eq_map _ hs hp, List.length_map, List.length_range]

theorem getElem?_strided {α : Type} (s : List α) {start step : Nat} (hs : start < s.length)
    (hp : 0 < step) (k : Nat) : (strided s start step)[k]? = s[start + k * step]? := by
  cases s with
  | nil => simp at hs
  | cons a t =>
    have : Inhabited α := ⟨a⟩
    rw [strided_eq_map _ hs hp, List.getElem?_map]
    rcases Nat.lt_or_ge k (((a :: t).length - start + step - 1) / step) with h | h
    · have h' := (stride_count_iff hs hp).1 h
      rw [List.getElem?_range h, Option.map_some, getElem!_pos (a :: t) _ h', List.getElem?_eq_getElem h']
    · have h' : (a :: t).length ≤ start + k * step :=
        Nat.not_lt.1 fun hh => Nat.not_lt.2 h ((stride_count_iff hs hp).2 hh)
      rw [List.getElem?_eq_none (by simpa using h), List.getElem?_eq_none h', Option.map_none]

/-! ### Degree -/

theorem deg_eq_none {c : List Fp} : deg c = none ↔ ∀ a ∈ c, a = 0 := by
  induction c with
  | nil => simp [deg]
  | cons a t ih =>
    unfold deg
    cases h : deg t with
    | some d =>
      have hn : ¬ ∀ x ∈ t, x = 0 := fun hh => by rw [ih.2 hh] at h; exact absurd h (by simp)
      simp only [reduceCtorEq, List.mem_cons, forall_eq_or_imp, false_iff, not_and]
      exact fun _ => hn
    | none =>
      have ht := ih.1 h
      by_cases ha : a = 0 <;> simp [ha]
      exact ht

theorem deg_eq_some {c : List Fp} {d : Nat} :
    deg c = some d ↔ coeffAt c d ≠ 0 ∧ ∀ i, d < i → coeffAt c i = 0 := by
  induction c generalizing d with
  | nil => simp [deg, coeffAt]
  | cons a t ih =>
    have hs (i : Nat) : coeffAt (a :: t) (i + 1) = coeffAt t i := by simp [coeffAt]
    have h0 : coeffAt (a :: t) 0 = a := by simp [coeffAt]
    unfold deg
    cases h : deg t with
    | some e =>
      have he := (ih (d := e)).1 h
      constructor
      · rintro hd
        obtain rfl : e + 1 = d := by simpa using hd
        refine ⟨by rw [hs]; exact he.1, fun i hi => ?_⟩
        obtain ⟨j, rfl⟩ : ∃ j, i = j + 1 := ⟨i - 1, by omega⟩
        rw [hs]; exact he.2 j (by omega)
      · rintro ⟨h1, h2⟩
        cases d with
        | zero => exact absurd (by rw [← hs]; exact h2 (e + 1) (by omega)) he.1
        | succ d =>
          have : deg t = some d := ih.2 ⟨by rw [← hs]; exact h1, fun i hi => by
            rw [← hs]; exact h2 (i + 1) (by omega)⟩
          rw [h] at this
          simpa using this
    | none =>
      have ht : ∀ i, coeffAt t i = 0 := fun i => by
        rcases Nat.lt_or_ge i t.length with hi | hi
        · rw [coeffAt_of_lt hi]; exact deg_eq_none.1 h _ (List.getElem_mem hi)
        · exact coeffAt_of_ge hi
      by_cases ha : a = 0
      · simp only [ha, ↓reduceIte, reduceCtorEq, false_iff, not_and]
        intro hd
        cases d with
        | zero => exact absurd (by simp [coeffAt]) hd
        | succ d => exact absurd (by subst ha; rw [hs]; exact ht d) hd
      · simp only [ha, ↓reduceIte, Option.some.injEq]
        constructor
        · rintro rfl
          refine ⟨by rw [h0]; exact ha, fun i hi => ?_⟩
          obtain ⟨j, rfl⟩ : ∃ j, i = j + 1 := ⟨i - 1, by omega⟩
          rw [hs]; exact ht j
        · rintro ⟨h1, -⟩
          cases d with
          | zero => rfl
          | succ d => exact absurd (by rw [hs]; exact ht d) h1

/-! ### The bridge to polynomials -/

/-- The polynomial of a sequence of values (00_scope.md R8), over Mathlib's field of integers modulo `p`. -/
noncomputable def toPoly (c : List Fp) : (ZMod modulus)[X] :=
  ∑ i ∈ Finset.range c.length, Polynomial.C (Fp.toZ (coeffAt c i)) * X ^ i

theorem coeff_toPoly (c : List Fp) (i : Nat) : (toPoly c).coeff i = Fp.toZ (coeffAt c i) := by
  rw [toPoly, finsetSum_coeff]
  simp only [coeff_C_mul_X_pow]
  rw [Finset.sum_ite_eq]
  split
  · rfl
  · rename_i h
    rw [coeffAt_of_ge (by simpa using h), Fp.toZ_zero]

theorem list_sum_map_range {M : Type} [AddCommMonoid M] (n : Nat) (g : Nat → M) :
    ((List.range n).map g).sum = ∑ i ∈ Finset.range n, g i := rfl

theorem eval_toPoly (c : List Fp) (t : Fp) : (toPoly c).eval (Fp.toZ t) = Fp.toZ (ev c t) := by
  rw [toPoly, eval_finsetSum, ev, Fp.toZ_sum, List.map_map, list_sum_map_range]
  simp

theorem toZ_convAt (a b : List Fp) (k : Nat) :
    Fp.toZ (convAt a b k) = (toPoly a * toPoly b).coeff k := by
  rw [coeff_mul, Finset.Nat.sum_antidiagonal_eq_sum_range_succ
    (fun i j => (toPoly a).coeff i * (toPoly b).coeff j), convAt, Fp.toZ_sum, List.map_map,
    list_sum_map_range]
  simp [coeff_toPoly]

theorem toZ_horner (c : List Fp) (t : Fp) : Fp.toZ (horner c t) = Fp.toZ (ev c t) := by
  have main (c : List Fp) : Fp.toZ (horner c t) =
      ∑ i ∈ Finset.range c.length, Fp.toZ (coeffAt c i) * Fp.toZ t ^ i := by
    induction c with
    | nil => simp [horner]
    | cons a r ih =>
      have h : horner (a :: r) t = Fp.add (Fp.mul (horner r t) t) a := rfl
      rw [h, Fp.toZ_add, Fp.toZ_mul, ih, List.length_cons, Finset.sum_range_succ', Finset.sum_mul]
      simp [coeffAt, pow_succ, mul_assoc]
  rw [main, ev, Fp.toZ_sum, List.map_map, list_sum_map_range]
  simp

/-- Horner's rule and the power sum give the same element (43_poly_arith.md R116). -/
theorem horner_eq_ev (c : List Fp) (t : Fp) : horner c t = ev c t := Fp.toZ_inj.1 (toZ_horner c t)

end Sys2Proof.Machine
end

