-- ==== Sys2Proof/Laws/Cmds.lean ====
section
/-! SUPPORT. What each operation shared by several commands can do, and what one host access can do, said once. -/

namespace Sys2Proof.Machine

/-- A command completes exactly when its rule computes a state, with the command counted. -/
theorem completesTo_iff {i : Instr} {s t : State} {r : Except Cause State} (h : exec i s = command i s r)
    (hc : ∀ s', r = .ok s' → s'.cmdcnt = s.cmdcnt) :
    completesTo i s t ↔ ∃ s', r = .ok s' ∧ t = complete s' := by
  rw [completesTo, h, command_eq_next]
  constructor
  · rintro ⟨h | ⟨c, -, rfl⟩, hn⟩
    · exact h
    · have hn' : s.cmdcnt = s.cmdcnt + 1 := hn
      bv_omega
  · rintro ⟨s', hr, rfl⟩
    exact ⟨.inl ⟨s', hr, rfl⟩, congrArg (· + 1) (hc s' hr)⟩

theorem mulInto_eq_ok {s s' : State} {d : VReg} {a b : List Fp} :
    mulInto s d a b = .ok s' ↔
      ((a.length = 0 ∨ b.length = 0) ∧ s' = setV s d (.seq [])) ∨
      (¬(a.length = 0 ∨ b.length = 0) ∧ a.length + b.length - 1 ≤ LMAX ∧
        s' = setV s d (.seq (elems (polyMul a b)))) := by
  rw [mulInto, result_eq_ok, length_elems, length_polyMul]
  by_cases h : a.length = 0 ∨ b.length = 0
  · rw [polyMul_of_empty h, if_pos h]; simp only [h]; simp [elems]
  · rw [if_neg h]; simp only [h]; simp

theorem mulInto_eq_error {s : State} {d : VReg} {a b : List Fp} {c : Cause} :
    mulInto s d a b = .error c ↔
      ¬(a.length = 0 ∨ b.length = 0) ∧ LMAX < a.length + b.length - 1 ∧ c = .capacity := by
  rw [mulInto, result_eq_error, length_elems, length_polyMul]
  by_cases h : a.length = 0 ∨ b.length = 0
  · rw [if_pos h]; simp only [h]; simp
  · rw [if_neg h]; simp only [h]; simp

theorem divideInto_eq_ok {s s' : State} {d : VReg} {a b : List Fp} {value : List Fp → List Fp → List Fp} :
    divideInto s d a b value = .ok s' ↔ b.length ≠ 0 ∧
      ((a.length < b.length ∧ s' = noResult s d) ∨
       (b.length ≤ a.length ∧ coeffAt b (b.length - 1) ≠ 0 ∧ (value a b).length ≤ LMAX ∧
        s' = writeNores (setV s d (.seq (elems (value a b)))) false)) := by
  unfold divideInto
  simp only [except_bind_eq_ok, raiseIf_eq_ok]
  split
  · simp_all [eq_comm]
  · simp only [except_bind_eq_ok, raiseIf_eq_ok, result_eq_ok, except_pure, Except.ok.injEq, length_elems]
    grind

theorem divideInto_eq_error {s : State} {d : VReg} {a b : List Fp} {value : List Fp → List Fp → List Fp}
    {c : Cause} :
    divideInto s d a b value = .error c ↔ (b.length = 0 ∧ c = .divZero) ∨
      (b.length ≠ 0 ∧ b.length ≤ a.length ∧
       ((coeffAt b (b.length - 1) = 0 ∧ c = .divZero) ∨
        (coeffAt b (b.length - 1) ≠ 0 ∧ LMAX < (value a b).length ∧ c = .capacity))) := by
  unfold divideInto
  simp only [except_bind_eq_error, raiseIf_eq_error, raiseIf_eq_ok]
  split
  · simp only [except_pure, reduceCtorEq]; grind
  · simp only [except_bind_eq_error, raiseIf_eq_error, raiseIf_eq_ok, result_eq_error, except_pure,
      reduceCtorEq, length_elems]
    grind

theorem transformInto_eq_ok {s s' : State} {d : VReg} {a : List Fp} {w : Fp}
    {value : Fp → List Fp → List Fp} :
    transformInto s d a w value = .ok s' ↔ isPowerOfTwo a.length = true ∧
      ((a.length = 1 ∧ s' = setV s d (.seq (elems a))) ∨
       (a.length ≠ 1 ∧ failsRootCheck w a.length = false ∧ (value w a).length ≤ LMAX ∧
        s' = setV s d (.seq (elems (value w a))))) := by
  unfold transformInto
  simp only [except_bind_eq_ok, raiseIf_eq_ok]
  have := sixteen_le_LMAX
  split
  · simp only [result_eq_ok, length_elems]; grind
  · simp only [except_bind_eq_ok, raiseIf_eq_ok, result_eq_ok, length_elems]; grind

theorem transformInto_eq_error {s : State} {d : VReg} {a : List Fp} {w : Fp}
    {value : Fp → List Fp → List Fp} {c : Cause} :
    transformInto s d a w value = .error c ↔ (isPowerOfTwo a.length = false ∧ c = .notPow2) ∨
      (isPowerOfTwo a.length = true ∧ a.length ≠ 1 ∧
       ((failsRootCheck w a.length = true ∧ c = .badRoot) ∨
        (failsRootCheck w a.length = false ∧ LMAX < (value w a).length ∧ c = .capacity))) := by
  unfold transformInto
  simp only [except_bind_eq_error, raiseIf_eq_error, raiseIf_eq_ok]
  have := sixteen_le_LMAX
  split
  · simp only [result_eq_error, length_elems]; grind
  · simp only [except_bind_eq_error, raiseIf_eq_error, raiseIf_eq_ok, result_eq_error, length_elems]; grind

theorem le_nextPowerOfTwo (m : Nat) : m ≤ nextPowerOfTwo m := by
  unfold nextPowerOfTwo
  split
  · assumption
  · have := @Nat.lt_log2_self (m - 1)
    omega

theorem fastInto_eq_ok {s s' : State} {d : VReg} {a b : List Fp} {da db : Nat} {w : Fp} {ord : Nat} :
    fastInto s d a b da db w ord = .ok s' ↔
      ∃ n r, n = nextPowerOfTwo (da + db + 1) ∧ r = Fp.pow w (ord / n) ∧ ord % n = 0 ∧
        Fp.pow r (n / 2) ≠ 1 ∧ da + db + 1 ≤ LMAX ∧
        s' = setV s d (.seq (elems (fastProduct a b da db r n))) := by
  have hl : ∀ r n, (fastProduct a b da db r n).length ≤ da + db + 1 := by
    intro r n; simp [fastProduct]
  unfold fastInto
  simp only [except_bind_eq_ok, raiseIf_eq_ok, result_eq_ok, length_elems]
  grind

theorem fastInto_eq_error {s : State} {d : VReg} {a b : List Fp} {da db : Nat} {w : Fp} {ord : Nat}
    {c : Cause} :
    fastInto s d a b da db w ord = .error c ↔
      ∃ n r, n = nextPowerOfTwo (da + db + 1) ∧ r = Fp.pow w (ord / n) ∧
        ((ord % n ≠ 0 ∧ c = .badSize) ∨ (ord % n = 0 ∧
          ((Fp.pow r (n / 2) = 1 ∧ c = .badRoot) ∨
           (Fp.pow r (n / 2) ≠ 1 ∧ LMAX < da + db + 1 ∧ c = .capacity)))) := by
  have hl : ∀ r n, (fastProduct a b da db r n).length ≤ da + db + 1 := by
    intro r n; simp [fastProduct]
  unfold fastInto
  simp only [except_bind_eq_error, raiseIf_eq_error, raiseIf_eq_ok, result_eq_error, length_elems]
  grind

/-- VFMUL takes the fallback path: an operand is zero or the degree of the product is below 8. -/
theorem fastMulInto_of_fallback {s : State} {d : VReg} {a b : List Fp} {w : Fp} {ord : Nat}
    (hw : Fp.pow w ord = 1)
    (h : deg a = none ∨ deg b = none ∨ ∃ da db, deg a = some da ∧ deg b = some db ∧ da + db < 8) :
    fastMulInto s d a b w ord = mulInto s d a b := by
  unfold fastMulInto
  rw [raiseIf_neg (by simpa using hw)]
  rcases h with h | h | ⟨da, db, ha, hb, hlt⟩
  · simp [h]
  · cases ha : deg a <;> simp [h]
  · simp [ha, hb, hlt]

/-- VFMUL takes the transform path. -/
theorem fastMulInto_of_transform {s : State} {d : VReg} {a b : List Fp} {w : Fp} {ord da db : Nat}
    (hw : Fp.pow w ord = 1) (ha : deg a = some da) (hb : deg b = some db) (h : 8 ≤ da + db) :
    fastMulInto s d a b w ord = fastInto s d a b da db w ord := by
  unfold fastMulInto
  rw [raiseIf_neg (by simpa using hw)]
  simp [ha, hb, Nat.not_lt.2 h]

theorem fastMulInto_of_badRoot {s : State} {d : VReg} {a b : List Fp} {w : Fp} {ord : Nat}
    (hw : Fp.pow w ord ≠ 1) : fastMulInto s d a b w ord = .error .badRoot := by
  simp [fastMulInto, raiseIf_pos hw]

theorem fastMulInto_cases (s : State) (d : VReg) (a b : List Fp) (w : Fp) (ord : Nat) :
    (Fp.pow w ord ≠ 1 ∧ fastMulInto s d a b w ord = .error .badRoot) ∨
    (Fp.pow w ord = 1 ∧ fastMulInto s d a b w ord = mulInto s d a b) ∨
    (∃ da db, Fp.pow w ord = 1 ∧ deg a = some da ∧ deg b = some db ∧ 8 ≤ da + db ∧
      fastMulInto s d a b w ord = fastInto s d a b da db w ord) := by
  by_cases hw : Fp.pow w ord = 1
  · right
    cases ha : deg a with
    | none => exact .inl ⟨hw, fastMulInto_of_fallback hw (.inl ha)⟩
    | some da =>
      cases hb : deg b with
      | none => exact .inl ⟨hw, fastMulInto_of_fallback hw (.inr (.inl hb))⟩
      | some db =>
        rcases Nat.lt_or_ge (da + db) 8 with h | h
        · exact .inl ⟨hw, fastMulInto_of_fallback hw (.inr (.inr ⟨da, db, ha, hb, h⟩))⟩
        · exact .inr ⟨da, db, hw, rfl, rfl, h, fastMulInto_of_transform hw ha hb h⟩
  · exact .inl ⟨hw, fastMulInto_of_badRoot hw⟩

/-! ### One step -/

theorem step_of_nil {s : State} (h : s.host = []) : step s = .next s := by
  simp [step, stepHost, h]

theorem step_of_cons {s : State} {a : HostAccess} {rest : List HostAccess} (h : s.host = a :: rest) :
    step s = performAccess a { s with host := rest } := by
  simp [step, stepHost, h]

theorem issueCommand_of_fatal {w : CmdWord} {s : State} (h : s.fatal = true) :
    issueCommand w s = .next s := by
  simp [issueCommand, h]

theorem issueCommand_of_none {w : CmdWord} {s : State} (h : s.fatal = false) (hd : decode w = none) :
    issueCommand w s = .next (fatalEntry s .illegal w) := by
  simp [issueCommand, h, hd]

theorem issueCommand_of_some {w : CmdWord} {s : State} {i : Instr} (h : s.fatal = false)
    (hd : decode w = some i) : issueCommand w s = exec i s := by
  simp [issueCommand, h, hd]

end Sys2Proof.Machine
end

