-- ==== Sys2Proof/Laws/Decode.lean ====
section
/-! SUPPORT. The fields of a packed word, one lemma per field and packing; and that a word is the packing
of its own fields. -/

namespace Sys2Proof

theorem toNat_append_eq {m n : Nat} (x : BitVec m) (y : BitVec n) :
    (x ++ y).toNat = x.toNat * 2 ^ n + y.toNat := by
  rw [BitVec.toNat_append, ← Nat.shiftLeft_add_eq_or_of_lt y.isLt, Nat.shiftLeft_eq]

theorem extract_toNat (w : CmdWord) (lo n : Nat) :
    (w.extractLsb' lo n).toNat = w.toNat / 2 ^ lo % 2 ^ n := by
  simp [BitVec.extractLsb'_toNat, Nat.shiftRight_eq_div_pow]

theorem packRegs_toNat (op : BitVec 8) (d a b c e : Fin 16) :
    (packRegs op d a b c e).toNat =
      (((((op.toNat * 16 + d) * 16 + a) * 16 + b) * 16 + c) * 16 + e) * 16 := by
  refine (toNat_append_eq _ _).trans ?_
  simp only [toNat_append_eq]
  rfl

theorem packI16_toNat (op : BitVec 8) (d : Fin 16) (imm : BitVec 16) :
    (packI16 op d imm).toNat = (op.toNat * 16 + d) * 16 * 65536 + imm.toNat := by
  refine (toNat_append_eq _ _).trans ?_
  simp only [toNat_append_eq]
  rfl

theorem packI8_toNat (op : BitVec 8) (imm : BitVec 8) :
    (packI8 op imm).toNat = op.toNat * 65536 * 256 + imm.toNat := by
  refine (toNat_append_eq _ _).trans ?_
  simp only [toNat_append_eq]
  simp

theorem regField_val (w : CmdWord) (lo : Nat) : (regField w lo).val = w.toNat / 2 ^ lo % 16 := by
  have h := extract_toNat w lo 4
  rwa [show (2 : Nat) ^ 4 = 16 from rfl] at h

theorem opField_toNat (w : CmdWord) : (opField w).toNat = w.toNat / 2 ^ 24 := by
  have h : w.toNat / 2 ^ 24 < 2 ^ 8 := by have : w.toNat < 4294967296 := w.isLt; omega
  rw [opField, extract_toNat, Nat.mod_eq_of_lt h]

theorem bitsZero_iff (w : CmdWord) (lo n : Nat) :
    bitsZero w lo n = true ↔ w.toNat / 2 ^ lo % 2 ^ n = 0 := by
  rw [← extract_toNat, bitsZero, beq_iff_eq]
  exact ⟨fun h => by rw [h]; rfl, fun h => BitVec.eq_of_toNat_eq (by rw [h]; rfl)⟩

section packed
variable (op : BitVec 8) (d a b c e : Fin 16)

@[simp] theorem opField_packRegs : opField (packRegs op d a b c e) = op := by
  apply BitVec.eq_of_toNat_eq
  rw [opField_toNat, packRegs_toNat]
  omega

@[simp] theorem rdField_packRegs : rdField (packRegs op d a b c e) = d := by
  apply Fin.ext
  rw [rdField, regField_val, packRegs_toNat]
  omega

@[simp] theorem raField_packRegs : raField (packRegs op d a b c e) = a := by
  apply Fin.ext
  rw [raField, regField_val, packRegs_toNat]
  omega

@[simp] theorem rbField_packRegs : rbField (packRegs op d a b c e) = b := by
  apply Fin.ext
  rw [rbField, regField_val, packRegs_toNat]
  omega

@[simp] theorem rcField_packRegs : rcField (packRegs op d a b c e) = c := by
  apply Fin.ext
  rw [rcField, regField_val, packRegs_toNat]
  omega

@[simp] theorem reField_packRegs : reField (packRegs op d a b c e) = e := by
  apply Fin.ext
  rw [reField, regField_val, packRegs_toNat]
  omega

theorem bitsZero_packRegs_low (n : Nat) (h : n ≤ 4) :
    bitsZero (packRegs op d a b c e) 0 n = true := by
  rw [bitsZero_iff, packRegs_toNat]
  have hd : 2 ^ n ∣ 16 := pow_dvd_pow 2 h
  rw [Nat.pow_zero, Nat.div_one]
  exact Nat.mod_eq_zero_of_dvd (Dvd.dvd.mul_left hd _)

@[simp] theorem bitsZero_packRegs_4 : bitsZero (packRegs op d a b c e) 0 4 = true :=
  bitsZero_packRegs_low op d a b c e 4 (Nat.le_refl 4)

@[simp] theorem bitsZero_packRegs_8 : bitsZero (packRegs op d a b c 0) 0 8 = true := by
  rw [bitsZero_iff, packRegs_toNat]
  omega

@[simp] theorem bitsZero_packRegs_12 : bitsZero (packRegs op d a b 0 0) 0 12 = true := by
  rw [bitsZero_iff, packRegs_toNat]
  omega

@[simp] theorem bitsZero_packRegs_16 : bitsZero (packRegs op d a 0 0 0) 0 16 = true := by
  rw [bitsZero_iff, packRegs_toNat]
  omega

@[simp] theorem bitsZero_packRegs_20 : bitsZero (packRegs op d 0 0 0 0) 0 20 = true := by
  rw [bitsZero_iff, packRegs_toNat]
  omega

@[simp] theorem bitsZero_packRegs_24 : bitsZero (packRegs op 0 0 0 0 0) 0 24 = true := by
  rw [bitsZero_iff, packRegs_toNat]
  omega

@[simp] theorem bitsZero_packRegs_rd : bitsZero (packRegs op 0 a b c e) 20 4 = true := by
  rw [bitsZero_iff, packRegs_toNat]
  omega

@[simp] theorem bitsZero_packRegs_ra : bitsZero (packRegs op d 0 b c e) 16 4 = true := by
  rw [bitsZero_iff, packRegs_toNat]
  omega

end packed

section immediates
variable (op : BitVec 8) (d : Fin 16) (imm : BitVec 16) (imm8 : BitVec 8)

@[simp] theorem opField_packI16 : opField (packI16 op d imm) = op := by
  apply BitVec.eq_of_toNat_eq
  rw [opField_toNat, packI16_toNat]
  omega

@[simp] theorem rdField_packI16 : rdField (packI16 op d imm) = d := by
  apply Fin.ext
  rw [rdField, regField_val, packI16_toNat]
  omega

@[simp] theorem imm_packI16 : (packI16 op d imm).extractLsb' 0 16 = imm := by
  apply BitVec.eq_of_toNat_eq
  rw [extract_toNat, packI16_toNat]
  omega

@[simp] theorem bitsZero_packI16 : bitsZero (packI16 op d imm) 16 4 = true := by
  rw [bitsZero_iff, packI16_toNat]
  omega

@[simp] theorem opField_packI8 : opField (packI8 op imm8) = op := by
  apply BitVec.eq_of_toNat_eq
  rw [opField_toNat, packI8_toNat]
  omega

@[simp] theorem imm_packI8 : (packI8 op imm8).extractLsb' 0 8 = imm8 := by
  apply BitVec.eq_of_toNat_eq
  rw [extract_toNat, packI8_toNat]
  omega

@[simp] theorem bitsZero_packI8 : bitsZero (packI8 op imm8) 8 16 = true := by
  rw [bitsZero_iff, packI8_toNat]
  omega

end immediates

/-- A word whose four low bits are 0 is the packing of its opcode and register fields. -/
theorem eq_packRegs_of_low_zero {w : CmdWord} (h : bitsZero w 0 4 = true) :
    w = packRegs (opField w) (rdField w) (raField w) (rbField w) (rcField w) (reField w) := by
  have hz := (bitsZero_iff w 0 4).1 h
  have hw : w.toNat < 4294967296 := w.isLt
  apply BitVec.eq_of_toNat_eq
  rw [packRegs_toNat, opField_toNat, rdField, raField, rbField, rcField, reField, regField_val,
    regField_val, regField_val, regField_val, regField_val]
  omega

theorem eq_packI16_of_zero {w : CmdWord} (h : bitsZero w 16 4 = true) :
    w = packI16 (opField w) (rdField w) (w.extractLsb' 0 16) := by
  have hz := (bitsZero_iff w 16 4).1 h
  have hw : w.toNat < 4294967296 := w.isLt
  apply BitVec.eq_of_toNat_eq
  rw [packI16_toNat, opField_toNat, rdField, regField_val, extract_toNat]
  omega

theorem eq_packI8_of_zero {w : CmdWord} (h : bitsZero w 8 16 = true) :
    w = packI8 (opField w) (w.extractLsb' 0 8) := by
  have hz := (bitsZero_iff w 8 16).1 h
  have hw : w.toNat < 4294967296 := w.isLt
  apply BitVec.eq_of_toNat_eq
  rw [packI8_toNat, opField_toNat, extract_toNat]
  omega

end Sys2Proof
end

