-- ==== Sys2Proof/Laws/Legal.lean ====
section
/-! SUPPORT. What the mask test of 30_encoding.md R42 says of a word's fields: a word spells a row when its
opcode is the row's and the bits the format does not use are 0. -/

namespace Sys2Proof

/-- The 4-bit group of a word from bit `lo` up. -/
def nibble (w : CmdWord) (lo : Nat) : BitVec 4 := w.extractLsb' lo 4

/-- A word from its opcode and its six lower 4-bit groups. -/
def packNibbles (op : BitVec 8) (n5 n4 n3 n2 n1 n0 : BitVec 4) : CmdWord :=
  op ++ n5 ++ n4 ++ n3 ++ n2 ++ n1 ++ n0

theorem packNibbles_toNat (op : BitVec 8) (n5 n4 n3 n2 n1 n0 : BitVec 4) :
    (packNibbles op n5 n4 n3 n2 n1 n0).toNat =
      (((((op.toNat * 16 + n5.toNat) * 16 + n4.toNat) * 16 + n3.toNat) * 16 + n2.toNat) * 16 +
        n1.toNat) * 16 + n0.toNat := by
  refine (toNat_append_eq _ _).trans ?_
  simp only [toNat_append_eq]
  rfl

theorem nibble_toNat (w : CmdWord) (lo : Nat) : (nibble w lo).toNat = w.toNat / 2 ^ lo % 16 := by
  have h := extract_toNat w lo 4
  rwa [show (2 : Nat) ^ 4 = 16 from rfl] at h

theorem eq_packNibbles (w : CmdWord) :
    w = packNibbles (opField w) (nibble w 20) (nibble w 16) (nibble w 12) (nibble w 8) (nibble w 4)
      (nibble w 0) := by
  have hw : w.toNat < 4294967296 := w.isLt
  apply BitVec.eq_of_toNat_eq
  rw [packNibbles_toNat, opField_toNat, nibble_toNat, nibble_toNat, nibble_toNat, nibble_toNat,
    nibble_toNat, nibble_toNat]
  omega

theorem packNibbles_inj {op op' : BitVec 8} {a b c d e f a' b' c' d' e' f' : BitVec 4} :
    packNibbles op a b c d e f = packNibbles op' a' b' c' d' e' f' ↔
      op = op' ∧ a = a' ∧ b = b' ∧ c = c' ∧ d = d' ∧ e = e' ∧ f = f' := by
  constructor
  · intro h
    have h' := congrArg BitVec.toNat h
    rw [packNibbles_toNat, packNibbles_toNat] at h'
    refine ⟨?_, ?_, ?_, ?_, ?_, ?_, ?_⟩ <;> apply BitVec.eq_of_toNat_eq <;> omega
  · rintro ⟨rfl, rfl, rfl, rfl, rfl, rfl, rfl⟩; rfl

theorem packNibbles_and (op op' : BitVec 8) (a b c d e f a' b' c' d' e' f' : BitVec 4) :
    packNibbles op a b c d e f &&& packNibbles op' a' b' c' d' e' f' =
      packNibbles (op &&& op') (a &&& a') (b &&& b') (c &&& c') (d &&& d') (e &&& e') (f &&& f') := by
  unfold packNibbles
  refine BitVec.and_append.trans ?_
  simp only [BitVec.and_append]

/-- The mask test on the opcode and the 4-bit groups of a word. -/
theorem and_mask_iff (w : CmdWord) (op : BitVec 8) (m5 m4 m3 m2 m1 m0 : BitVec 4) :
    w &&& packNibbles 0xFF m5 m4 m3 m2 m1 m0 = packNibbles op 0 0 0 0 0 0 ↔
      opField w = op ∧ nibble w 20 &&& m5 = 0 ∧ nibble w 16 &&& m4 = 0 ∧ nibble w 12 &&& m3 = 0 ∧
        nibble w 8 &&& m2 = 0 ∧ nibble w 4 &&& m1 = 0 ∧ nibble w 0 &&& m0 = 0 := by
  have h : opField w &&& 0xFF = opField w := BitVec.and_allOnes
  conv => lhs; lhs; rw [eq_packNibbles w]
  rw [packNibbles_and, packNibbles_inj, h]

theorem nibble_and_ones (w : CmdWord) (lo : Nat) :
    nibble w lo &&& 0xF = 0 ↔ w.toNat / 2 ^ lo % 16 = 0 := by
  have h : nibble w lo &&& 0xF = nibble w lo := BitVec.and_allOnes
  rw [h, ← nibble_toNat]
  exact ⟨fun e => by rw [e]; rfl, fun e => BitVec.eq_of_toNat_eq (by rw [e]; rfl)⟩

theorem nibble_and_zero (w : CmdWord) (lo : Nat) : nibble w lo &&& 0 = 0 := BitVec.and_zero

theorem spells_iff (op : BitVec 8) (fmt : Format) (w : CmdWord) :
    OpcodeRow.spells ⟨op, fmt⟩ w = true ↔ opField w = op ∧
      match fmt with
      | .z => bitsZero w 0 24 = true
      | .d => bitsZero w 0 20 = true
      | .a => bitsZero w 20 4 = true ∧ bitsZero w 0 16 = true
      | .da => bitsZero w 0 16 = true
      | .ab => bitsZero w 20 4 = true ∧ bitsZero w 0 12 = true
      | .db => bitsZero w 16 4 = true ∧ bitsZero w 0 12 = true
      | .dab => bitsZero w 0 12 = true
      | .dabc => bitsZero w 0 8 = true
      | .dabce => bitsZero w 0 4 = true
      | .i16 => bitsZero w 16 4 = true
      | .i8 => bitsZero w 8 16 = true := by
  have hop : op ++ (0 : BitVec 24) = packNibbles op 0 0 0 0 0 0 := by
    apply BitVec.eq_of_toNat_eq
    rw [packNibbles_toNat]
    refine (toNat_append_eq _ _).trans ?_
    simp only [BitVec.ofNat_eq_ofNat, BitVec.toNat_ofNat, Nat.zero_mod]
    omega
  have key (m5 m4 m3 m2 m1 m0 : BitVec 4) (h : fmt.mask = packNibbles 0xFF m5 m4 m3 m2 m1 m0) :
      OpcodeRow.spells ⟨op, fmt⟩ w = true ↔
      opField w = op ∧ nibble w 20 &&& m5 = 0 ∧ nibble w 16 &&& m4 = 0 ∧ nibble w 12 &&& m3 = 0 ∧
        nibble w 8 &&& m2 = 0 ∧ nibble w 4 &&& m1 = 0 ∧ nibble w 0 &&& m0 = 0 := by
    rw [OpcodeRow.spells, beq_iff_eq, h]
    refine Iff.trans ?_ (and_mask_iff w op m5 m4 m3 m2 m1 m0)
    rw [← hop]
  cases fmt
  case z =>
    refine (key 0xF 0xF 0xF 0xF 0xF 0xF rfl).trans (and_congr_right fun _ => ?_)
    simp only [nibble_and_ones, bitsZero_iff]
    omega
  case d =>
    refine (key 0 0xF 0xF 0xF 0xF 0xF rfl).trans (and_congr_right fun _ => ?_)
    simp only [nibble_and_ones, nibble_and_zero, true_and, bitsZero_iff]
    omega
  case a =>
    refine (key 0xF 0 0xF 0xF 0xF 0xF rfl).trans (and_congr_right fun _ => ?_)
    simp only [nibble_and_ones, nibble_and_zero, true_and, bitsZero_iff]
    omega
  case da =>
    refine (key 0 0 0xF 0xF 0xF 0xF rfl).trans (and_congr_right fun _ => ?_)
    simp only [nibble_and_ones, nibble_and_zero, true_and, bitsZero_iff]
    omega
  case ab =>
    refine (key 0xF 0 0 0xF 0xF 0xF rfl).trans (and_congr_right fun _ => ?_)
    simp only [nibble_and_ones, nibble_and_zero, true_and, bitsZero_iff]
    omega
  case db =>
    refine (key 0 0xF 0 0xF 0xF 0xF rfl).trans (and_congr_right fun _ => ?_)
    simp only [nibble_and_ones, nibble_and_zero, true_and, bitsZero_iff]
    omega
  case dab =>
    refine (key 0 0 0 0xF 0xF 0xF rfl).trans (and_congr_right fun _ => ?_)
    simp only [nibble_and_ones, nibble_and_zero, true_and, bitsZero_iff]
    omega
  case dabc =>
    refine (key 0 0 0 0 0xF 0xF rfl).trans (and_congr_right fun _ => ?_)
    simp only [nibble_and_ones, nibble_and_zero, true_and, bitsZero_iff]
    omega
  case dabce =>
    refine (key 0 0 0 0 0 0xF rfl).trans (and_congr_right fun _ => ?_)
    simp only [nibble_and_ones, nibble_and_zero, true_and, bitsZero_iff]
    omega
  case i16 =>
    refine (key 0 0xF 0 0 0 0 rfl).trans (and_congr_right fun _ => ?_)
    simp only [nibble_and_ones, nibble_and_zero, true_and, and_true, bitsZero_iff]
    omega
  case i8 =>
    refine (key 0xF 0xF 0xF 0xF 0 0 rfl).trans (and_congr_right fun _ => ?_)
    simp only [nibble_and_ones, nibble_and_zero, and_true, bitsZero_iff]
    omega

end Sys2Proof
end

