-- ==== Sys2Proof/Laws/PerInstr.lean ====
section
/-! SUPPORT. Statements about every instruction as syntax, one lemma per constructor. `EncodeLegal`: the
encoder's word passes the mask test of 30_encoding.md R42 and R45, which is written from the opcode table
and not from the encoder. -/

namespace Sys2Proof.Laws.EncodeLegal

/-- The word of an instruction is a legal command word (R45). -/
def Statement (i : Instr) : Prop := wordLegal (encode i) = true

theorem legal_of_row {w : CmdWord} (r : OpcodeRow) (hm : r ∈ opcodeMap) (h : r.spells w = true) :
    wordLegal w = true :=
  List.any_eq_true.2 ⟨r, hm, h⟩

theorem nop : Statement .nop :=
  legal_of_row ⟨0x00, .z⟩ (by decide) ((spells_iff _ _ _).2 (by simp [encode]))

theorem xli (xd : XReg) (imm16 : BitVec 16) : Statement (.xli xd imm16) :=
  legal_of_row ⟨0x01, .i16⟩ (by decide) ((spells_iff _ _ _).2 (by simp [encode]))

theorem xld (xd : XReg) : Statement (.xld xd) :=
  legal_of_row ⟨0x02, .d⟩ (by decide) ((spells_iff _ _ _).2 (by simp [encode]))

theorem xout (xa : XReg) : Statement (.xout xa) :=
  legal_of_row ⟨0x03, .a⟩ (by decide) ((spells_iff _ _ _).2 (by simp [encode]))

theorem fld (fd : FReg) : Statement (.fld fd) :=
  legal_of_row ⟨0x04, .d⟩ (by decide) ((spells_iff _ _ _).2 (by simp [encode]))

theorem fout (fa : FReg) : Statement (.fout fa) :=
  legal_of_row ⟨0x05, .a⟩ (by decide) ((spells_iff _ _ _).2 (by simp [encode]))

theorem bclr : Statement .bclr :=
  legal_of_row ⟨0x10, .z⟩ (by decide) ((spells_iff _ _ _).2 (by simp [encode]))

theorem bpushi (imm8 : BitVec 8) : Statement (.bpushi imm8) :=
  legal_of_row ⟨0x11, .i8⟩ (by decide) ((spells_iff _ _ _).2 (by simp [encode]))

theorem bpush (xa : XReg) : Statement (.bpush xa) :=
  legal_of_row ⟨0x12, .a⟩ (by decide) ((spells_iff _ _ _).2 (by simp [encode]))

theorem bget (xd : XReg) (xa : XReg) : Statement (.bget xd xa) :=
  legal_of_row ⟨0x13, .da⟩ (by decide) ((spells_iff _ _ _).2 (by simp [encode]))

theorem blen (xd : XReg) : Statement (.blen xd) :=
  legal_of_row ⟨0x14, .d⟩ (by decide) ((spells_iff _ _ _).2 (by simp [encode]))

theorem fsetu (fd : FReg) (xa : XReg) : Statement (.fsetu fd xa) :=
  legal_of_row ⟨0x20, .da⟩ (by decide) ((spells_iff _ _ _).2 (by simp [encode]))

theorem fsets (fd : FReg) (xa : XReg) : Statement (.fsets fd xa) :=
  legal_of_row ⟨0x21, .da⟩ (by decide) ((spells_iff _ _ _).2 (by simp [encode]))

theorem fbig (fd : FReg) : Statement (.fbig fd) :=
  legal_of_row ⟨0x22, .d⟩ (by decide) ((spells_iff _ _ _).2 (by simp [encode]))

theorem fbign (fd : FReg) : Statement (.fbign fd) :=
  legal_of_row ⟨0x23, .d⟩ (by decide) ((spells_iff _ _ _).2 (by simp [encode]))

theorem fbytes (fd : FReg) : Statement (.fbytes fd) :=
  legal_of_row ⟨0x24, .d⟩ (by decide) ((spells_iff _ _ _).2 (by simp [encode]))

theorem fsample (fd : FReg) : Statement (.fsample fd) :=
  legal_of_row ⟨0x25, .d⟩ (by decide) ((spells_iff _ _ _).2 (by simp [encode]))

theorem fser (fa : FReg) : Statement (.fser fa) :=
  legal_of_row ⟨0x26, .a⟩ (by decide) ((spells_iff _ _ _).2 (by simp [encode]))

theorem ftox (xd : XReg) (fa : FReg) : Statement (.ftox xd fa) :=
  legal_of_row ⟨0x27, .da⟩ (by decide) ((spells_iff _ _ _).2 (by simp [encode]))

theorem fmov (fd : FReg) (fa : FReg) : Statement (.fmov fd fa) :=
  legal_of_row ⟨0x28, .da⟩ (by decide) ((spells_iff _ _ _).2 (by simp [encode]))

theorem fadd (fd : FReg) (fa : FReg) (fb : FReg) : Statement (.fadd fd fa fb) :=
  legal_of_row ⟨0x30, .dab⟩ (by decide) ((spells_iff _ _ _).2 (by simp [encode]))

theorem fsub (fd : FReg) (fa : FReg) (fb : FReg) : Statement (.fsub fd fa fb) :=
  legal_of_row ⟨0x31, .dab⟩ (by decide) ((spells_iff _ _ _).2 (by simp [encode]))

theorem fmul (fd : FReg) (fa : FReg) (fb : FReg) : Statement (.fmul fd fa fb) :=
  legal_of_row ⟨0x32, .dab⟩ (by decide) ((spells_iff _ _ _).2 (by simp [encode]))

theorem fdiv (fd : FReg) (fa : FReg) (fb : FReg) : Statement (.fdiv fd fa fb) :=
  legal_of_row ⟨0x33, .dab⟩ (by decide) ((spells_iff _ _ _).2 (by simp [encode]))

theorem finv (fd : FReg) (fa : FReg) : Statement (.finv fd fa) :=
  legal_of_row ⟨0x34, .da⟩ (by decide) ((spells_iff _ _ _).2 (by simp [encode]))

theorem fexp (fd : FReg) (fa : FReg) : Statement (.fexp fd fa) :=
  legal_of_row ⟨0x35, .da⟩ (by decide) ((spells_iff _ _ _).2 (by simp [encode]))

theorem fexpx (fd : FReg) (fa : FReg) (xb : XReg) : Statement (.fexpx fd fa xb) :=
  legal_of_row ⟨0x36, .dab⟩ (by decide) ((spells_iff _ _ _).2 (by simp [encode]))

theorem fcmp (fa : FReg) (fb : FReg) : Statement (.fcmp fa fb) :=
  legal_of_row ⟨0x37, .ab⟩ (by decide) ((spells_iff _ _ _).2 (by simp [encode]))

theorem frord (fd : FReg) : Statement (.frord fd) :=
  legal_of_row ⟨0x38, .d⟩ (by decide) ((spells_iff _ _ _).2 (by simp [encode]))

theorem froot (fd : FReg) (xa : XReg) : Statement (.froot fd xa) :=
  legal_of_row ⟨0x39, .da⟩ (by decide) ((spells_iff _ _ _).2 (by simp [encode]))

theorem vminv (vd : VReg) (va : VReg) : Statement (.vminv vd va) :=
  legal_of_row ⟨0x3A, .da⟩ (by decide) ((spells_iff _ _ _).2 (by simp [encode]))

theorem vclr (vd : VReg) : Statement (.vclr vd) :=
  legal_of_row ⟨0x40, .d⟩ (by decide) ((spells_iff _ _ _).2 (by simp [encode]))

theorem vpush (vd : VReg) (fa : FReg) : Statement (.vpush vd fa) :=
  legal_of_row ⟨0x41, .da⟩ (by decide) ((spells_iff _ _ _).2 (by simp [encode]))

theorem vget (fd : FReg) (va : VReg) (xb : XReg) : Statement (.vget fd va xb) :=
  legal_of_row ⟨0x42, .dab⟩ (by decide) ((spells_iff _ _ _).2 (by simp [encode]))

theorem vset (vd : VReg) (fa : FReg) (xb : XReg) : Statement (.vset vd fa xb) :=
  legal_of_row ⟨0x43, .dab⟩ (by decide) ((spells_iff _ _ _).2 (by simp [encode]))

theorem vabs (vd : VReg) (xb : XReg) : Statement (.vabs vd xb) :=
  legal_of_row ⟨0x44, .db⟩ (by decide) ((spells_iff _ _ _).2 (by simp [encode]))

theorem vpres (xd : XReg) (va : VReg) (xb : XReg) : Statement (.vpres xd va xb) :=
  legal_of_row ⟨0x45, .dab⟩ (by decide) ((spells_iff _ _ _).2 (by simp [encode]))

theorem vlen (xd : XReg) (va : VReg) : Statement (.vlen xd va) :=
  legal_of_row ⟨0x46, .da⟩ (by decide) ((spells_iff _ _ _).2 (by simp [encode]))

theorem vpad (vd : VReg) (va : VReg) (xb : XReg) : Statement (.vpad vd va xb) :=
  legal_of_row ⟨0x47, .dab⟩ (by decide) ((spells_iff _ _ _).2 (by simp [encode]))

theorem vtrunc (vd : VReg) (va : VReg) (xb : XReg) : Statement (.vtrunc vd va xb) :=
  legal_of_row ⟨0x48, .dab⟩ (by decide) ((spells_iff _ _ _).2 (by simp [encode]))

theorem vtrim (vd : VReg) (va : VReg) : Statement (.vtrim vd va) :=
  legal_of_row ⟨0x49, .da⟩ (by decide) ((spells_iff _ _ _).2 (by simp [encode]))

theorem vmov (vd : VReg) (va : VReg) : Statement (.vmov vd va) :=
  legal_of_row ⟨0x4A, .da⟩ (by decide) ((spells_iff _ _ _).2 (by simp [encode]))

theorem vrev (vd : VReg) (va : VReg) : Statement (.vrev vd va) :=
  legal_of_row ⟨0x4B, .da⟩ (by decide) ((spells_iff _ _ _).2 (by simp [encode]))

theorem vsubsl (vd : VReg) (va : VReg) (xb : XReg) (xc : XReg) : Statement (.vsubsl vd va xb xc) :=
  legal_of_row ⟨0x4C, .dabc⟩ (by decide) ((spells_iff _ _ _).2 (by simp [encode]))

theorem vdeg (xd : XReg) (va : VReg) : Statement (.vdeg xd va) :=
  legal_of_row ⟨0x4D, .da⟩ (by decide) ((spells_iff _ _ _).2 (by simp [encode]))

theorem visz (va : VReg) : Statement (.visz va) :=
  legal_of_row ⟨0x4E, .a⟩ (by decide) ((spells_iff _ _ _).2 (by simp [encode]))

theorem veq (va : VReg) (vb : VReg) : Statement (.veq va vb) :=
  legal_of_row ⟨0x4F, .ab⟩ (by decide) ((spells_iff _ _ _).2 (by simp [encode]))

theorem vadd (vd : VReg) (va : VReg) (vb : VReg) : Statement (.vadd vd va vb) :=
  legal_of_row ⟨0x50, .dab⟩ (by decide) ((spells_iff _ _ _).2 (by simp [encode]))

theorem vsub (vd : VReg) (va : VReg) (vb : VReg) : Statement (.vsub vd va vb) :=
  legal_of_row ⟨0x51, .dab⟩ (by decide) ((spells_iff _ _ _).2 (by simp [encode]))

theorem vmul (vd : VReg) (va : VReg) (vb : VReg) : Statement (.vmul vd va vb) :=
  legal_of_row ⟨0x52, .dab⟩ (by decide) ((spells_iff _ _ _).2 (by simp [encode]))

theorem vdiv (vd : VReg) (va : VReg) (vb : VReg) : Statement (.vdiv vd va vb) :=
  legal_of_row ⟨0x53, .dab⟩ (by decide) ((spells_iff _ _ _).2 (by simp [encode]))

theorem vmod (vd : VReg) (va : VReg) (vb : VReg) : Statement (.vmod vd va vb) :=
  legal_of_row ⟨0x54, .dab⟩ (by decide) ((spells_iff _ _ _).2 (by simp [encode]))

theorem vscale (vd : VReg) (va : VReg) (fb : FReg) : Statement (.vscale vd va fb) :=
  legal_of_row ⟨0x55, .dab⟩ (by decide) ((spells_iff _ _ _).2 (by simp [encode]))

theorem veval (fd : FReg) (va : VReg) (fb : FReg) : Statement (.veval fd va fb) :=
  legal_of_row ⟨0x56, .dab⟩ (by decide) ((spells_iff _ _ _).2 (by simp [encode]))

theorem vevald (vd : VReg) (va : VReg) (vb : VReg) : Statement (.vevald vd va vb) :=
  legal_of_row ⟨0x57, .dab⟩ (by decide) ((spells_iff _ _ _).2 (by simp [encode]))

theorem vevalq (fd : FReg) (va : VReg) (fb : FReg) : Statement (.vevalq fd va fb) :=
  legal_of_row ⟨0x58, .dab⟩ (by decide) ((spells_iff _ _ _).2 (by simp [encode]))

theorem vzero (vd : VReg) (va : VReg) : Statement (.vzero vd va) :=
  legal_of_row ⟨0x59, .da⟩ (by decide) ((spells_iff _ _ _).2 (by simp [encode]))

theorem vinterp (vd : VReg) (va : VReg) (vb : VReg) : Statement (.vinterp vd va vb) :=
  legal_of_row ⟨0x5A, .dab⟩ (by decide) ((spells_iff _ _ _).2 (by simp [encode]))

theorem vpow (vd : VReg) (fa : FReg) (xb : XReg) : Statement (.vpow vd fa xb) :=
  legal_of_row ⟨0x5B, .dab⟩ (by decide) ((spells_iff _ _ _).2 (by simp [encode]))

theorem vntt (vd : VReg) (va : VReg) (fb : FReg) : Statement (.vntt vd va fb) :=
  legal_of_row ⟨0x60, .dab⟩ (by decide) ((spells_iff _ _ _).2 (by simp [encode]))

theorem vintt (vd : VReg) (va : VReg) (fb : FReg) : Statement (.vintt vd va fb) :=
  legal_of_row ⟨0x61, .dab⟩ (by decide) ((spells_iff _ _ _).2 (by simp [encode]))

theorem vfmul (vd : VReg) (va : VReg) (vb : VReg) (fc : FReg) (fe : FReg) : Statement (.vfmul vd va vb fc fe) :=
  legal_of_row ⟨0x62, .dabce⟩ (by decide) ((spells_iff _ _ _).2 (by simp [encode]))

end Sys2Proof.Laws.EncodeLegal
end

