-- ==== Sys2Proof/Laws/PolyLaws.lean ====
section
/-! SUPPORT. What each polynomial operation does to the polynomial of a sequence, and from it the laws of
43_poly_arith.md R127, proved and not assumed: the sum and the product commute and associate, `a = q·b + r`, the
interpolant takes its values at the points, the vanishing polynomial is 0 at its points and its degree is their
number. -/

namespace Sys2Proof.Machine

open Polynomial

/-! ### Sequences and their polynomials -/

theorem toPoly_inj {a b : List Fp} (hl : a.length = b.length) (h : toPoly a = toPoly b) : a = b :=
  list_ext_coeffAt hl fun i _ => Fp.toZ_inj.1 (by rw [← coeff_toPoly, ← coeff_toPoly, h])

theorem coeff_toPoly_of_ge {a : List Fp} {i : Nat} (h : a.length ≤ i) : (toPoly a).coeff i = 0 := by
  rw [coeff_toPoly, coeffAt_of_ge h, Fp.toZ_zero]

@[simp] theorem toPoly_nil : toPoly [] = 0 := by simp [toPoly]

/-- Above the sum of the top indices the product of two sequences has no coefficient. -/
theorem coeff_mul_toPoly_of_ge {a b : List Fp} {i : Nat} (h : a.length + b.length ≤ i + 1) :
    (toPoly a * toPoly b).coeff i = 0 := by
  rw [coeff_mul]
  refine Finset.sum_eq_zero fun p hp => ?_
  have hs := Finset.HasAntidiagonal.mem_antidiagonal.1 hp
  rcases Nat.lt_or_ge p.1 a.length with h1 | h1
  · rw [coeff_toPoly_of_ge (a := b) (by omega), mul_zero]
  · rw [coeff_toPoly_of_ge h1, zero_mul]

theorem toPoly_append_singleton (c : List Fp) (q : Fp) :
    toPoly (c ++ [q]) = toPoly c + C (Fp.toZ q) * X ^ c.length := by
  ext i
  rw [coeff_add, coeff_C_mul_X_pow, coeff_toPoly, coeff_toPoly]
  rcases Nat.lt_trichotomy i c.length with h | h | h
  · simp [coeffAt, List.getElem?_append_left h, h.ne]
  · subst h; simp [coeffAt]
  · simp [coeffAt, h.ne', List.getElem?_append_right h.le, List.getElem?_eq_none h.le,
      List.getElem?_eq_none (show [q].length ≤ i - c.length by simp; omega)]

/-! ### Sum and product -/

theorem toPoly_polyAdd (a b : List Fp) : toPoly (polyAdd a b) = toPoly a + toPoly b := by
  ext i
  rw [coeff_add, coeff_toPoly, coeff_toPoly, coeff_toPoly, polyAdd, coeffAt_map_range]
  split
  · exact Fp.toZ_add ..
  · rename_i h
    rw [coeffAt_of_ge (by omega), coeffAt_of_ge (by omega)]; simp

theorem toPoly_polyMul (a b : List Fp) : toPoly (polyMul a b) = toPoly a * toPoly b := by
  by_cases h : a.length = 0 ∨ b.length = 0
  · rw [polyMul_of_empty h, toPoly_nil]
    rcases h with h | h <;> rw [List.length_eq_zero_iff.1 h] <;> simp
  · ext i
    rw [coeff_toPoly, polyMul_of_nonempty h, convolve, coeffAt_map_range]
    split
    · exact toZ_convAt ..
    · rw [coeff_mul_toPoly_of_ge (by omega), Fp.toZ_zero]

/-- R110, R127: the sum commutes. -/
theorem polyAdd_comm (a b : List Fp) : polyAdd a b = polyAdd b a :=
  toPoly_inj (by simp [Nat.max_comm]) (by rw [toPoly_polyAdd, toPoly_polyAdd, add_comm])

/-- R110, R127: the sum associates. -/
theorem polyAdd_assoc (a b c : List Fp) : polyAdd (polyAdd a b) c = polyAdd a (polyAdd b c) :=
  toPoly_inj (by simp [Nat.max_assoc]) (by simp only [toPoly_polyAdd, add_assoc])

/-- R112, R127: the product commutes. -/
theorem polyMul_comm (a b : List Fp) : polyMul a b = polyMul b a :=
  toPoly_inj (by simp only [length_polyMul, or_comm, Nat.add_comm])
    (by rw [toPoly_polyMul, toPoly_polyMul, mul_comm])

/-- R112, R127: the product associates, whatever operand is empty. -/
theorem polyMul_assoc (a b c : List Fp) : polyMul (polyMul a b) c = polyMul a (polyMul b c) := by
  refine toPoly_inj ?_ (by simp only [toPoly_polyMul, mul_assoc])
  simp only [length_polyMul]
  split_ifs <;> omega

/-! ### Long division -/

theorem toPoly_divStep (r b : List Fp) (k : Nat) (q : Fp) (h : k + b.length ≤ r.length) :
    toPoly (divStep r b k q) = toPoly r - C (Fp.toZ q) * X ^ k * toPoly b := by
  ext i
  rw [coeff_sub, mul_assoc, coeff_C_mul, coeff_X_pow_mul', coeff_toPoly, coeff_toPoly, divStep,
    coeffAt_map_range]
  by_cases hk : k ≤ i
  · rw [if_pos hk, coeff_toPoly]
    by_cases hi : i < k + b.length
    · rw [if_pos (by omega), if_pos ⟨hk, hi⟩, Fp.toZ_sub, Fp.toZ_mul]
    · rw [coeffAt_of_ge (l := b) (by omega), Fp.toZ_zero, mul_zero, sub_zero]
      split
      · rw [if_neg (by omega)]
      · rw [coeffAt_of_ge (l := r) (by omega)]
  · rw [if_neg hk, mul_zero, sub_zero, if_pos (by omega), if_neg (by omega)]

theorem Fp.toZ_div_mul (a : Fp) {b : Fp} (h : b ≠ 0) : Fp.toZ (Fp.div a b) * Fp.toZ b = Fp.toZ a := by
  rw [Fp.div, Fp.toZ_mul, mul_assoc, Fp.toZ_inv b h, mul_one]

/-- After `n` steps of long division nothing of the dividend is left from index `lb − 1` up to the top (R113). -/
theorem coeff_divLoop {b : List Fp} (hb : 0 < b.length) (hl : coeffAt b (b.length - 1) ≠ 0) (n : Nat) :
    ∀ r : List Fp, n + b.length ≤ r.length + 1 → ∀ i, b.length ≤ i + 1 → i + 1 < n + b.length →
      (toPoly r - toPoly (divLoop b n r) * toPoly b).coeff i = 0 := by
  induction n with
  | zero => intro r _ i h1 h2; omega
  | succ k ih =>
    intro r hr i h1 h2
    set q := Fp.div (coeffAt r (k + b.length - 1)) (coeffAt b (b.length - 1)) with hq
    have hstep : toPoly r - toPoly (divLoop b (k + 1) r) * toPoly b =
        toPoly (divStep r b k q) - toPoly (divLoop b k (divStep r b k q)) * toPoly b := by
      have e : divLoop b (k + 1) r = divLoop b k (divStep r b k q) ++ [q] := rfl
      rw [e, toPoly_append_singleton, length_divLoop, toPoly_divStep r b k q (by omega)]
      ring
    rw [hstep]
    rcases Nat.lt_or_ge (i + 1) (k + b.length) with h | h
    · exact ih _ (by rw [length_divStep]; omega) i h1 h
    · obtain rfl : i = k + b.length - 1 := by omega
      rw [coeff_sub, coeff_mul_toPoly_of_ge (by rw [length_divLoop]; omega), sub_zero,
        toPoly_divStep r b k q (by omega), coeff_sub, mul_assoc, coeff_C_mul, coeff_X_pow_mul',
        if_pos (by omega), coeff_toPoly, coeff_toPoly,
        show k + b.length - 1 - k = b.length - 1 by omega, hq, Fp.toZ_div_mul _ hl, sub_self]

/-- The quotient's product with the divisor agrees with the dividend from index `lb − 1` up (R113). -/
theorem coeff_sub_polyQuot_mul {a b : List Fp} (hb : 0 < b.length) (hab : b.length ≤ a.length)
    (hl : coeffAt b (b.length - 1) ≠ 0) {i : Nat} (h : b.length ≤ i + 1) :
    (toPoly a - toPoly (polyQuot a b) * toPoly b).coeff i = 0 := by
  rcases Nat.lt_or_ge i a.length with hi | hi
  · exact coeff_divLoop hb hl _ a (by omega) i h (by omega)
  · rw [coeff_sub, coeff_toPoly_of_ge hi, coeff_mul_toPoly_of_ge (by rw [length_polyQuot]; omega), sub_zero]

theorem coeffAt_take (c : List Fp) (n i : Nat) :
    coeffAt (c.take n) i = if i < n then coeffAt c i else 0 := by
  simp only [coeffAt, List.getD_eq_getElem?_getD, List.getElem?_take]
  split <;> simp

/-- The remainder is the dividend less quotient times divisor: what the truncation of R114 drops is 0. -/
theorem toPoly_polyRem {a b : List Fp} (hb : 0 < b.length) (hab : b.length ≤ a.length)
    (hl : coeffAt b (b.length - 1) ≠ 0) :
    toPoly (polyRem a b) = toPoly a - toPoly (polyQuot a b) * toPoly b := by
  ext i
  rcases Nat.lt_or_ge i (b.length - 1) with h | h
  · rw [coeff_toPoly, polyRem, coeffAt_take, if_pos h, coeffAt_map_range, if_pos (by omega), Fp.toZ_sub,
      toZ_convAt, coeff_sub, coeff_toPoly]
  · rw [coeff_sub_polyQuot_mul hb hab hl (by omega),
      coeff_toPoly_of_ge (by rw [length_polyRem]; omega)]

/-- R113, R114, R127: quotient times divisor plus remainder is the dividend, as sequences. -/
theorem polyQuot_mul_add_polyRem {a b : List Fp} (hb : 0 < b.length) (hab : b.length ≤ a.length)
    (hl : coeffAt b (b.length - 1) ≠ 0) : polyAdd (polyMul (polyQuot a b) b) (polyRem a b) = a := by
  refine toPoly_inj ?_ ?_
  · rw [length_polyAdd, length_polyMul, length_polyQuot, length_polyRem, if_neg (by omega)]; omega
  · rw [toPoly_polyAdd, toPoly_polyMul, toPoly_polyRem hb hab hl]; ring

/-! ### The vanishing polynomial -/

theorem coeffAt_cons_zero (a : Fp) (c : List Fp) : coeffAt (a :: c) 0 = a := rfl

theorem coeffAt_cons_succ (a : Fp) (c : List Fp) (i : Nat) : coeffAt (a :: c) (i + 1) = coeffAt c i := by
  simp [coeffAt]

/-- One synthetic multiplication multiplies by `X − t` (R119). -/
theorem toPoly_vanishStep (r : List Fp) (t : Fp) :
    toPoly (vanishStep r t) = toPoly r * (X - C (Fp.toZ t)) := by
  ext i
  have key : Fp.toZ (coeffAt (vanishStep r t) i) =
      Fp.toZ (coeffAt (0 :: r) i) - Fp.toZ (coeffAt r i) * Fp.toZ t := by
    rw [vanishStep, coeffAt_map_range, coeffAt_cons_succ, List.length_cons]
    rcases Nat.lt_trichotomy i r.length with h | h | h
    · rw [if_pos (by omega), if_pos (by omega), Fp.toZ_sub, Fp.toZ_mul]
    · rw [if_pos (by omega), if_neg (by omega), coeffAt_of_ge (l := r) h.ge]; simp
    · rw [if_neg (by omega), coeffAt_of_ge (l := 0 :: r) (by simp; omega), coeffAt_of_ge (l := r) h.le]
      simp
  rw [coeff_toPoly, key, mul_sub, coeff_sub, coeff_mul_C, coeff_toPoly]
  cases i with
  | zero => rw [coeff_mul_X_zero, coeffAt_cons_zero, Fp.toZ_zero]
  | succ i => rw [coeff_mul_X, coeff_toPoly, coeffAt_cons_succ]

/-- VZERO's value is the product of the factors `X − t` over the points (R119). -/
theorem toPoly_vanishing (points : List Fp) :
    toPoly (vanishing points) = (points.map fun t => X - C (Fp.toZ t)).prod := by
  have main : ∀ r : List Fp, toPoly (points.foldl vanishStep r) =
      toPoly r * (points.map fun t => X - C (Fp.toZ t)).prod := by
    induction points with
    | nil => simp
    | cons t rest ih => intro r; simp [ih, toPoly_vanishStep, mul_assoc]
  have h1 : toPoly [1] = 1 := by simp [toPoly, coeffAt]
  rw [vanishing, main, h1, one_mul]

/-- R119, R127: the vanishing polynomial is 0 at each of its points. -/
theorem ev_vanishing {points : List Fp} {t : Fp} (h : t ∈ points) : ev (vanishing points) t = 0 := by
  apply Fp.toZ_inj.1
  rw [← eval_toPoly, toPoly_vanishing, Fp.toZ_zero, eval_list_prod, List.map_map]
  exact List.prod_eq_zero (List.mem_map.2 ⟨t, h, by simp⟩)

/-- R119: the vanishing polynomial is monic. -/
theorem coeffAt_vanishing_top (points : List Fp) : coeffAt (vanishing points) points.length = 1 := by
  have main : ∀ r : List Fp, 0 < r.length → coeffAt r (r.length - 1) = 1 →
      coeffAt (points.foldl vanishStep r) (r.length - 1 + points.length) = 1 := by
    induction points with
    | nil => intro r _ h; simpa using h
    | cons t rest ih =>
      intro r hr h
      have ht : coeffAt (vanishStep r t) r.length = 1 := by
        rw [vanishStep, coeffAt_map_range, List.length_cons, if_pos (by omega), if_neg (by omega),
          show r.length = r.length - 1 + 1 by omega, coeffAt_cons_succ, h]
      have := ih (vanishStep r t) (by simp) (by simpa using ht)
      rw [length_vanishStep] at this
      rw [List.foldl_cons, List.length_cons,
        show r.length - 1 + (rest.length + 1) = r.length + 1 - 1 + rest.length by omega]
      exact this
  simpa [vanishing] using main [1] (by simp) rfl

/-- R119, R127: the degree of the vanishing polynomial is the number of its points. -/
theorem deg_vanishing (points : List Fp) : deg (vanishing points) = some points.length := by
  refine deg_eq_some.2 ⟨?_, fun i hi => coeffAt_of_ge (by rw [length_vanishing]; omega)⟩
  rw [coeffAt_vanishing_top]
  decide

/-! ### Interpolation -/

theorem hasDuplicate_eq_false {c : List Fp} : hasDuplicate c = false ↔ c.Nodup := by
  induction c with
  | nil => simp [hasDuplicate]
  | cons a t ih => simp [hasDuplicate, ih]

/-- The numerator of R121 is the product of the factors of the other points: the division is exact. -/
theorem toPoly_lagrangeNumerator {xs : List Fp} {x : Fp} (h : x ∈ xs) :
    toPoly (lagrangeNumerator (vanishing xs) x) = ((xs.erase x).map fun t => X - C (Fp.toZ t)).prod := by
  have hp : 0 < xs.length := List.length_pos_of_mem h
  have hb : toPoly [Fp.sub 0 x, 1] = X - C (Fp.toZ x) := by
    simp [toPoly, Finset.sum_range_succ, coeffAt]; ring
  have hrem := toPoly_polyRem (a := vanishing xs) (b := [Fp.sub 0 x, 1]) (by simp)
    (by simp; omega) (by simp [coeffAt])
  set r := polyRem (vanishing xs) [Fp.sub 0 x, 1] with hr
  have hrl : r.length = 1 := by rw [hr, length_polyRem]; simp
  have hrc : toPoly r = C (Fp.toZ (coeffAt r 0)) := by
    rw [toPoly, hrl, Finset.sum_range_one, pow_zero, mul_one]
  have hz : (toPoly (vanishing xs)).eval (Fp.toZ x) = 0 := by
    rw [eval_toPoly, ev_vanishing h, Fp.toZ_zero]
  have hr0 : toPoly r = 0 := by
    have := congrArg (eval (Fp.toZ x)) hrem
    rw [eval_sub, eval_mul, hb, hz, hrc, eval_C] at this
    rw [hrc, this]; simp
  rw [hr0, hb, toPoly_vanishing, ((List.perm_cons_erase h).map _).prod_eq, List.map_cons, List.prod_cons,
    mul_comm] at hrem
  have : Fact modulus.Prime := ⟨modulus_prime⟩
  exact (mul_right_cancel₀ (X_sub_C_ne_zero (Fp.toZ x)) (sub_eq_zero.1 hrem.symm)).symm

/-- A numerator is 0 at every other point (R121). -/
theorem ev_lagrangeNumerator_other {xs : List Fp} {x t : Fp} (hx : x ∈ xs) (ht : t ∈ xs) (hne : t ≠ x) :
    ev (lagrangeNumerator (vanishing xs) x) t = 0 := by
  apply Fp.toZ_inj.1
  rw [← eval_toPoly, toPoly_lagrangeNumerator hx, Fp.toZ_zero, eval_list_prod, List.map_map]
  exact List.prod_eq_zero (List.mem_map.2 ⟨t, (List.mem_erase_of_ne hne).2 ht, by simp⟩)

/-- For distinct points no denominator `d_i` is 0 (R121, R125). -/
theorem ev_lagrangeNumerator_self {xs : List Fp} {x : Fp} (hx : x ∈ xs) (hn : xs.Nodup) :
    ev (lagrangeNumerator (vanishing xs) x) x ≠ 0 := by
  have : Fact modulus.Prime := ⟨modulus_prime⟩
  intro h
  have h0 := congrArg Fp.toZ h
  rw [← eval_toPoly, toPoly_lagrangeNumerator hx, Fp.toZ_zero, eval_list_prod, List.map_map,
    List.prod_eq_zero_iff, List.mem_map] at h0
  obtain ⟨t, ht, he⟩ := h0
  have : x = t := Fp.toZ_inj.1 (sub_eq_zero.1 (by simpa using he))
  exact hn.not_mem_erase (this ▸ ht)

theorem ev_polyScale (c : List Fp) (q t : Fp) : Fp.toZ (ev (polyScale c q) t) = Fp.toZ (ev c t) * Fp.toZ q := by
  rw [← eval_toPoly, ← eval_toPoly, toPoly, toPoly, length_polyScale, eval_finsetSum, eval_finsetSum,
    Finset.sum_mul]
  refine Finset.sum_congr rfl fun i hi => ?_
  have hi' : i < c.length := Finset.mem_range.1 hi
  rw [coeffAt_of_lt (by simpa using hi'), coeffAt_of_lt hi']
  simp [polyScale]
  ring

/-- The interpolant's value at a point is the sum of the terms' values (R121). -/
theorem ev_sum_columns (terms : List (List Fp)) (n : Nat) (t : Fp) (h : ∀ c ∈ terms, c.length = n) :
    Fp.toZ (ev ((List.range n).map fun k => Fp.sum (terms.map fun c => coeffAt c k)) t) =
      (terms.map fun c => Fp.toZ (ev c t)).sum := by
  induction terms with
  | nil =>
    rw [← eval_toPoly, toPoly, eval_finsetSum]
    refine (Finset.sum_eq_zero fun i _ => ?_).trans (by simp)
    rw [coeffAt_map_range]
    simp [Fp.sum]
  | cons c rest ih =>
    rw [List.map_cons, List.sum_cons, ← ih fun d hd => h d (List.mem_cons_of_mem _ hd), ← eval_toPoly,
      ← eval_toPoly, ← eval_toPoly, ← eval_add]
    congr 1
    ext i
    rw [coeff_add, coeff_toPoly, coeff_toPoly, coeff_toPoly, coeffAt_map_range, coeffAt_map_range]
    have hc := h c List.mem_cons_self
    split
    · simp
    · rw [coeffAt_of_ge (l := c) (by omega)]; simp

/-- R125, R127: the interpolant takes the value `ys[i]` at the point `xs[i]`, for distinct points. -/
theorem ev_interpolate {xs ys : List Fp} (hn : xs.Nodup) (hl : xs.length = ys.length) {i : Nat}
    (hi : i < xs.length) : ev (interpolate xs ys) (coeffAt xs i) = coeffAt ys i := by
  apply Fp.toZ_inj.1
  have hlen : ∀ x ∈ xs, (lagrangeNumerator (vanishing xs) x).length = xs.length := fun x hx => by
    have := List.length_pos_of_mem hx
    simp [lagrangeNumerator]; omega
  rw [interpolate, ev_sum_columns _ _ _ (by
    intro c hc
    obtain ⟨pt, hpt, rfl⟩ := List.mem_map.1 hc
    rw [length_polyScale]
    exact hlen _ (List.of_mem_zip hpt).1), List.map_map]
  have hz : i < (xs.zip ys).length := by simp; omega
  have hget : (xs.zip ys)[i] = (coeffAt xs i, coeffAt ys i) := by
    rw [List.getElem_zip, coeffAt_of_lt hi, coeffAt_of_lt (by omega)]
  have hterm : ∀ j (hj : j < (xs.zip ys).length), ((fun c => Fp.toZ (ev c (coeffAt xs i))) ∘ fun pt : Fp × Fp =>
      polyScale (lagrangeNumerator (vanishing xs) pt.1)
        (lagrangeWeight (lagrangeNumerator (vanishing xs) pt.1) pt.1 pt.2)) (xs.zip ys)[j] =
      if j = i then Fp.toZ (coeffAt ys i) else 0 := by
    intro j hj
    have hjx : j < xs.length := by simp at hj; omega
    rw [Function.comp_apply, ev_polyScale]
    split
    · rename_i h
      subst h
      have hne := ev_lagrangeNumerator_self (x := coeffAt xs j)
        (by rw [coeffAt_of_lt hi]; exact List.getElem_mem _) hn
      rw [hget, lagrangeWeight, Fp.toZ_mul]
      have := Fp.toZ_inv _ hne
      linear_combination Fp.toZ (coeffAt ys j) * this
    · rename_i h
      have hne : coeffAt xs i ≠ xs[j] := by
        rw [coeffAt_of_lt hi, Ne, hn.getElem_inj_iff]; exact fun e => h e.symm
      rw [List.getElem_zip, ev_lagrangeNumerator_other (List.getElem_mem hjx)
        (by rw [coeffAt_of_lt hi]; exact List.getElem_mem _) hne, Fp.toZ_zero, zero_mul]
  have hsum : ∀ (l : List (Fp × Fp)) (g : Fp × Fp → ZMod modulus), (l.map g).sum =
      ∑ j : Fin l.length, g l[j] := fun l g => by
    rw [← List.sum_ofFn]; congr 1; exact (List.ofFn_getElem_eq_map l g).symm
  rw [hsum, Finset.sum_eq_single ⟨i, hz⟩]
  · exact (hterm i hz).trans (if_pos rfl)
  · intro j _ hj
    exact (hterm j j.isLt).trans (if_neg fun e => hj (Fin.ext e))
  · simp

end Sys2Proof.Machine
end

