-- ==== Sys2Proof/Machine/AirSequences.lean ====
section
/-! DEFINITION. The pseudo-instructions of 30_encoding.md R47: the AIR Builder as host command sequences
(45_air_sequences.md R150 to R154). They are software on the host, no part of the unit: each is the list
of accesses the host makes, in the register convention of R150. No step of the machine uses them. -/

namespace Sys2Proof.Machine

/-- The host write that issues a command (R32). -/
def issue (i : Instr) : HostAccess := .write 0x0 ((encode i).setWidth 64)

/-- `din <value>` of a listing (R46). -/
def dinWrite (w : Word) : HostAccess := .write 0x1 w

/-- AIR.COMPUTE: builds the Receipt, `First` in v0 and `Second` in v1 (R151). -/
def airCompute (prices : List Word) : List HostAccess :=
  [issue (.vclr 0), issue (.vclr 1), issue (.xli 0 0), issue (.fsetu 1 0)] ++
    (prices.map fun price =>
      [dinWrite price, issue (.fld 0), issue (.vpush 0 0), issue (.vpush 1 1), issue (.fadd 1 1 0)]).flatten ++
    [issue (.vpush 0 1), issue (.vpush 1 1)]

/-- The commands R152 gives for row `i`, with the destination register of R152 or R153. -/
def airRow (vd : VReg) (i : BitVec 16) : List HostAccess :=
  [issue (.xli 0 i), issue (.vget 0 0 0), issue (.vget 1 1 0), issue (.vclr vd), issue (.vpush vd 0),
    issue (.vpush vd 1)]

/-- AIR.TRACE `i`: row `i` as a two-slot polynomial in v2 (R152). -/
def airTrace (i : BitVec 16) : List HostAccess := airRow 2 i

/-- AIR.BOUNDARY for input length `n`: the first row in v2, the last in v3 (R153). -/
def airBoundary (n : BitVec 16) : List HostAccess := airRow 2 0 ++ airRow 3 n

/-- AIR.TRANSITION for input length `n`, with the root in f2: the constraint in v11 (R154). -/
def airTransition (n : BitVec 16) : List HostAccess :=
  [issue (.xli 1 (n + 1)), issue (.xli 2 n), issue (.xli 3 1), issue (.vpow 4 2 1), issue (.vinterp 5 4 0),
    issue (.vinterp 6 4 1), issue (.vtrunc 7 4 2), issue (.vsubsl 8 1 3 3), issue (.vinterp 9 7 8),
    issue (.vadd 10 5 6), issue (.vsub 11 9 10)]

end Sys2Proof.Machine
end

