-- ==== Sys2Proof/Machine/Assembler.lean ====
section
/-! DEFINITION. The assembler spelling of a command (30_encoding.md R46): its mnemonic in capitals, then its
operands in the order of R40's operand column. Used by readers and tests, by no step of the machine. -/

namespace Sys2Proof.Machine

/-- A register operand: the file letter and the decimal register number (R46). -/
def regText (file : String) (n : Fin 16) : String := file ++ toString n.val

/-- `x<n>` (R46). -/
def xText (n : XReg) : String := regText "x" n

/-- `f<n>` (R46). -/
def fText (n : FReg) : String := regText "f" n

/-- `v<n>` (R46). -/
def vText (n : VReg) : String := regText "v" n

/-- The mnemonic, a space, and the operands separated by commas (R46). -/
def spell (mnemonic : String) (operands : List String) : String :=
  if operands.isEmpty then mnemonic else mnemonic ++ " " ++ ", ".intercalate operands

/-- The assembler spelling of a command (R46). -/
def assembly : Instr → String
  | .nop => spell "NOP" []
  | .xli xd imm16 => spell "XLI" [xText xd, toString imm16.toNat]
  | .xld xd => spell "XLD" [xText xd]
  | .xout xa => spell "XOUT" [xText xa]
  | .fld fd => spell "FLD" [fText fd]
  | .fout fa => spell "FOUT" [fText fa]
  | .bclr => spell "BCLR" []
  | .bpushi imm8 => spell "BPUSHI" [toString imm8.toNat]
  | .bpush xa => spell "BPUSH" [xText xa]
  | .bget xd xa => spell "BGET" [xText xd, xText xa]
  | .blen xd => spell "BLEN" [xText xd]
  | .fsetu fd xa => spell "FSETU" [fText fd, xText xa]
  | .fsets fd xa => spell "FSETS" [fText fd, xText xa]
  | .fbig fd => spell "FBIG" [fText fd]
  | .fbign fd => spell "FBIGN" [fText fd]
  | .fbytes fd => spell "FBYTES" [fText fd]
  | .fsample fd => spell "FSAMPLE" [fText fd]
  | .fser fa => spell "FSER" [fText fa]
  | .ftox xd fa => spell "FTOX" [xText xd, fText fa]
  | .fmov fd fa => spell "FMOV" [fText fd, fText fa]
  | .fadd fd fa fb => spell "FADD" [fText fd, fText fa, fText fb]
  | .fsub fd fa fb => spell "FSUB" [fText fd, fText fa, fText fb]
  | .fmul fd fa fb => spell "FMUL" [fText fd, fText fa, fText fb]
  | .fdiv fd fa fb => spell "FDIV" [fText fd, fText fa, fText fb]
  | .finv fd fa => spell "FINV" [fText fd, fText fa]
  | .fexp fd fa => spell "FEXP" [fText fd, fText fa]
  | .fexpx fd fa xb => spell "FEXPX" [fText fd, fText fa, xText xb]
  | .fcmp fa fb => spell "FCMP" [fText fa, fText fb]
  | .frord fd => spell "FRORD" [fText fd]
  | .froot fd xa => spell "FROOT" [fText fd, xText xa]
  | .vminv vd va => spell "VMINV" [vText vd, vText va]
  | .vclr vd => spell "VCLR" [vText vd]
  | .vpush vd fa => spell "VPUSH" [vText vd, fText fa]
  | .vget fd va xb => spell "VGET" [fText fd, vText va, xText xb]
  | .vset vd fa xb => spell "VSET" [vText vd, fText fa, xText xb]
  | .vabs vd xb => spell "VABS" [vText vd, xText xb]
  | .vpres xd va xb => spell "VPRES" [xText xd, vText va, xText xb]
  | .vlen xd va => spell "VLEN" [xText xd, vText va]
  | .vpad vd va xb => spell "VPAD" [vText vd, vText va, xText xb]
  | .vtrunc vd va xb => spell "VTRUNC" [vText vd, vText va, xText xb]
  | .vtrim vd va => spell "VTRIM" [vText vd, vText va]
  | .vmov vd va => spell "VMOV" [vText vd, vText va]
  | .vrev vd va => spell "VREV" [vText vd, vText va]
  | .vsubsl vd va xb xc => spell "VSUBSL" [vText vd, vText va, xText xb, xText xc]
  | .vdeg xd va => spell "VDEG" [xText xd, vText va]
  | .visz va => spell "VISZ" [vText va]
  | .veq va vb => spell "VEQ" [vText va, vText vb]
  | .vadd vd va vb => spell "VADD" [vText vd, vText va, vText vb]
  | .vsub vd va vb => spell "VSUB" [vText vd, vText va, vText vb]
  | .vmul vd va vb => spell "VMUL" [vText vd, vText va, vText vb]
  | .vdiv vd va vb => spell "VDIV" [vText vd, vText va, vText vb]
  | .vmod vd va vb => spell "VMOD" [vText vd, vText va, vText vb]
  | .vscale vd va fb => spell "VSCALE" [vText vd, vText va, fText fb]
  | .veval fd va fb => spell "VEVAL" [fText fd, vText va, fText fb]
  | .vevald vd va vb => spell "VEVALD" [vText vd, vText va, vText vb]
  | .vevalq fd va fb => spell "VEVALQ" [fText fd, vText va, fText fb]
  | .vzero vd va => spell "VZERO" [vText vd, vText va]
  | .vinterp vd va vb => spell "VINTERP" [vText vd, vText va, vText vb]
  | .vpow vd fa xb => spell "VPOW" [vText vd, fText fa, xText xb]
  | .vntt vd va fb => spell "VNTT" [vText vd, vText va, fText fb]
  | .vintt vd va fb => spell "VINTT" [vText vd, vText va, fText fb]
  | .vfmul vd va vb fc fe => spell "VFMUL" [vText vd, vText va, vText vb, fText fc, fText fe]

end Sys2Proof.Machine
end

