-- ==== Sys2Proof/Tests/Slice0.lean ====
section
/-! SUPPORT. The model's own tests: decoding of words written out from the spec, the words the legality test refuses,
one step per vector of 95_test_vectors.md (at most two per command, none that depends on LMAX or BMAX), the host
sequences of 45_air_sequences.md, and for every statement with premises the states that meet them. -/

namespace Sys2Proof.Tests

open Sys2Proof Sys2Proof.Machine

set_option Elab.async false

/-- A step answers exactly this next state. -/
def gives (r : Result) (t : State) : Bool :=
  match r with
  | .next u => u == t
  | .fault _ | .refused _ => false

theorem eq_of_gives {r : Result} {t : State} (h : gives r t = true) : r = .next t := by
  unfold gives at h
  split at h <;> simp_all

/-- The command word `w`, issued in state `s`, leaves `change s`. -/
def runs (s : State) (w : Nat) (change : State → State) : Bool :=
  gives (step (s.withFetchWord 32 w)) (change s)

/-- One completed command, from a CMDCNT of 0. -/
def done (s : State) : State := { s with cmdcnt := 1 }

/-- The fatal entry as 95_test_vectors.md prints it. -/
def fatalWith (cause : BitVec 8) (word : Word) (s : State) : State :=
  { s with fatal := true, cause := cause, faultcmd := word }

/-- `elems([…])` of the vectors. -/
def vals (l : List Fp) : PolyVal := .seq (elems l)

/-! ### Decoding -/

/-- Words of HostData, written out from the opcode and operand columns of 30_encoding.md R40 and the fields of R41 and R44:
`rd` 9, `ra` 5, `rb` 12, `rc` 3, `re` 14. -/
def wordsHostData : List (CmdWord × Instr) :=
  [ (0x00000000, .nop),
    (0x0190BEEF, .xli 9 0xBEEF),
    (0x02900000, .xld 9),
    (0x03050000, .xout 5),
    (0x04900000, .fld 9),
    (0x05050000, .fout 5),
    (0x10000000, .bclr),
    (0x110000A7, .bpushi 0xA7),
    (0x12050000, .bpush 5),
    (0x13950000, .bget 9 5),
    (0x14900000, .blen 9) ]

theorem test_decode_hostData :
    (wordsHostData.all fun p => decode p.1 == some p.2 && encode p.2 == p.1) = true := by decide +kernel

/-- Words of Field, written out from the opcode and operand columns of 30_encoding.md R40 and the fields of R41 and R44:
`rd` 9, `ra` 5, `rb` 12, `rc` 3, `re` 14. -/
def wordsField : List (CmdWord × Instr) :=
  [ (0x20950000, .fsetu 9 5),
    (0x21950000, .fsets 9 5),
    (0x22900000, .fbig 9),
    (0x23900000, .fbign 9),
    (0x24900000, .fbytes 9),
    (0x25900000, .fsample 9),
    (0x26050000, .fser 5),
    (0x27950000, .ftox 9 5),
    (0x28950000, .fmov 9 5),
    (0x3095C000, .fadd 9 5 12),
    (0x3195C000, .fsub 9 5 12),
    (0x3295C000, .fmul 9 5 12),
    (0x3395C000, .fdiv 9 5 12),
    (0x34950000, .finv 9 5),
    (0x35950000, .fexp 9 5),
    (0x3695C000, .fexpx 9 5 12),
    (0x3705C000, .fcmp 5 12),
    (0x38900000, .frord 9),
    (0x39950000, .froot 9 5),
    (0x3A950000, .vminv 9 5) ]

theorem test_decode_field :
    (wordsField.all fun p => decode p.1 == some p.2 && encode p.2 == p.1) = true := by decide +kernel

/-- Words of PolyStruct, written out from the opcode and operand columns of 30_encoding.md R40 and the fields of R41 and R44:
`rd` 9, `ra` 5, `rb` 12, `rc` 3, `re` 14. -/
def wordsPolyStruct : List (CmdWord × Instr) :=
  [ (0x40900000, .vclr 9),
    (0x41950000, .vpush 9 5),
    (0x4295C000, .vget 9 5 12),
    (0x4395C000, .vset 9 5 12),
    (0x4490C000, .vabs 9 12),
    (0x4595C000, .vpres 9 5 12),
    (0x46950000, .vlen 9 5),
    (0x4795C000, .vpad 9 5 12),
    (0x4895C000, .vtrunc 9 5 12),
    (0x49950000, .vtrim 9 5),
    (0x4A950000, .vmov 9 5),
    (0x4B950000, .vrev 9 5),
    (0x4C95C300, .vsubsl 9 5 12 3),
    (0x4D950000, .vdeg 9 5),
    (0x4E050000, .visz 5),
    (0x4F05C000, .veq 5 12) ]

theorem test_decode_polyStruct :
    (wordsPolyStruct.all fun p => decode p.1 == some p.2 && encode p.2 == p.1) = true := by decide +kernel

/-- Words of PolyArith, written out from the opcode and operand columns of 30_encoding.md R40 and the fields of R41 and R44:
`rd` 9, `ra` 5, `rb` 12, `rc` 3, `re` 14. -/
def wordsPolyArith : List (CmdWord × Instr) :=
  [ (0x5095C000, .vadd 9 5 12),
    (0x5195C000, .vsub 9 5 12),
    (0x5295C000, .vmul 9 5 12),
    (0x5395C000, .vdiv 9 5 12),
    (0x5495C000, .vmod 9 5 12),
    (0x5595C000, .vscale 9 5 12),
    (0x5695C000, .veval 9 5 12),
    (0x5795C000, .vevald 9 5 12),
    (0x5895C000, .vevalq 9 5 12),
    (0x59950000, .vzero 9 5),
    (0x5A95C000, .vinterp 9 5 12),
    (0x5B95C000, .vpow 9 5 12) ]

theorem test_decode_polyArith :
    (wordsPolyArith.all fun p => decode p.1 == some p.2 && encode p.2 == p.1) = true := by decide +kernel

/-- Words of Transform, written out from the opcode and operand columns of 30_encoding.md R40 and the fields of R41 and R44:
`rd` 9, `ra` 5, `rb` 12, `rc` 3, `re` 14. -/
def wordsTransform : List (CmdWord × Instr) :=
  [ (0x6095C000, .vntt 9 5 12),
    (0x6195C000, .vintt 9 5 12),
    (0x6295C3E0, .vfmul 9 5 12 3 14) ]

theorem test_decode_transform :
    (wordsTransform.all fun p => decode p.1 == some p.2 && encode p.2 == p.1) = true := by decide +kernel

/-- The word of the opcode table reaches the decoder, and the step runs it as the first command after reset. -/
theorem test_tableWord : decodeTableWord 32 0x0110FFFF = some (.xli 1 0xFFFF) ∧
    decodeTableWord 32 0x30201001 = none ∧
    gives (step (State.reset.withFetchWord 32 0x0110FFFF)) (done (setX .reset 1 0xFFFF)) = true := by
  decide +kernel

/-! ### Words the legality test refuses (30_encoding.md R42, R45)

For each format of R42 a bit it does not use, at each end of each unused run; and opcodes without a row. -/

/-- Words with one unused bit set, with the format that does not use it. -/
def illTyped : List CmdWord :=
  [ -- Z: 23, 0
    0x00800000, 0x10000001,
    -- D: 19, 0
    0x02080000, 0x38000001,
    -- A: 23, 20, 15, 0
    0x03800000, 0x03100000, 0x4E008000, 0x26000001,
    -- DA: 15, 0
    0x20008000, 0x5900FFFF,
    -- AB: 23, 20, 11, 0
    0x37800000, 0x4F100000, 0x37000800, 0x4F000001,
    -- DB: 19, 16, 11, 0
    0x44080000, 0x44010000, 0x44000800, 0x44000001,
    -- DAB: 11, 0
    0x30000800, 0x61000001,
    -- DABC: 7, 0
    0x4C000080, 0x4C000001,
    -- DABCE: 3, 0
    0x62000008, 0x62000001,
    -- I16: 19, 16
    0x01080000, 0x01010000,
    -- I8: 23, 8
    0x11800000, 0x11000100 ]

theorem test_unused_bits_refused :
    (illTyped.all fun w => !wordLegal w && (decode w).isNone) = true := by decide +kernel

/-- Opcodes on both sides of every run of assigned ones. -/
theorem test_unassigned_opcodes_refused :
    ([0x06000000, 0x0F000000, 0x15000000, 0x1F000000, 0x29000000, 0x2F000000, 0x3B000000, 0x3F000000,
      0x5C000000, 0x5F000000, 0x63000000, 0xFFFFFFFF].all fun w =>
        !wordLegal w && (decode w).isNone) = true := by decide +kernel

/-- Words with every field at 15 pass, in each format. -/
theorem test_full_fields_accepted :
    ([0x00000000, 0x02F00000, 0x030F0000, 0x20FF0000, 0x370FF000, 0x44F0F000, 0x30FFF000, 0x4CFFFF00,
      0x62FFFFF0, 0x01F0FFFF, 0x110000FF].all fun w => wordLegal w && (decode w).isSome) = true := by
  decide +kernel

/-! ### Assembler and host sequences -/

/-- Spellings of R46 in the listings of 95_test_vectors.md. -/
theorem test_assembly :
    (decode 0x30201000).map assembly = some "FADD f2, f0, f1" ∧
    (decode 0x0110FFFF).map assembly = some "XLI x1, 65535" ∧
    (decode 0x62201010).map assembly = some "VFMUL v2, v0, v1, f0, f1" ∧
    (decode 0x00000000).map assembly = some "NOP" ∧
    (decode 0x4C813300).map assembly = some "VSUBSL v8, v1, x3, x3" := by decide +kernel

/-- A host write of a command word. -/
def cmdW (w : Word) : HostAccess := .write 0x0 w

/-- The listing of P3 (95_test_vectors.md) is AIR.COMPUTE on 5, 12, 13, then AIR.BOUNDARY for `n = 3`. -/
theorem test_air_compute_boundary : airCompute [5, 12, 13] ++ airBoundary 3 =
    [cmdW 0x40000000, cmdW 0x40100000, cmdW 0x01000000, cmdW 0x20100000,
     .write 0x1 5, cmdW 0x04000000, cmdW 0x41000000, cmdW 0x41110000, cmdW 0x30110000,
     .write 0x1 12, cmdW 0x04000000, cmdW 0x41000000, cmdW 0x41110000, cmdW 0x30110000,
     .write 0x1 13, cmdW 0x04000000, cmdW 0x41000000, cmdW 0x41110000, cmdW 0x30110000,
     cmdW 0x41010000, cmdW 0x41110000,
     cmdW 0x01000000, cmdW 0x42000000, cmdW 0x42110000, cmdW 0x40200000, cmdW 0x41200000, cmdW 0x41210000,
     cmdW 0x01000003, cmdW 0x42000000, cmdW 0x42110000, cmdW 0x40300000, cmdW 0x41300000,
     cmdW 0x41310000] := by decide +kernel

/-- The listing of P3 from `XLI x1, 4` to `VSUB v11, v9, v10` is AIR.TRANSITION for `n = 3`. -/
theorem test_air_transition : airTransition 3 =
    [cmdW 0x01100004, cmdW 0x01200003, cmdW 0x01300001, cmdW 0x5B421000, cmdW 0x5A540000,
     cmdW 0x5A641000, cmdW 0x48742000, cmdW 0x4C813300, cmdW 0x5A978000, cmdW 0x50A56000,
     cmdW 0x51B9A000] := by decide +kernel

theorem test_air_trace : airTrace 2 =
    [cmdW 0x01000002, cmdW 0x42000000, cmdW 0x42110000, cmdW 0x40200000, cmdW 0x41200000,
     cmdW 0x41210000] := by decide +kernel

/-! ### The window -/

/-- STATUS after a fatal division: `0x0308` (60_exceptions.md R161, R17). -/
theorem test_status_read :
    gives (step { fatalWith 3 0x34100000 .reset with host := [.read 0x3] })
      { fatalWith 3 0x34100000 .reset with reads := [0x0308] } = true := by decide +kernel

/-- MODULUS, GENERATOR and ROOTORDER (R25). -/
theorem test_constant_reads :
    windowRead .reset (windowReg 0x7) = 18446744069414584321 ∧
    windowRead .reset (windowReg 0x8) = 7 ∧
    windowRead .reset (windowReg 0x9) = 18446744069414584320 := by decide +kernel

/-- A command in the FATAL state is ignored (T60-8), and a write of 1 to CTRL resets. -/
theorem test_fatal_then_reset :
    runs (fatalWith 3 0x33201000 .reset) 0x01000005 (fun s => s) = true ∧
    gives (step { fatalWith 3 0x33201000 (setX .reset 1 5) with host := [.write 0x6 1] }) .reset = true := by
  decide +kernel

/-! ### One step each, from the vectors of 95_test_vectors.md -/

/-- T40-1. -/
theorem test_T40_1_nop : runs
    .reset 0x00000000 done = true := by
  decide +kernel

/-- T40-2. -/
theorem test_T40_2_xli : runs
    .reset 0x0110FFFF (fun s => done (setX s 1 65535)) = true := by
  decide +kernel

/-- T40-3. -/
theorem test_T40_3_xld : runs
    { State.reset with din := 18446744073709551615 } 0x02300000
    (fun s => done (setX s 3 18446744073709551615)) = true := by
  decide +kernel

/-- T40-4. -/
theorem test_T40_4_xout : runs
    (setX .reset 5 1311768467463790320) 0x03050000
    (fun s => done { s with dout := 1311768467463790320 }) = true := by
  decide +kernel

/-- T40-5. -/
theorem test_T40_5_fld : runs
    { State.reset with din := 18446744069414584321 } 0x04000000 (fun s => done (setF s 0 0)) = true := by
  decide +kernel

/-- T40-6. -/
theorem test_T40_6_fld : runs
    { State.reset with din := 18446744073709551615 } 0x04100000
    (fun s => done (setF s 1 4294967294)) = true := by
  decide +kernel

/-- T40-8. -/
theorem test_T40_8_fout : runs
    (setF .reset 7 18446744069414584320) 0x05070000
    (fun s => done { s with dout := 18446744069414584320 }) = true := by
  decide +kernel

/-- T40-9. -/
theorem test_T40_9_bclr : runs
    { State.reset with bb := [0x01, 0x02] } 0x10000000 (fun s => done { s with bb := [] }) = true := by
  decide +kernel

/-- T40-10. -/
theorem test_T40_10_bpushi : runs
    { State.reset with bb := [0x01] } 0x110000FF (fun s => done { s with bb := [0x01, 0xFF] }) = true := by
  decide +kernel

/-- T40-11. -/
theorem test_T40_11_bpush : runs
    { (setX .reset 2 43981) with bb := [] } 0x12020000
    (fun s => done { s with bb := [0xCD] }) = true := by
  decide +kernel

/-- T40-12. -/
theorem test_T40_12_bget : runs
    (setX { State.reset with bb := [0x09, 0x08, 0x07] } 1 2) 0x13010000
    (fun s => done (setX s 0 7)) = true := by
  decide +kernel

/-- T40-13. -/
theorem test_T40_13_bget : runs
    (setX { State.reset with bb := [0x09, 0x08, 0x07] } 1 3) 0x13010000 (fatalWith 7 0x13010000) = true := by
  decide +kernel

/-- T40-14. -/
theorem test_T40_14_blen : runs
    { State.reset with bb := [0x09, 0x08, 0x07] } 0x14400000 (fun s => done (setX s 4 3)) = true := by
  decide +kernel

/-- T41-1. -/
theorem test_T41_1_fsetu : runs
    (setX .reset 0 18446744069414584321) 0x20000000 (fun s => done (setF s 0 0)) = true := by
  decide +kernel

/-- T41-2. -/
theorem test_T41_2_fsetu : runs
    (setX .reset 0 18446744073709551615) 0x20000000 (fun s => done (setF s 0 4294967294)) = true := by
  decide +kernel

/-- T41-3. -/
theorem test_T41_3_fsets : runs
    (setX .reset 0 18446744073709551615) 0x21000000
    (fun s => done (setF s 0 18446744069414584320)) = true := by
  decide +kernel

/-- T41-4. -/
theorem test_T41_4_fsets : runs
    (setX .reset 0 9223372036854775808) 0x21000000
    (fun s => done (setF s 0 9223372032559808513)) = true := by
  decide +kernel

/-- T41-6. -/
theorem test_T41_6_fbig : runs
    { State.reset with bb := [0x01, 0x00, 0x00, 0x00, 0x00, 0x00, 0x00, 0x00, 0x00] } 0x22000000
    (fun s => done (setF s 0 4294967295)) = true := by
  decide +kernel

/-- T41-8. -/
theorem test_T41_8_fbign : runs
    { State.reset with bb := [0x01] } 0x23000000 (fun s => done (setF s 0 18446744069414584320)) = true := by
  decide +kernel

/-- T41-9. -/
theorem test_T41_9_fbign : runs
    { State.reset with bb := [] } 0x23000000 (fun s => done (setF s 0 0)) = true := by
  decide +kernel

/-- T41-10. -/
theorem test_T41_10_fbytes : runs
    { State.reset with bb := [0xFF, 0xFF, 0xFF, 0xFF, 0xFF, 0xFF, 0xFF, 0xFF] } 0x24000000
    (fun s => done (setF s 0 4294967294)) = true := by
  decide +kernel

/-- T41-11. -/
theorem test_T41_11_fsample : runs
    { State.reset with bb := [0x61, 0x62, 0x63] } 0x25000000 (fun s => done (setF s 0 6382179)) = true := by
  decide +kernel

/-- T41-13. -/
theorem test_T41_13_fser : runs
    { (setF .reset 3 258) with bb := [0x07, 0x07, 0x07] } 0x26030000
    (fun s => done { s with bb := [0x00, 0x00, 0x00, 0x00, 0x00, 0x00, 0x01, 0x02] }) = true := by
  decide +kernel

/-- T41-14. -/
theorem test_T41_14_fser : runs
    (setF .reset 3 18446744069414584320) 0x26030000
    (fun s => done { s with bb := [0xFF, 0xFF, 0xFF, 0xFF, 0x00, 0x00, 0x00, 0x00] }) = true := by
  decide +kernel

/-- T41-15. -/
theorem test_T41_15_ftox : runs
    (setF .reset 3 18446744069414584320) 0x27030000
    (fun s => done (setX s 0 18446744069414584320)) = true := by
  decide +kernel

/-- T41-16. -/
theorem test_T41_16_fmov : runs
    (setF .reset 1 5) 0x28210000 (fun s => done (setF s 2 5)) = true := by
  decide +kernel

/-- T41-17. -/
theorem test_T41_17_fadd : runs
    (setF (setF .reset 0 18446744069414584320) 1 1) 0x30201000 (fun s => done (setF s 2 0)) = true := by
  decide +kernel

/-- T41-18. -/
theorem test_T41_18_fadd : runs
    (setF .reset 0 18446744069414584320) 0x30000000
    (fun s => done (setF s 0 18446744069414584319)) = true := by
  decide +kernel

/-- T41-19. -/
theorem test_T41_19_fsub : runs
    (setF (setF .reset 0 0) 1 1) 0x31201000 (fun s => done (setF s 2 18446744069414584320)) = true := by
  decide +kernel

/-- T41-20. -/
theorem test_T41_20_fmul : runs
    (setF .reset 0 18446744069414584320) 0x32100000 (fun s => done (setF s 1 1)) = true := by
  decide +kernel

/-- T41-21. -/
theorem test_T41_21_fmul : runs
    (setF (setF .reset 0 4294967296) 1 4294967296) 0x32201000
    (fun s => done (setF s 2 4294967295)) = true := by
  decide +kernel

/-- T41-22. -/
theorem test_T41_22_fdiv : runs
    (setF (setF .reset 0 3) 1 7) 0x33201000 (fun s => done (setF s 2 7905747458320536138)) = true := by
  decide +kernel

/-- T41-23. -/
theorem test_T41_23_fdiv : runs
    (setF (setF .reset 0 3) 1 0) 0x33201000 (fatalWith 3 0x33201000) = true := by
  decide +kernel

/-- T41-25. -/
theorem test_T41_25_finv : runs
    (setF .reset 0 2) 0x34100000 (fun s => done (setF s 1 9223372034707292161)) = true := by
  decide +kernel

/-- T41-27. -/
theorem test_T41_27_finv : runs
    (setF (setF .reset 0 0) 1 99) 0x34100000 (fatalWith 3 0x34100000) = true := by
  decide +kernel

/-- T41-28. -/
theorem test_T41_28_fexp : runs
    { (setF .reset 0 3) with bb := [0x01, 0x00, 0x00, 0x00, 0x00, 0x00, 0x00, 0x00, 0x01] } 0x35100000
    (fun s => done (setF s 1 4929363563409063111)) = true := by
  decide +kernel

/-- T41-29. -/
theorem test_T41_29_fexp : runs
    { (setF .reset 0 0) with bb := [] } 0x35100000 (fun s => done (setF s 1 1)) = true := by
  decide +kernel

/-- T41-31. -/
theorem test_T41_31_fexpx : runs
    (setX (setF .reset 0 2) 0 64) 0x36100000 (fun s => done (setF s 1 4294967295)) = true := by
  decide +kernel

/-- T41-32. -/
theorem test_T41_32_fexpx : runs
    (setX (setF .reset 0 7) 0 9223372034707292160) 0x36100000
    (fun s => done (setF s 1 18446744069414584320)) = true := by
  decide +kernel

/-- T41-35. -/
theorem test_T41_35_fcmp : runs
    (setF (setF .reset 0 1) 1 18446744069414584320) 0x37001000
    (fun s => done { s with lt := true }) = true := by
  decide +kernel

/-- T41-36. -/
theorem test_T41_36_fcmp : runs
    { (setF (setF .reset 0 18446744069414584320) 1 1) with eq := true } 0x37001000
    (fun s => done { s with eq := false }) = true := by
  decide +kernel

/-- T41-37. -/
theorem test_T41_37_frord : runs
    .reset 0x38900000 (fun s => done (setF s 9 18446744069414584320)) = true := by
  decide +kernel

/-- T41-40. -/
theorem test_T41_40_froot : runs
    (setX .reset 0 4) 0x39000000 (fun s => done (setF s 0 281474976710656)) = true := by
  decide +kernel

/-- T41-44. -/
theorem test_T41_44_froot : runs
    (setX .reset 0 7) 0x39000000 (fatalWith 6 0x39000000) = true := by
  decide +kernel

/-- T41-48. -/
theorem test_T41_48_vminv : runs
    (setV .reset 0 (.seq [.elem 2, .absent, .elem 4])) 0x3A100000
    (fun s => done (setV s 1 (vals [9223372034707292161, 0, 13835058052060938241]))) = true := by
  decide +kernel

/-- T41-49. -/
theorem test_T41_49_vminv : runs
    (setV (setV .reset 0 (vals [2, 0, 4])) 1 (vals [5])) 0x3A100000 (fatalWith 3 0x3A100000) = true := by
  decide +kernel

/-- T42-1. -/
theorem test_T42_1_vclr : runs
    (setV .reset 3 (.none)) 0x40300000 (fun s => done (setV s 3 (.seq []))) = true := by
  decide +kernel

/-- T42-2. -/
theorem test_T42_2_vpush : runs
    (setF (setV .reset 0 (vals [1])) 2 9) 0x41020000 (fun s => done (setV s 0 (vals [1, 9]))) = true := by
  decide +kernel

/-- T42-3. -/
theorem test_T42_3_vpush : runs
    (setF (setV .reset 0 (.none)) 2 9) 0x41020000 (fatalWith 2 0x41020000) = true := by
  decide +kernel

/-- T42-5. -/
theorem test_T42_5_vget : runs
    (setF (setX (setV .reset 0 (.seq [.elem 4, .absent, .elem 6])) 1 1) 0 77) 0x42001000
    (fun s => done (setF s 0 0)) = true := by
  decide +kernel

/-- T42-6. -/
theorem test_T42_6_vget : runs
    (setX (setV .reset 0 (vals [4, 5, 6])) 1 3) 0x42001000 (fatalWith 7 0x42001000) = true := by
  decide +kernel

/-- T42-7. -/
theorem test_T42_7_vset : runs
    (setF (setX (setV .reset 0 (.seq [.elem 4, .absent, .elem 6])) 1 1) 0 8) 0x43001000
    (fun s => done (setV s 0 (vals [4, 8, 6]))) = true := by
  decide +kernel

/-- T42-8. -/
theorem test_T42_8_vabs : runs
    (setX (setV .reset 0 (vals [4, 5, 6])) 1 2) 0x44001000
    (fun s => done (setV s 0 (.seq [.elem 4, .elem 5, .absent]))) = true := by
  decide +kernel

/-- T42-9. -/
theorem test_T42_9_vpres : runs
    (setX (setV .reset 0 (.seq [.elem 4, .absent, .elem 0])) 1 1) 0x45001000
    (fun s => done (setX s 0 0)) = true := by
  decide +kernel

/-- T42-10. -/
theorem test_T42_10_vpres : runs
    (setX (setX (setV .reset 0 (.seq [.elem 4, .absent, .elem 0])) 1 2) 0 9) 0x45001000
    (fun s => done (setX s 0 1)) = true := by
  decide +kernel

/-- T42-11. -/
theorem test_T42_11_vlen : runs
    (setV .reset 0 (.seq [.elem 4, .absent, .elem 0])) 0x46000000
    (fun s => done (setX s 0 3)) = true := by
  decide +kernel

/-- T42-12. -/
theorem test_T42_12_vmov : runs
    (setV .reset 0 (.seq [.elem 1, .absent, .elem 3])) 0x4A100000
    (fun s => done (setV s 1 (.seq [.elem 1, .absent, .elem 3]))) = true := by
  decide +kernel

/-- T42-13. -/
theorem test_T42_13_vrev : runs
    (setV .reset 0 (.seq [.elem 1, .absent, .elem 3, .elem 0])) 0x4B100000
    (fun s => done (setV s 1 (.seq [.elem 0, .elem 3, .absent, .elem 1]))) = true := by
  decide +kernel

/-- T42-14. -/
theorem test_T42_14_vtrim : runs
    (setV .reset 0 (.seq [.elem 1, .elem 0, .elem 3, .elem 0, .absent])) 0x49100000
    (fun s => done (setV s 1 (vals [1, 0, 3]))) = true := by
  decide +kernel

/-- T42-15. -/
theorem test_T42_15_vtrim : runs
    (setV .reset 0 (.seq [.elem 0, .absent, .elem 0])) 0x49000000
    (fun s => done (setV s 0 (.seq []))) = true := by
  decide +kernel

/-- T42-17. -/
theorem test_T42_17_vsubsl : runs
    (setX (setX (setV .reset 0 (vals [10, 11, 12, 13, 14])) 0 1) 1 2) 0x4C100100
    (fun s => done (setV s 1 (vals [11, 13]))) = true := by
  decide +kernel

/-- T42-20. -/
theorem test_T42_20_vsubsl : runs
    (setX (setX (setV .reset 0 (vals [10, 11, 12])) 0 18446744073709551615) 1 1) 0x4C100100
    (fun s => done { (setV s 1 (.none)) with nores := true }) = true := by
  decide +kernel

/-- T42-22. -/
theorem test_T42_22_vpad : runs
    (setX (setV .reset 0 (.seq [.elem 1, .absent])) 0 4) 0x47100000
    (fun s => done (setV s 1 (.seq [.elem 1, .absent, .elem 0, .elem 0]))) = true := by
  decide +kernel

/-- T42-23. -/
theorem test_T42_23_vpad : runs
    (setX (setV .reset 0 (vals [1, 2, 3])) 0 2) 0x47100000 (fatalWith 9 0x47100000) = true := by
  decide +kernel

/-- T42-25. -/
theorem test_T42_25_vtrunc : runs
    (setX (setV .reset 0 (vals [1, 2, 3])) 0 2) 0x48100000
    (fun s => done (setV s 1 (vals [1, 2]))) = true := by
  decide +kernel

/-- T42-26. -/
theorem test_T42_26_vtrunc : runs
    (setX (setV .reset 0 (vals [1, 2, 3])) 0 4) 0x48100000 (fatalWith 9 0x48100000) = true := by
  decide +kernel

/-- T42-27. -/
theorem test_T42_27_vdeg : runs
    (setV .reset 0 (vals [1, 2, 0, 0])) 0x4D000000 (fun s => done (setX s 0 1)) = true := by
  decide +kernel

/-- T42-28. -/
theorem test_T42_28_vdeg : runs
    (setV .reset 0 (.seq [.elem 0, .absent])) 0x4D000000
    (fun s => done (setX s 0 18446744073709551615)) = true := by
  decide +kernel

/-- T42-30. -/
theorem test_T42_30_visz : runs
    { (setV .reset 0 (.seq [.elem 0, .absent, .elem 0])) with lt := true } 0x4E000000
    (fun s => done { s with eq := true }) = true := by
  decide +kernel

/-- T42-32. -/
theorem test_T42_32_veq : runs
    (setV (setV .reset 0 (vals [1, 0])) 1 (vals [1])) 0x4F001000 done = true := by
  decide +kernel

/-- T42-33. -/
theorem test_T42_33_veq : runs
    (setV (setV .reset 0 (.seq [.elem 1, .absent])) 1 (vals [1, 0])) 0x4F001000
    (fun s => done { s with eq := true }) = true := by
  decide +kernel

/-- T43-1. -/
theorem test_T43_1_vadd : runs
    (setV (setV .reset 0 (vals [1, 2, 3])) 1 (vals [18446744069414584320, 18446744069414584319])) 0x50201000
    (fun s => done (setV s 2 (vals [0, 0, 3]))) = true := by
  decide +kernel

/-- T43-3. -/
theorem test_T43_3_vadd : runs
    (setV (setV .reset 0 (.seq [])) 1 (.seq [.absent, .elem 5])) 0x50201000
    (fun s => done (setV s 2 (vals [0, 5]))) = true := by
  decide +kernel

/-- T43-4. -/
theorem test_T43_4_vsub : runs
    (setV (setV .reset 0 (vals [1, 2])) 1 (vals [1, 2, 3])) 0x51201000
    (fun s => done (setV s 2 (vals [0, 0, 18446744069414584318]))) = true := by
  decide +kernel

/-- T43-6. -/
theorem test_T43_6_vmul : runs
    (setV (setV .reset 0 (vals [1, 2])) 1 (vals [3, 4, 5])) 0x52201000
    (fun s => done (setV s 2 (vals [3, 10, 13, 10]))) = true := by
  decide +kernel

/-- T43-8. -/
theorem test_T43_8_vmul : runs
    (setV (setV .reset 0 (vals [18446744069414584320, 1])) 1 (vals [1, 1])) 0x52201000
    (fun s => done (setV s 2 (vals [18446744069414584320, 0, 1]))) = true := by
  decide +kernel

/-- T43-10. -/
theorem test_T43_10_vdiv : runs
    (setV (setV .reset 0 (vals [5, 13, 22, 15])) 1 (vals [4, 5])) 0x53201000
    (fun s => done (setV s 2 (vals [1, 2, 3]))) = true := by
  decide +kernel

/-- T43-15. -/
theorem test_T43_15_vdiv : runs
    (setV (setV .reset 0 (vals [1, 2, 3])) 1 (vals [0, 2, 0])) 0x53201000
    (fatalWith 3 0x53201000) = true := by
  decide +kernel

/-- T43-18. -/
theorem test_T43_18_vmod : runs
    (setV (setV .reset 0 (vals [5, 13, 22, 15])) 1 (vals [4, 5])) 0x54201000
    (fun s => done (setV s 2 (vals [1]))) = true := by
  decide +kernel

/-- T43-21. -/
theorem test_T43_21_vmod : runs
    (setV (setV .reset 0 (vals [1])) 1 (vals [1, 2])) 0x54201000
    (fun s => done { (setV s 2 (.none)) with nores := true }) = true := by
  decide +kernel

/-- T43-22. -/
theorem test_T43_22_vscale : runs
    (setF (setV .reset 0 (.seq [.elem 1, .absent, .elem 3])) 0 2) 0x55100000
    (fun s => done (setV s 1 (vals [2, 0, 6]))) = true := by
  decide +kernel

/-- T43-24. -/
theorem test_T43_24_veval : runs
    (setF (setV .reset 0 (vals [1, 2, 3, 4])) 0 2) 0x56100000 (fun s => done (setF s 1 49)) = true := by
  decide +kernel

/-- T43-27. -/
theorem test_T43_27_vevald : runs
    (setV (setV .reset 0 (vals [1, 1])) 1 (vals [0, 1, 1, 18446744069414584320])) 0x57201000
    (fun s => done (setV s 2 (vals [1, 2, 2, 0]))) = true := by
  decide +kernel

/-- T43-28. -/
theorem test_T43_28_vevalq : runs
    (setF (setV .reset 0 (vals [1, 2, 3, 4])) 0 2) 0x58100000 (fun s => done (setF s 1 49)) = true := by
  decide +kernel

/-- T43-29. -/
theorem test_T43_29_vevalq : runs
    (setF (setV .reset 0 (vals [1, 2, 3])) 0 2) 0x58100000 (fatalWith 9 0x58100000) = true := by
  decide +kernel

/-- T43-31. -/
theorem test_T43_31_vzero : runs
    (setV .reset 0 (vals [1, 2, 4])) 0x59100000
    (fun s => done (setV s 1 (vals [18446744069414584313, 14, 18446744069414584314, 1]))) = true := by
  decide +kernel

/-- T43-34. -/
theorem test_T43_34_vinterp : runs
    (setV (setV .reset 0 (vals [1, 2, 4])) 1 (vals [2, 3, 5])) 0x5A201000
    (fun s => done (setV s 2 (vals [1, 1, 0]))) = true := by
  decide +kernel

/-- T43-36. -/
theorem test_T43_36_vinterp : runs
    (setV (setV .reset 0 (vals [1, 2, 1])) 1 (vals [2, 3, 2])) 0x5A201000
    (fun s => done { (setV s 2 (.none)) with nores := true }) = true := by
  decide +kernel

/-- T43-41. -/
theorem test_T43_41_vpow : runs
    (setX (setF .reset 0 281474976710656) 0 4) 0x5B000000
    (fun s =>
      done (setV s 0 (vals [1, 281474976710656, 18446744069414584320, 18446462594437873665]))) = true := by
  decide +kernel

/-- T43-42. -/
theorem test_T43_42_vpow : runs
    (setX (setF .reset 0 0) 0 3) 0x5B000000 (fun s => done (setV s 0 (vals [1, 0, 0]))) = true := by
  decide +kernel

/-- T44-1. -/
theorem test_T44_1_vntt : runs
    (setF (setV .reset 0 (vals [1, 2, 3, 4])) 0 281474976710656) 0x60100000
    (fun s =>
      done (setV s 1 (vals [10, 18446181119461163007, 18446744069414584319, 562949953421310]))) = true := by
  decide +kernel

/-- T44-8. -/
theorem test_T44_8_vntt : runs
    (setF (setV .reset 0 (vals [1, 2, 3, 4])) 0 18446744069414584320) 0x60100000
    (fatalWith 5 0x60100000) = true := by
  decide +kernel

/-- T44-11. -/
theorem test_T44_11_vintt : runs
    (setF (setV .reset 0 (vals [10, 18446181119461163007, 18446744069414584319, 562949953421310])) 0 281474976710656) 0x61100000
    (fun s => done (setV s 1 (vals [1, 2, 3, 4]))) = true := by
  decide +kernel

/-- T44-15. -/
theorem test_T44_15_vintt : runs
    (setF (setV .reset 0 (vals [1, 2, 3, 4])) 0 0) 0x61100000 (fatalWith 5 0x61100000) = true := by
  decide +kernel

/-- T44-16. -/
theorem test_T44_16_vfmul : runs
    (setF (setF (setV (setV .reset 0 (vals [1, 2, 3, 4, 5])) 1 (vals [1, 2, 3, 4, 5])) 0 7) 1 18446744069414584320) 0x62201010
    (fun s => done (setV s 2 (vals [1, 4, 10, 20, 35, 44, 46, 40, 25]))) = true := by
  decide +kernel

/-- T44-22. -/
theorem test_T44_22_vfmul : runs
    (setF (setF (setV (setV .reset 0 (vals [1, 2, 3, 4, 5])) 1 (vals [1, 2, 3, 4, 5])) 0 18446744069397807105) 1 8) 0x62201010
    (fatalWith 6 0x62201010) = true := by
  decide +kernel

/-- T60-4. -/
theorem test_T60_4_illegal : runs
    (setF (setF .reset 0 1) 1 2) 0x30201001 (fatalWith 1 0x30201001) = true := by
  decide +kernel

/-- T60-6. -/
theorem test_T60_6_illegal : runs
    .reset 0x11000100 (fatalWith 1 0x11000100) = true := by
  decide +kernel
/-! ### Witnesses: states and operands that meet the premises of the statements

`wit v0 v1 x0 x1 f0 f1` is the state after reset with these registers written. A theorem `witness_<Statement>` shows, clause
by clause, premises of the statement that hold together, at the ends of their ranges where they have any. -/

def wit (v0 v1 : PolyVal) (x0 x1 : Word) (f0 f1 : Fp) : State :=
  setF (setF (setX (setX (setV (setV .reset 0 v0) 1 v1) 0 x0) 1 x1) 0 f0) 1 f1

theorem wit_v0 (v0 v1 : PolyVal) (x0 x1 : Word) (f0 f1 : Fp) : getV (wit v0 v1 x0 x1 f0 f1) 0 = v0 := rfl

theorem wit_v1 (v0 v1 : PolyVal) (x0 x1 : Word) (f0 f1 : Fp) : getV (wit v0 v1 x0 x1 f0 f1) 1 = v1 := rfl

theorem wit_x0 (v0 v1 : PolyVal) (x0 x1 : Word) (f0 f1 : Fp) : getX (wit v0 v1 x0 x1 f0 f1) 0 = x0 := rfl

theorem wit_x1 (v0 v1 : PolyVal) (x0 x1 : Word) (f0 f1 : Fp) : getX (wit v0 v1 x0 x1 f0 f1) 1 = x1 := rfl

theorem wit_f0 (v0 v1 : PolyVal) (x0 x1 : Word) (f0 f1 : Fp) : getF (wit v0 v1 x0 x1 f0 f1) 0 = f0 := rfl

theorem wit_f1 (v0 v1 : PolyVal) (x0 x1 : Word) (f0 f1 : Fp) : getF (wit v0 v1 x0 x1 f0 f1) 1 = f1 := rfl

/-- A state with one sequence in v0 and the integer `n` in x0. -/
def witN (sl : List Slot) (n : Nat) : State := wit (.seq sl) (.seq []) (BitVec.ofNat 64 n) 0 0 0

/-- A state with two sequences and two field values. -/
def wit2 (a b : List Slot) (f0 f1 : Fp) : State := wit (.seq a) (.seq b) 0 0 f0 f1

/-- A state whose v0 holds `NONE`. -/
def witNone : State := wit .none (.seq []) 0 0 0 0

/-- `n` present ones. -/
def ones (n : Nat) : List Slot := List.replicate n (.elem 1)

theorem length_ones (n : Nat) : (ones n).length = n := by simp [ones]

theorem ofNat_toNat_of_le {n : Nat} (h : n ≤ LMAX + 1) : (BitVec.ofNat 64 n).toNat = n := by
  have := LMAX_le
  rw [BitVec.toNat_ofNat, Nat.mod_eq_of_lt (by omega)]

/-- A state whose host is about to make one access. -/
def witHost (s : State) (a : HostAccess) : State := { s with host := [a] }

theorem witNone_v0 : getV witNone 0 = .none := rfl

/-- The premise of `faultsOnNone`, for every command that reads v0 here. -/
theorem witness_faultsOnNone :
    ([.vminv 1 0, .vpush 0 0, .vget 0 0 0, .vpres 0 0 0, .vlen 0 0, .vset 0 0 0, .vabs 0 0, .vpad 1 0 0,
      .vtrunc 1 0 0, .vtrim 1 0, .vmov 1 0, .vrev 1 0, .vsubsl 1 0 0 0, .vdeg 0 0, .visz 0, .veq 1 0,
      .vadd 1 1 0, .vsub 1 0 1, .vmul 1 1 0, .vdiv 1 0 1, .vmod 1 1 0, .vscale 1 0 0, .veval 0 0 0,
      .vevald 1 1 0, .vevalq 0 0 0, .vzero 1 0, .vinterp 1 0 1, .vntt 1 0 0, .vintt 1 0 0,
      .vfmul 1 1 0 0 0] : List Instr).all (fun i =>
        (polySources i).any fun r => getV witNone r == .none) = true := by decide +kernel

theorem witness_EncodeOfDecodeIsTheWord : decode 0x62FFFFF0 = some (.vfmul 15 15 15 15 15) := by decide +kernel

theorem witness_IllegalWordsAreExactlyTheUnspelled :
    wordLegal 0x30201000 = true ∧ (State.reset.fatal = false ∧ wordLegal 0x30201001 = false) := by decide +kernel

theorem witness_StepRunsTheDecodedCommand :
    State.reset.fatal = false ∧ (witHost .reset (cmdW 0x30201000)).host = .write 0x0 0x30201000 :: [] ∧
    decode ((0x30201000 : Word).extractLsb' 0 32) = some (.fadd 2 0 1) ∧ State.reset.host = [] := by
  decide +kernel

/-- A command that completes and a command that is fatal. -/
theorem witness_EveryCommandCompletesOrIsFatal :
    State.reset.fatal = false ∧ gives (exec .nop .reset) (done .reset) = true ∧
    gives (exec (.finv 1 0) .reset) (fatalWith 3 0x34100000 .reset) = true := by decide +kernel

theorem witness_FatalEntryIsPrecise :
    State.reset.fatal = false ∧ issueCommand 0x34100000 .reset = .next (fatalWith 3 0x34100000 .reset) ∧
    (fatalWith 3 0x34100000 .reset).fatal = true :=
  ⟨rfl, eq_of_gives (by decide +kernel), rfl⟩

/-- The invariant of a state with a full byte buffer, a full polynomial register and a `NONE`. -/
theorem inv_witFull :
    Inv { wit (.seq (ones LMAX)) .none 0 0 0 0 with bb := List.replicate BMAX 0 } where
  polyFits i := by
    have h : ∀ j : VReg, getV { wit (.seq (ones LMAX)) .none 0 0 0 0 with bb := List.replicate BMAX 0 } j =
        if j = 0 then .seq (ones LMAX) else if j = 1 then .none else .seq [] := by
      intro j
      fin_cases j <;> rfl
    rw [h]
    split
    · simp [PolyVal.fits, length_ones]
    · split <;> simp [PolyVal.fits]
  bufferFits := by simp
  quiet _ := ⟨rfl, rfl⟩
  recorded h := by cases h
  faultHigh := by decide

theorem witness_FatalCausesAreThoseListed :
    ∃ s t, Inv s ∧ s.fatal = false ∧ exec (.finv 1 0) s = .next t ∧ t.fatal = true :=
  ⟨_, _, inv_witFull, rfl, rfl, rfl⟩

theorem witness_EveryStepKeepsTheInvariant : ∃ s t, Inv s ∧ step s = .next t := ⟨_, _, inv_witFull, rfl⟩

/-- A FATAL state, and the two resets that leave it. -/
theorem witness_FatalStateIsLeftOnlyByReset :
    (fatalWith 3 0x34100000 .reset).fatal = true ∧
    (performAccess (.write 0x6 1) (fatalWith 3 0x34100000 .reset) = .next .reset ∧
      State.reset.fatal = false) ∧
    performAccess .platformReset (fatalWith 3 0x34100000 .reset) = .next .reset :=
  ⟨rfl, ⟨rfl, rfl⟩, rfl⟩

theorem witness_ResetFromAnyState : (3 : Word).getLsbD 0 = true ∧ (2 : Word).getLsbD 0 = false := by decide

/-- The values the clauses name, and the ends of the reserved addresses. -/
theorem witness_WindowFollowsTheMap :
    (zext LMAX).toNat = LMAX ∧ (zext BMAX).toNat = BMAX ∧ 0xC ≤ (0xC : BitVec 4).toNat ∧
    0xC ≤ (0xF : BitVec 4).toNat ∧ (3 : Word).getLsbD 0 = true ∧ (2 : Word).getLsbD 0 = false ∧
    (([0x2, 0x3, 0x4, 0x5, 0x7, 0x8, 0x9, 0xA, 0xB, 0xC, 0xF] : List (BitVec 4)).all fun a =>
      a != 0x0 && a != 0x1 && a != 0x6) = true := by
  have h1 := LMAX_le
  have h2 := BMAX_lt
  refine ⟨?_, ?_, by decide, by decide, by decide, by decide, by decide⟩ <;>
    simp only [zext, BitVec.toNat_ofNat] <;> exact Nat.mod_eq_of_lt (by omega)

theorem witness_EveryCommandsFrame :
    ∃ t, exec (.fadd 2 0 1) (wit2 [] [] 3 4) = .next t ∧ destX (.fadd 2 0 1) ≠ some 0 ∧
      destF (.fadd 2 0 1) ≠ some 3 ∧ destV (.fadd 2 0 1) ≠ some 2 ∧ writesBuffer (.fadd 2 0 1) = false ∧
      writesDout (.fadd 2 0 1) = false ∧ writesEqFlag (.fadd 2 0 1) = false ∧
      writesLtFlag (.fadd 2 0 1) = false ∧ writesNoresFlag (.fadd 2 0 1) = false :=
  ⟨_, rfl, by decide, by decide, by decide, rfl, rfl, rfl, rfl, rfl⟩

theorem witness_ReadingNoneIsFatal :
    (0 : VReg) ∈ polySources (.vadd 2 1 0) ∧ getV witNone 0 = .none := by decide +kernel

/-- A command of the four that finds no result, one that finds one, and a command that is none of the four. -/
theorem witness_NoResultIsSignalled :
    (∃ t, exec (.vdiv 2 0 1) (wit2 (ones 1) (ones 2) 0 0) = .next t ∧ t.fatal = false ∧
      destV (.vdiv 2 0 1) = some 2 ∧ writesNoresFlag (.vdiv 2 0 1) = true ∧ getV t 2 = .none) ∧
    (∃ t, exec (.vsubsl 2 0 1 0) (witN (ones 3) 1) = .next t ∧ t.fatal = false ∧
      destV (.vsubsl 2 0 1 0) = some 2 ∧ writesNoresFlag (.vsubsl 2 0 1 0) = true ∧ getV t 2 ≠ .none) ∧
    ∃ t, exec (.vmov 2 0) (witN (ones 3) 1) = .next t ∧ t.fatal = false ∧ destV (.vmov 2 0) = some 2 ∧
      writesNoresFlag (.vmov 2 0) = false :=
  ⟨⟨_, rfl, rfl, rfl, rfl, rfl⟩, ⟨_, rfl, rfl, rfl, rfl, by decide⟩, ⟨_, rfl, rfl, rfl, rfl⟩⟩

theorem witness_ArithmeticLeavesOnlyPresentSlots :
    ∃ t, keepsSlots (.vadd 2 0 1) = false ∧ (wit2 [.absent] (ones 2) 0 0).fatal = false ∧
      exec (.vadd 2 0 1) (wit2 [.absent] (ones 2) 0 0) = .next t ∧ t.fatal = false ∧
      destV (.vadd 2 0 1) = some 2 :=
  ⟨{ setV (wit2 [.absent] (ones 2) 0 0) 2 (vals [1, 1]) with cmdcnt := 1 }, rfl, rfl,
    eq_of_gives (by decide +kernel), rfl, rfl⟩

theorem witness_AbsentReadsAsZero :
    ∃ t u, tellsAbsent (.vrev 0 0) = false ∧ exec (.vrev 0 0) (wit2 [.absent, .elem 1] [] 0 0) = .next t ∧
      exec (.vrev 0 0) (fillAbsent (wit2 [.absent, .elem 1] [] 0 0)) = .next u :=
  ⟨_, done (setV .reset 0 (vals [1, 0])), rfl, rfl, eq_of_gives (by decide +kernel)⟩

/-- A full buffer, the longest that is not full, and the empty one. -/
theorem witness_BytePushes :
    ({ State.reset with bb := List.replicate BMAX 0 } : State).bb.length = BMAX ∧
    ({ State.reset with bb := List.replicate (BMAX - 1) 0 } : State).bb.length ≠ BMAX ∧
    State.reset.bb.length ≠ BMAX := by
  have := eight_le_BMAX
  refine ⟨by simp, by simp; omega, by simp [State.reset]; omega⟩

/-- The index equal to the length, and the last index. -/
theorem witness_BgetReadsAByte :
    ({ witN [] 2 with bb := [8, 9] } : State).bb.length ≤ (getX (witN [] 2) 0).toNat ∧
    ({ witN [] 1 with bb := [8, 9] } : State).bb[(getX (witN [] 1) 0).toNat]? = some 9 := by decide +kernel

/-- A sum that wraps and one that does not, a difference that borrows. -/
theorem witness_FieldSumDifferenceProduct :
    getF (wit2 [] [] 18446744069414584320 1) 0 = 18446744069414584320 ∧
    getF (wit2 [] [] 18446744069414584320 1) 1 = 1 := by decide +kernel

theorem witness_FieldDivisionAndInverse :
    (getF (wit2 [] [] 3 0) 0 = 3 ∧ getF (wit2 [] [] 3 0) 1 = 0 ∧ (3 : Fp) ≠ 0 ∧ (0 : Fp) = 0) ∧
    (getF (wit2 [] [] 0 7) 0 = 0 ∧ getF (wit2 [] [] 0 7) 1 = 7 ∧ (0 : Fp) = 0 ∧ (7 : Fp) ≠ 0) := by
  decide +kernel

/-- A size that does not divide the order, 0, the least and the greatest size, and `2^32`. -/
theorem witness_RootsOfUnity :
    ((getX (witN [] 7) 0).toNat = 7 ∧ ¬ 7 ∣ modulus - 1) ∧
    (getX (witN [] 0) 0).toNat = 0 ∧
    ((getX (witN [] 1) 0).toNat = 1 ∧ 1 ∣ modulus - 1) ∧
    ((getX (witN [] 4294967296) 0).toNat = 4294967296 ∧ 4294967296 ∣ modulus - 1) ∧
    ((getX (witN [] (modulus - 1)) 0).toNat = modulus - 1 ∧ modulus - 1 ∣ modulus - 1) := by
  decide +kernel

/-- A present zero; skipped and present slots, among them a sequence of the greatest length. -/
theorem witness_BatchInversion :
    (getV (witN [.elem 2, .elem 0] 0) 0 = .seq [.elem 2, .elem 0] ∧ Slot.elem 0 ∈ [Slot.elem 2, .elem 0] ∧
      [Slot.elem 2, .elem 0].length ≤ LMAX) ∧
    (getV (witN [.elem 2, .absent] 0) 0 = .seq [.elem 2, .absent] ∧
      Slot.elem 0 ∉ [Slot.elem 2, .absent] ∧ [Slot.elem 2, .absent].length ≤ LMAX) ∧
    (getV (witN (ones LMAX) 0) 0 = .seq (ones LMAX) ∧ Slot.elem 0 ∉ ones LMAX ∧
      (ones LMAX).length ≤ LMAX) := by
  refine ⟨by decide +kernel, by decide +kernel, wit_v0 .., ?_, by simp [ones]⟩
  intro h
  have := List.eq_of_mem_replicate h
  exact absurd this (by decide)

theorem witness_RunningProductProcedureAgrees : Slot.elem 0 ∉ [Slot.elem 2, .absent, .elem 4] := by decide

/-- The full register and the longest that is not full. -/
theorem witness_ClearAndPush :
    (getV (witN (ones LMAX) 0) 0 = .seq (ones LMAX) ∧ (ones LMAX).length = LMAX) ∧
    (getV (witN (ones (LMAX - 1)) 0) 0 = .seq (ones (LMAX - 1)) ∧ (ones (LMAX - 1)).length < LMAX) := by
  have := sixteen_le_LMAX
  refine ⟨⟨wit_v0 .., length_ones _⟩, wit_v0 .., ?_⟩
  rw [length_ones]; omega

/-- The index equal to the length, an absent slot, the last slot. -/
theorem witness_SlotAndLengthReads :
    (getV (witN [.absent, .elem 4] 2) 0 = .seq [.absent, .elem 4] ∧
      [Slot.absent, .elem 4].length ≤ (getX (witN [.absent, .elem 4] 2) 0).toNat) ∧
    [Slot.absent, .elem 4][(getX (witN [.absent, .elem 4] 0) 0).toNat]? = some .absent ∧
    [Slot.absent, .elem 4][(getX (witN [.absent, .elem 4] 1) 0).toNat]? = some (.elem 4) := by decide +kernel

theorem witness_SlotWrites :
    (getV (witN (ones 2) 2) 0 = .seq (ones 2) ∧ (ones 2).length ≤ (getX (witN (ones 2) 2) 0).toNat) ∧
    (getV (witN (ones 2) 1) 0 = .seq (ones 2) ∧ (getX (witN (ones 2) 1) 0).toNat < (ones 2).length) := by
  decide +kernel

/-- A length below, at and above the source's; LMAX and one more. -/
theorem witness_PaddingAndTruncation :
    ((getX (witN (ones 2) 1) 0).toNat = 1 ∧ getV (witN (ones 2) 1) 0 = .seq (ones 2) ∧ 1 < (ones 2).length) ∧
    ((getX (witN (ones 2) (LMAX + 1)) 0).toNat = LMAX + 1 ∧ (ones 2).length ≤ LMAX + 1 ∧ LMAX < LMAX + 1) ∧
    ((getX (witN (ones 2) LMAX) 0).toNat = LMAX ∧ (ones 2).length ≤ LMAX ∧ LMAX ≤ LMAX) ∧
    ((getX (witN (ones 2) 3) 0).toNat = 3 ∧ (ones 2).length < 3) ∧
    ((getX (witN (ones 2) 2) 0).toNat = 2 ∧ 2 ≤ (ones 2).length) := by
  have := sixteen_le_LMAX
  refine ⟨by decide +kernel, ⟨ofNat_toNat_of_le (Nat.le_refl _), ?_, Nat.lt_succ_self _⟩,
    ⟨ofNat_toNat_of_le (Nat.le_succ _), ?_, Nat.le_refl _⟩, by decide +kernel, by decide +kernel⟩ <;>
    rw [length_ones] <;> omega

theorem witness_TrimmingIsLeast : getV (witN [.elem 1, .absent] 0) 0 = .seq [.elem 1, .absent] := by
  decide +kernel

theorem witness_CopyAndReverse : getV (witN [.elem 1, .absent] 0) 0 = .seq [.elem 1, .absent] := by
  decide +kernel

/-- A negative start, a start at the length, a step of 0, and the last start with the greatest step. -/
theorem witness_StridedSubslice :
    (getX (wit (.seq (ones 3)) (.seq []) (BitVec.allOnes 64) 1 0 0) 0).toInt = -1 ∧
    ((getX (witN (ones 3) 3) 0).toInt = 3 ∧ ((ones 3).length : Int) ≤ 3) ∧
    (getX (witN (ones 3) 0) 1).toInt = 0 ∧
    (getV (wit (.seq (ones 3)) (.seq []) 2 9223372036854775807 0 0) 0 = .seq (ones 3) ∧
      (getX (wit (.seq (ones 3)) (.seq []) 2 9223372036854775807 0 0) 0).toInt = 2 ∧
      (getX (wit (.seq (ones 3)) (.seq []) 2 9223372036854775807 0 0) 1).toInt = 9223372036854775807 ∧
      (2 : Int) < ((ones 3).length : Int)) := by
  decide +kernel

theorem coeffAt_zeros (i : Nat) : coeffAt (coef [Slot.elem 0, .absent]) i = 0 := by
  match i with
  | 0 | 1 | _ + 2 => rfl

/-- The zero polynomial of two slots, one of degree 1 with a zero above it. -/
theorem witness_DegreeZeroTestEquality :
    (getV (wit2 [.elem 0, .absent] [] 0 0) 0 = .seq [.elem 0, .absent] ∧
      getV (wit2 [.elem 0, .absent] [] 0 0) 1 = .seq [] ∧
      ∀ i, coeffAt (coef [Slot.elem 0, .absent]) i = 0) ∧
    (getV (wit2 [.elem 1, .elem 2, .elem 0] [] 0 0) 0 = .seq [.elem 1, .elem 2, .elem 0] ∧
      coeffAt (coef [Slot.elem 1, .elem 2, .elem 0]) 1 ≠ 0 ∧
      ∀ i, 1 < i → coeffAt (coef [Slot.elem 1, .elem 2, .elem 0]) i = 0) := by
  refine ⟨⟨rfl, rfl, coeffAt_zeros⟩, rfl, by decide, ?_⟩
  intro i hi
  match i, hi with
  | 2, _ | _ + 3, _ => rfl

theorem wit2_seq (a b : List Slot) (f0 f1 : Fp) :
    getV (wit2 a b f0 f1) 0 = .seq a ∧ getV (wit2 a b f0 f1) 1 = .seq b := ⟨rfl, rfl⟩

/-- Lengths that differ, one of them the greatest. -/
theorem witness_PolynomialSumAndDifference :
    getV (wit2 (ones LMAX) [] 0 0) 0 = .seq (ones LMAX) ∧ getV (wit2 (ones LMAX) [] 0 0) 1 = .seq [] ∧
    (ones LMAX).length ≤ LMAX ∧ ([] : List Slot).length ≤ LMAX :=
  ⟨wit_v0 .., wit_v1 .., by rw [length_ones], Nat.zero_le _⟩

/-- An empty operand, a product of LMAX + 1 slots and one of LMAX. -/
theorem witness_PolynomialProduct :
    (getV (wit2 [] (ones 2) 0 0) 0 = .seq [] ∧ getV (wit2 [] (ones 2) 0 0) 1 = .seq (ones 2) ∧
      (([] : List Slot).length = 0 ∨ (ones 2).length = 0)) ∧
    (getV (wit2 (ones LMAX) (ones 2) 0 0) 0 = .seq (ones LMAX) ∧
      getV (wit2 (ones LMAX) (ones 2) 0 0) 1 = .seq (ones 2) ∧ 0 < (ones LMAX).length ∧
      0 < (ones 2).length ∧ LMAX < (ones LMAX).length + (ones 2).length - 1) ∧
    (getV (wit2 (ones LMAX) (ones 1) 0 0) 0 = .seq (ones LMAX) ∧
      getV (wit2 (ones LMAX) (ones 1) 0 0) 1 = .seq (ones 1) ∧ 0 < (ones LMAX).length ∧
      0 < (ones 1).length ∧ (ones LMAX).length + (ones 1).length - 1 ≤ LMAX) := by
  have := sixteen_le_LMAX
  simp only [wit2_seq, length_ones, true_and]
  refine ⟨.inl rfl, ⟨?_, ?_, ?_⟩, ?_, ?_, ?_⟩ <;> omega

/-- The tests VDIV and VMOD share: an empty divisor, a shorter dividend, a divisor whose last slot is 0, equal lengths. -/
theorem witness_PolynomialQuotient :
    (getV (wit2 (ones 3) [] 0 0) 0 = .seq (ones 3) ∧ getV (wit2 (ones 3) [] 0 0) 1 = .seq [] ∧
      (ones 3).length ≤ LMAX ∧ ([] : List Slot).length = 0) ∧
    (getV (wit2 (ones 1) (ones 2) 0 0) 0 = .seq (ones 1) ∧ (ones 1).length < (ones 2).length) ∧
    (getV (wit2 (ones 2) [.elem 1, .absent] 0 0) 1 = .seq [.elem 1, .absent] ∧ 0 < 2 ∧
      [Slot.elem 1, .absent].length ≤ (ones 2).length ∧ coeffAt (coef [Slot.elem 1, .absent]) 1 = 0) ∧
    (getV (wit2 (ones 2) (ones 2) 0 0) 0 = .seq (ones 2) ∧ (ones 2).length ≤ LMAX ∧
      0 < (ones 2).length ∧ (ones 2).length ≤ (ones 2).length ∧
      coeffAt (coef (ones 2)) ((ones 2).length - 1) ≠ 0) := by decide +kernel

theorem witness_PolynomialRemainder :
    (getV (wit2 (ones 3) [] 0 0) 0 = .seq (ones 3) ∧ getV (wit2 (ones 3) [] 0 0) 1 = .seq [] ∧
      (ones 3).length ≤ LMAX ∧ ([] : List Slot).length = 0) ∧
    (getV (wit2 [] (ones 1) 0 0) 0 = .seq [] ∧ ([] : List Slot).length < (ones 1).length) ∧
    (getV (wit2 (ones 2) [.elem 1, .elem 0] 0 0) 1 = .seq [.elem 1, .elem 0] ∧ 0 < 2 ∧
      [Slot.elem 1, .elem 0].length ≤ (ones 2).length ∧ coeffAt (coef [Slot.elem 1, .elem 0]) 1 = 0) ∧
    (getV (wit2 (ones 3) (ones 1) 0 0) 0 = .seq (ones 3) ∧ (ones 3).length ≤ LMAX ∧
      0 < (ones 1).length ∧ (ones 1).length ≤ (ones 3).length ∧
      coeffAt (coef (ones 1)) ((ones 1).length - 1) ≠ 0) := by decide +kernel

/-- Four slots, and the lengths beside four. -/
theorem witness_ScalingAndEvaluation :
    (getV (wit2 (ones 4) (ones LMAX) 2 0) 0 = .seq (ones 4) ∧ (ones 4).length ≤ LMAX ∧ (ones 4).length = 4 ∧
      getV (wit2 (ones 4) (ones LMAX) 2 0) 1 = .seq (ones LMAX) ∧ (ones LMAX).length ≤ LMAX) ∧
    ((ones 3).length ≠ 4 ∧ getV (wit2 (ones 3) [] 2 0) 0 = .seq (ones 3)) ∧
    ((ones 5).length ≠ 4 ∧ getV (wit2 (ones 5) [] 2 0) 0 = .seq (ones 5)) := by
  have := sixteen_le_LMAX
  simp only [wit2_seq, length_ones]
  refine ⟨⟨trivial, by omega, trivial, trivial, Nat.le_refl _⟩, ?_, ?_⟩ <;> decide

theorem witness_VanishingPolynomial :
    (getV (wit2 (ones LMAX) [] 0 0) 0 = .seq (ones LMAX) ∧ LMAX < (ones LMAX).length + 1) ∧
    (getV (wit2 (ones (LMAX - 1)) [] 0 0) 0 = .seq (ones (LMAX - 1)) ∧
      (ones (LMAX - 1)).length + 1 ≤ LMAX) := by
  have := sixteen_le_LMAX
  simp only [wit2_seq, length_ones, true_and]
  omega

theorem witness_PowersOfAnElement :
    ((getX (witN [] (LMAX + 1)) 0).toNat = LMAX + 1 ∧ LMAX < LMAX + 1) ∧
    ((getX (witN [] LMAX) 0).toNat = LMAX ∧ LMAX ≤ LMAX) ∧ (getX (witN [] 0) 0).toNat = 0 :=
  ⟨⟨ofNat_toNat_of_le (Nat.le_refl _), Nat.lt_succ_self _⟩,
    ⟨ofNat_toNat_of_le (Nat.le_succ _), Nat.le_refl _⟩, rfl⟩

/-- Lengths that differ, points equal by value (one of them absent), distinct points, no point. -/
theorem witness_Interpolation :
    (getV (wit2 (ones 2) (ones 3) 0 0) 0 = .seq (ones 2) ∧ (ones 2).length ≠ (ones 3).length ∧
      (ones 2).length ≤ LMAX) ∧
    (getV (wit2 [.absent, .elem 0] (ones 2) 0 0) 0 = .seq [.absent, .elem 0] ∧
      (0 : Nat) < 1 ∧ 1 < [Slot.absent, .elem 0].length ∧
      coeffAt (coef [Slot.absent, .elem 0]) 0 = coeffAt (coef [Slot.absent, .elem 0]) 1) ∧
    (getV (wit2 [.absent, .elem 1] (ones 2) 0 0) 1 = .seq (ones 2) ∧
      [Slot.absent, .elem 1].length = (ones 2).length ∧
      ∀ j < 2, ∀ i < j, coeffAt (coef [Slot.absent, .elem 1]) i ≠ coeffAt (coef [Slot.absent, .elem 1]) j) ∧
    (getV (wit2 [] [] 0 0) 0 = .seq [] ∧ ([] : List Slot).length = ([] : List Slot).length) := by
  decide +kernel

/-- A state with three sequences. -/
def wit3 (a b c : List Slot) : State := setV (wit2 a b 0 0) 2 (.seq c)

theorem wit3_seq (a b c : List Slot) :
    getV (wit3 a b c) 0 = .seq a ∧ getV (wit3 a b c) 1 = .seq b ∧ getV (wit3 a b c) 2 = .seq c := ⟨rfl, rfl, rfl⟩

/-- Three sums of the greatest length; a product of three that just fits, and one of two long operands with an empty one
between them; a divisor of one slot and one as long as the dividend; two distinct points, one of them absent; as many
points as VZERO admits. -/
theorem witness_PolynomialRingLaws :
    ((3 : VReg) ≠ 0 ∧ (3 : VReg) ≠ 2 ∧ getV (wit3 (ones LMAX) [] (ones LMAX)) 0 = .seq (ones LMAX) ∧
      getV (wit3 (ones LMAX) [] (ones LMAX)) 1 = .seq [] ∧
      getV (wit3 (ones LMAX) [] (ones LMAX)) 2 = .seq (ones LMAX) ∧ (ones LMAX).length ≤ LMAX ∧
      (ones LMAX).length + ([] : List Slot).length - 1 ≤ LMAX ∧
      ([] : List Slot).length + (ones LMAX).length - 1 ≤ LMAX ∧ ¬0 < ([] : List Slot).length) ∧
    (getV (wit3 (ones LMAX) (ones 1) (ones 1)) 0 = .seq (ones LMAX) ∧
      getV (wit3 (ones LMAX) (ones 1) (ones 1)) 1 = .seq (ones 1) ∧
      getV (wit3 (ones LMAX) (ones 1) (ones 1)) 2 = .seq (ones 1) ∧
      (ones LMAX).length + (ones 1).length - 1 ≤ LMAX ∧ (ones 1).length + (ones 1).length - 1 ≤ LMAX ∧
      (ones LMAX).length + (ones 1).length + (ones 1).length - 2 ≤ LMAX) ∧
    ((2 : VReg) ≠ 0 ∧ (2 : VReg) ≠ 1 ∧ (3 : VReg) ≠ 0 ∧ (3 : VReg) ≠ 1 ∧ (3 : VReg) ≠ 4 ∧
      getV (wit3 (ones 2) (ones 1) []) 0 = .seq (ones 2) ∧ getV (wit3 (ones 2) (ones 1) []) 1 = .seq (ones 1) ∧
      (ones 2).length ≤ LMAX ∧ 0 < (ones 1).length ∧ (ones 1).length ≤ (ones 2).length ∧
      coeffAt (coef (ones 1)) ((ones 1).length - 1) ≠ 0 ∧ coeffAt (coef (ones 2)) ((ones 2).length - 1) ≠ 0) ∧
    (getV (wit2 [.absent, .elem 1] (ones 2) 1 0) 0 = .seq [.absent, .elem 1] ∧
      getV (wit2 [.absent, .elem 1] (ones 2) 1 0) 1 = .seq (ones 2) ∧
      [Slot.absent, .elem 1].length ≤ LMAX ∧ [Slot.absent, .elem 1].length = (ones 2).length ∧
      (∀ k < 2, ∀ j < k, coeffAt (coef [Slot.absent, .elem 1]) j ≠ coeffAt (coef [Slot.absent, .elem 1]) k) ∧
      1 < [Slot.absent, .elem 1].length ∧
      getF (wit2 [.absent, .elem 1] (ones 2) 1 0) 0 = coeffAt (coef [Slot.absent, .elem 1]) 1) ∧
    (getV (wit2 (ones (LMAX - 1)) [] 1 0) 0 = .seq (ones (LMAX - 1)) ∧ (ones (LMAX - 1)).length + 1 ≤ LMAX ∧
      0 < (ones (LMAX - 1)).length ∧
      getF (wit2 (ones (LMAX - 1)) [] 1 0) 0 = coeffAt (coef (ones (LMAX - 1))) 0) := by
  have h16 := sixteen_le_LMAX
  refine ⟨?_, ?_, by decide +kernel, by decide +kernel, ?_⟩
  · simp only [wit3_seq, length_ones, List.length_nil, true_and]
    exact ⟨by decide, by decide, Nat.le_refl _, by omega, by omega, by decide⟩
  · simp only [wit3_seq, length_ones, true_and]
    omega
  · have h0 : coeffAt (coef (ones (LMAX - 1))) 0 = 1 := by
      obtain ⟨n, hn⟩ : ∃ n, LMAX - 1 = n + 1 := ⟨LMAX - 2, by omega⟩
      rw [hn]; rfl
    rw [h0]
    simp only [wit2_seq, length_ones, true_and]
    exact ⟨by omega, by omega, rfl⟩

theorem three_ne_two_pow (k : Nat) : (ones 3).length ≠ 2 ^ k := by
  rw [length_ones]
  match k with
  | 0 | 1 => decide
  | k + 2 => rw [Nat.pow_add]; omega

theorem zero_ne_two_pow (k : Nat) : (ones 0).length ≠ 2 ^ k := by
  rw [length_ones]
  exact (Nat.two_pow_pos k).ne

/-- Lengths 0 and 3, length 1 with a root that would fail, a root of too small and of too great an order, and a primitive
root for the lengths 2 and 4 (T44-1, T44-2); lengths 1 and 2 for the recursion. -/
theorem witness_NumberTheoreticTransform :
    (getV (wit2 (ones 0) [] 1 0) 0 = .seq (ones 0) ∧ ∀ k, (ones 0).length ≠ 2 ^ k) ∧
    (getV (wit2 (ones 3) [] 1 0) 0 = .seq (ones 3) ∧ ∀ k, (ones 3).length ≠ 2 ^ k) ∧
    (getV (wit2 (ones 1) [] 0 0) 0 = .seq (ones 1) ∧ (ones 1).length = 1 ∧ (ones 1).length ≤ LMAX) ∧
    (getF (wit2 (ones 4) [] 18446744069414584320 0) 0 = 18446744069414584320 ∧ (ones 4).length = 2 ^ (1 + 1) ∧
      (18446744069414584320 : Fp).val ^ ((ones 4).length / 2) % modulus = 1) ∧
    (getF (wit2 (ones 2) [] 281474976710656 0) 0 = 281474976710656 ∧ (ones 2).length = 2 ^ (0 + 1) ∧
      (281474976710656 : Fp).val ^ (ones 2).length % modulus ≠ 1) ∧
    ((18446744069414584320 : Fp).val ^ (ones 2).length % modulus = 1 ∧
      (18446744069414584320 : Fp).val ^ ((ones 2).length / 2) % modulus ≠ 1) ∧
    ((281474976710656 : Fp).val ^ (ones 4).length % modulus = 1 ∧
      (281474976710656 : Fp).val ^ ((ones 4).length / 2) % modulus ≠ 1) ∧
    (([5] : List Fp).length = 1 ∧ ([5, 6] : List Fp).length = 2 ^ (0 + 1) ∧ 0 < 2 ^ 0) :=
  ⟨⟨rfl, zero_ne_two_pow⟩, ⟨rfl, three_ne_two_pow⟩, by decide +kernel, by decide +kernel, by decide +kernel,
    by decide +kernel, by decide +kernel, by decide⟩

/-- VINTT has the premises of VNTT. -/
theorem witness_InverseTransform :
    ((∀ k, (ones 0).length ≠ 2 ^ k) ∧ ∀ k, (ones 3).length ≠ 2 ^ k) ∧
    (getV (wit2 (ones 1) [] 0 0) 0 = .seq (ones 1) ∧ (ones 1).length = 1 ∧ (ones 1).length ≤ LMAX) ∧
    (getF (wit2 (ones 4) [] 1 0) 0 = 1 ∧ (ones 4).length = 2 ^ (1 + 1) ∧
      (1 : Fp).val ^ ((ones 4).length / 2) % modulus = 1) ∧
    (getV (wit2 (ones 4) [] 281474976710656 0) 0 = .seq (ones 4) ∧
      getF (wit2 (ones 4) [] 281474976710656 0) 0 = 281474976710656 ∧
      (281474976710656 : Fp).val ^ (ones 4).length % modulus = 1 ∧
      (281474976710656 : Fp).val ^ ((ones 4).length / 2) % modulus ≠ 1) :=
  ⟨⟨zero_ne_two_pow, three_ne_two_pow⟩, by decide +kernel, by decide +kernel, by decide +kernel⟩

theorem witness_TransformsAreMutualInverses :
    (getV (wit2 (ones 4) [] 281474976710656 0) 0 = .seq (ones 4) ∧ (ones 4).length ≤ LMAX ∧
      (ones 4).length = 2 ^ 2 ∧
      (getF (wit2 (ones 4) [] 281474976710656 0) 0).val ^ (ones 4).length % modulus = 1 ∧
      (getF (wit2 (ones 4) [] 281474976710656 0) 0).val ^ ((ones 4).length / 2) % modulus ≠ 1) ∧
    (getV (wit2 (ones 1) [] 0 0) 0 = .seq (ones 1) ∧ (ones 1).length ≤ LMAX ∧ (ones 1).length = 2 ^ 0) := by
  decide +kernel

/-- The root of order 16 of T44-24. -/
def root16 : Fp := 17293822564807737345

/-- A root that fails its order (T44-21); the fallback by a zero operand and by a degree of 7; BADSIZE (T44-22); BADROOT
(T44-23); a product of degree 8 on the transform path (T44-24). -/
theorem witness_FastMultiplication :
    (getF (wit2 (ones 2) (ones 1) 3 5) 0 = 3 ∧ (getF (wit2 (ones 2) (ones 1) 3 5) 1).val = 5 ∧
      (3 : Fp).val ^ 5 % modulus ≠ 1) ∧
    (getF (wit2 [.elem 0] (ones 4) root16 16) 0 = root16 ∧ root16.val ^ 16 % modulus = 1 ∧
      deg (coef [Slot.elem 0]) = none) ∧
    (deg (coef (ones 4)) = some 3 ∧ deg (coef (ones 5)) = some 4 ∧ 3 + 4 < 8) ∧
    ((18446744069397807105 : Fp).val ^ 8 % modulus = 1 ∧ deg (coef (ones 5)) = some 4 ∧ 8 ≤ 4 + 4 ∧
      4 + 4 + 1 ≤ 2 ^ 4 ∧ 2 ^ 4 < 2 * (4 + 4 + 1) ∧ 8 % 2 ^ 4 ≠ 0) ∧
    ((1 : Fp).val ^ 16 % modulus = 1 ∧ 16 % 2 ^ 4 = 0 ∧
      ((1 : Fp).val ^ (16 / 2 ^ 4)) ^ (2 ^ 4 / 2) % modulus = 1) ∧
    (getV (wit2 (ones 5) (ones 5) root16 16) 0 = .seq (ones 5) ∧
      getV (wit2 (ones 5) (ones 5) root16 16) 1 = .seq (ones 5) ∧
      (getF (wit2 (ones 5) (ones 5) root16 16) 1).val = 16 ∧ root16.val ^ 16 % modulus = 1 ∧
      (root16.val ^ (16 / 2 ^ 4)) ^ (2 ^ 4 / 2) % modulus ≠ 1 ∧ 4 + 4 + 1 ≤ LMAX) := by
  decide +kernel

/-- A product on the transform path, one operand with a trailing zero: nine coefficients against ten (T44-17, T44-24). -/
theorem witness_FastAndSchoolbookProductsAgree :
    ∃ t u, getV (wit2 (ones 5 ++ [.absent]) (ones 5) root16 16) 0 = .seq (ones 5 ++ [.absent]) ∧
      getV (wit2 (ones 5 ++ [.absent]) (ones 5) root16 16) 1 = .seq (ones 5) ∧
      exec (.vfmul 2 0 1 0 1) (wit2 (ones 5 ++ [.absent]) (ones 5) root16 16) = .next t ∧ t.fatal = false ∧
      exec (.vmul 2 0 1) (wit2 (ones 5 ++ [.absent]) (ones 5) root16 16) = .next u ∧ u.fatal = false :=
  ⟨done (setV (wit2 (ones 5 ++ [.absent]) (ones 5) root16 16) 2 (vals [1, 2, 3, 4, 5, 4, 3, 2, 1])),
    done (setV (wit2 (ones 5 ++ [.absent]) (ones 5) root16 16) 2 (vals [1, 2, 3, 4, 5, 4, 3, 2, 1, 0])),
    rfl, rfl, eq_of_gives (by decide +kernel), rfl, eq_of_gives (by decide +kernel), rfl⟩

theorem deg_ones (n : Nat) : deg (coef (ones (n + 1))) = some n := by
  have h : coef (ones (n + 1)) = List.replicate (n + 1) 1 := by simp [coef, ones, Slot.val]
  rw [h, deg_eq_some]
  refine ⟨?_, fun i hi => ?_⟩
  · rw [coeffAt_of_lt (by simp)]; simp
  · exact coeffAt_of_ge (by simp; omega)

theorem pow_pow_ne_one {g : Fp} {e k n : Nat} (hg : Fp.pow g e ≠ 1) (h : k * n = e) :
    (g.val ^ k) ^ n % modulus ≠ 1 := by
  rw [← Nat.pow_mul, h, ← Fp.pow_val]
  intro h1
  exact hg (Fin.ext (h1.trans Fp.one_val.symm))

/-- A product of degree LMAX on the transform path. With LMAX at its greatest, `2^32`, no root has the padded order
`2^33`, so that case is left out. -/
theorem witness_FastMultiplication_capacity (h : Config.lmaxChoice.val < 28) :
    ∃ da m : Nat, (7 : Fp).val ^ (modulus - 1) % modulus = 1 ∧
      getV (wit2 (ones LMAX) (ones 2) 7 18446744069414584320) 0 = .seq (ones LMAX) ∧
      getV (wit2 (ones LMAX) (ones 2) 7 18446744069414584320) 1 = .seq (ones 2) ∧
      (getF (wit2 (ones LMAX) (ones 2) 7 18446744069414584320) 1).val = modulus - 1 ∧
      deg (coef (ones LMAX)) = some da ∧ deg (coef (ones 2)) = some 1 ∧ 8 ≤ da + 1 ∧
      da + 1 + 1 ≤ 2 ^ m ∧ 2 ^ m < 2 * (da + 1 + 1) ∧ (modulus - 1) % 2 ^ m = 0 ∧
      ((7 : Fp).val ^ ((modulus - 1) / 2 ^ m)) ^ (2 ^ m / 2) % modulus ≠ 1 ∧ LMAX < da + 1 + 1 := by
  have hp := LMAX_eq_pow
  have h16 := sixteen_le_LMAX
  generalize hc : Config.lmaxChoice.val = c at h hp
  have hm : 2 ^ (c + 5) = 2 * LMAX := by rw [hp, Nat.pow_add, Nat.pow_add]; omega
  have hd : (modulus - 1) % 2 ^ (c + 5) = 0 ∧
      (modulus - 1) / 2 ^ (c + 5) * (2 ^ (c + 5) / 2) = (modulus - 1) / 2 := by
    clear hp hm hc
    interval_cases c <;> decide
  have hn : LMAX = LMAX - 1 + 1 := by omega
  have h7 : (7 : Fp) = Fp.ofNat generator := by decide
  refine ⟨LMAX - 1, c + 5, ?_, rfl, rfl, rfl, ?_, deg_ones 1, by omega, by omega, by omega, hd.1, ?_, by omega⟩
  · rw [h7, ← Fp.pow_val, generator_pow_order]; rfl
  · rw [hn]; exact deg_ones _
  · rw [h7]; exact pow_pow_ne_one generator_pow_half hd.2

end Sys2Proof.Tests
end

namespace Sys2Proof.Machine

/-! ### Reset and the status word (10_state.md R17, R28) -/

theorem toNat_zext_of_lt {n : Nat} (h : n < 2 ^ 64) : (zext n).toNat = n := by
  rw [zext, BitVec.toNat_ofNat, Nat.mod_eq_of_lt h]

theorem toNat_append_eq_add {m n : Nat} (a : BitVec m) (b : BitVec n) :
    (a ++ b).toNat = a.toNat * 2 ^ n + b.toNat := by
  rw [BitVec.toNat_append, ← Nat.shiftLeft_add_eq_or_of_lt b.isLt, Nat.shiftLeft_eq]

/-- Settles O11: the registers are the replicated reset value, the flags and words are fields of the reset state, and
the two open constants fit in a word. -/
theorem resetValues : Obligations.ResetValues := by
  have hlmax : (windowRead State.reset .lmaxr).toNat = LMAX := toNat_zext_of_lt LMAX_lt_word
  have hbmax : (windowRead State.reset .bmaxr).toNat = BMAX :=
    toNat_zext_of_lt (BMAX_lt.trans (by decide))
  exact ⟨readReg_replicate _, readReg_replicate _, readReg_replicate _, rfl, rfl, rfl, rfl, rfl, rfl, rfl, rfl, rfl,
    rfl, rfl, rfl, rfl, hlmax, hbmax⟩

/-- Settles O14: the status word is a concatenation, and each part counts with the weight of its lowest bit. -/
theorem statusWordLayout : Obligations.StatusWordLayout := by
  intro s
  unfold statusWord
  simp only [toNat_append_eq_add, BitVec.toNat_ofBool, BitVec.ofNat_eq_ofNat, BitVec.toNat_ofNat,
    Nat.zero_mod]
  omega

/-! ### Only present slots (10_state.md R14)

One lemma per primitive of 00_scope.md R7, so that a command's rule is followed operation by operation. -/

/-- When the rule computes a state, every slot of `v[d]` is present in it. -/
def LeavesPresent (d : VReg) (r : Except Cause State) : Prop :=
  ∀ s', r = .ok s' → (getV s' d).allPresent = true

theorem leavesPresent_bind {α : Type} {d : VReg} {e : Except Cause α} {k : α → Except Cause State}
    (h : ∀ a, LeavesPresent d (k a)) : LeavesPresent d (e >>= k) := by
  intro s' hs
  obtain ⟨a, -, ha⟩ := except_bind_eq_ok.1 hs
  exact h a s' ha

theorem leavesPresent_ite {p : Prop} [Decidable p] {d : VReg} {r r' : Except Cause State}
    (h : LeavesPresent d r) (h' : LeavesPresent d r') : LeavesPresent d (if p then r else r') := by
  split
  · exact h
  · exact h'

theorem leavesPresent_ok {d : VReg} {s' : State} (h : (getV s' d).allPresent = true) :
    LeavesPresent d (.ok s') := by
  rintro _ ⟨⟩
  exact h

theorem leavesPresent_setV {s : State} {d : VReg} {sl : List Slot} (h : sl.all Slot.present = true) :
    LeavesPresent d (.ok (setV s d (.seq sl))) :=
  leavesPresent_ok (by rw [getV_setV_same]; exact h)

theorem all_present_elems (c : List Fp) : (elems c).all Slot.present = true := by
  simp [elems, Slot.present]

/-- Batch inversion writes a present slot also for a skipped one (41_field.md R88). -/
theorem all_present_map_minvSlot (sl : List Slot) : (sl.map minvSlot).all Slot.present = true := by
  rw [List.all_map, List.all_eq_true]
  rintro (_ | c) - <;> rfl

theorem leavesPresent_result {s : State} {d : VReg} {sl : List Slot} (h : sl.all Slot.present = true) :
    LeavesPresent d (result s d sl) := by
  intro s' hs
  obtain ⟨-, rfl⟩ := result_eq_ok.1 hs
  exact leavesPresent_setV h _ rfl

theorem leavesPresent_result_elems (s : State) (d : VReg) (c : List Fp) :
    LeavesPresent d (result s d (elems c)) :=
  leavesPresent_result (all_present_elems c)

theorem getV_writeNores (s : State) (b : Bool) (i : VReg) : getV (writeNores s b) i = getV s i := rfl

theorem leavesPresent_noResult (s : State) (d : VReg) : LeavesPresent d (.ok (noResult s d)) :=
  leavesPresent_ok (by simp [noResult, getV_writeNores, PolyVal.allPresent])

theorem leavesPresent_result_elems_writeNores (s : State) (d : VReg) (c : List Fp) (b : Bool) :
    LeavesPresent d (do let s' ← result s d (elems c); pure (writeNores s' b)) := by
  intro t ht
  obtain ⟨s', hs', ⟨⟩⟩ := except_bind_eq_ok.1 ht
  exact leavesPresent_result_elems s d c s' hs'

theorem leavesPresent_divideInto (s : State) (d : VReg) (a b : List Fp)
    (value : List Fp → List Fp → List Fp) : LeavesPresent d (divideInto s d a b value) :=
  leavesPresent_bind fun _ => leavesPresent_ite (leavesPresent_noResult s d) <|
    leavesPresent_bind fun _ => leavesPresent_result_elems_writeNores s d _ _

theorem leavesPresent_transformInto (s : State) (d : VReg) (a : List Fp) (w : Fp)
    (value : Fp → List Fp → List Fp) : LeavesPresent d (transformInto s d a w value) :=
  leavesPresent_bind fun _ => leavesPresent_ite (leavesPresent_result_elems s d _) <|
    leavesPresent_bind fun _ => leavesPresent_result_elems s d _

theorem leavesPresent_fastInto (s : State) (d : VReg) (a b : List Fp) (da db : Nat) (w : Fp) (ord : Nat) :
    LeavesPresent d (fastInto s d a b da db w ord) := by
  intro s' hs
  obtain ⟨n, r, -, -, -, -, -, rfl⟩ := fastInto_eq_ok.1 hs
  exact leavesPresent_setV (all_present_elems _) _ rfl

theorem leavesPresent_fastMulInto (s : State) (d : VReg) (a b : List Fp) (w : Fp) (ord : Nat) :
    LeavesPresent d (fastMulInto s d a b w ord) := by
  obtain ⟨-, h⟩ | ⟨-, h⟩ | ⟨da, db, -, -, -, -, h⟩ := fastMulInto_cases s d a b w ord
  · rw [h]; rintro _ ⟨⟩
  · rw [h]; exact leavesPresent_result_elems s d _
  · rw [h]; exact leavesPresent_fastInto s d a b da db w ord

/-- A command whose rule leaves only present slots in `v[d]` leaves them there when it completes. -/
theorem allPresent_of_command {i : Instr} {s t : State} {d : VReg} {r : Except Cause State}
    (hr : LeavesPresent d r) (h : command i s r = .next t) (ht : t.fatal = false) :
    (getV t d).allPresent = true := by
  obtain ⟨s', hs', rfl⟩ | ⟨c, -, rfl⟩ := command_eq_next.1 h
  · exact hr s' hs'
  · cases ht

/-- Settles O20, by the commands with a polynomial destination that do not keep slots. -/
theorem arithmeticLeavesOnlyPresentSlots : Obligations.ArithmeticLeavesOnlyPresentSlots := by
  intro i s t d hk _ h ht hd
  cases i <;> cases hk <;> cases hd
  case vminv a =>
    exact allPresent_of_command (leavesPresent_bind fun _ => leavesPresent_bind fun _ =>
      leavesPresent_result (all_present_map_minvSlot _)) h ht
  case vclr => exact allPresent_of_command (i := .vclr d) (s := s) (leavesPresent_setV rfl) h ht
  case vadd a b | vsub a b | vmul a b | vevald a b | vzero a =>
    exact allPresent_of_command (leavesPresent_bind fun _ => leavesPresent_bind fun _ =>
      leavesPresent_result_elems s d _) h ht
  case vdiv a b | vmod a b =>
    exact allPresent_of_command (leavesPresent_bind fun _ => leavesPresent_bind fun _ =>
      leavesPresent_divideInto s d _ _ _) h ht
  case vscale a b | vpow a b =>
    exact allPresent_of_command (leavesPresent_bind fun _ => leavesPresent_result_elems s d _) h ht
  case vinterp a b =>
    exact allPresent_of_command (leavesPresent_bind fun _ => leavesPresent_bind fun _ =>
      leavesPresent_ite (leavesPresent_noResult s d) <| leavesPresent_ite (leavesPresent_noResult s d) <|
        leavesPresent_result_elems_writeNores s d _ _) h ht
  case vntt a b | vintt a b =>
    exact allPresent_of_command (leavesPresent_bind fun _ =>
      leavesPresent_transformInto s d _ _ _) h ht
  case vfmul a b e g =>
    exact allPresent_of_command (leavesPresent_bind fun _ => leavesPresent_bind fun _ =>
      leavesPresent_fastMulInto s d _ _ _ _) h ht

/-! ### Absent slots read as zero (10_state.md R14)

`elems (coef sl)` is the slots `sl` with every absent one replaced by a present zero. Every command but VABS, VMINV and
VPRES commutes with the replacement, which is followed operation by operation: `Except.map fillAbsent` on the rule,
`fillResult` on the command. VABS makes an absent slot, so it commutes only up to a second replacement. -/

/-! #### The state -/

theorem fillAbsent_seq (sl : List Slot) : (PolyVal.seq sl).fillAbsent = .seq (elems (coef sl)) := by
  simp [PolyVal.fillAbsent, elems, coef]

@[simp] theorem polyVal_fillAbsent_fillAbsent (p : PolyVal) : p.fillAbsent.fillAbsent = p.fillAbsent := by
  cases p with
  | none => rfl
  | seq sl => simp [fillAbsent_seq]

@[simp] theorem readReg_map {α β : Type} (g : α → β) (r : RegFile α) (i : Fin 16) :
    readReg (r.map g) i = g (readReg r i) := by
  simp [readReg]

theorem getV_fillAbsent (s : State) (i : VReg) : getV (fillAbsent s) i = (getV s i).fillAbsent :=
  readReg_map _ _ _

@[simp] theorem fillAbsent_bb (s : State) : (fillAbsent s).bb = s.bb := rfl

@[simp] theorem getX_fillAbsent (s : State) (i : XReg) : getX (fillAbsent s) i = getX s i := rfl

/-- Two states that agree but for the polynomial registers, and there register by register, are equal. -/
theorem state_ext_getV {s t : State} (hv : ∀ i, getV s i = getV t i) (h : { s with v := t.v } = t) : s = t := by
  rw [← h, ← show s.v = t.v from regFile_ext hv]

@[simp] theorem fillAbsent_fillAbsent (s : State) : fillAbsent (fillAbsent s) = fillAbsent s :=
  state_ext_getV (fun i => by simp [getV_fillAbsent]) rfl

theorem fillAbsent_setV (s : State) (d : VReg) (p : PolyVal) :
    fillAbsent (setV s d p) = setV (fillAbsent s) d p.fillAbsent := by
  refine state_ext_getV (fun i => ?_) rfl
  by_cases h : d = i
  · subst h; simp [getV_fillAbsent]
  · simp [getV_fillAbsent, getV_setV_ne _ _ h]

/-! #### The operations on slots that keep them -/

theorem elems_coef_append (sl : List Slot) (c : List Fp) :
    elems (coef (sl ++ elems c)) = elems (coef sl) ++ elems c := by
  simp [elems, coef, Slot.val]

theorem elems_coef_append_zeros (sl : List Slot) (n : Nat) :
    elems (coef (sl ++ List.replicate n (.elem 0))) = elems (coef sl) ++ List.replicate n (.elem 0) := by
  have h : List.replicate n (Slot.elem 0) = elems (List.replicate n 0) := by simp [elems]
  rw [h, elems_coef_append]

theorem elems_coef_set (sl : List Slot) (n : Nat) (c : Slot) :
    elems (coef (sl.set n c)) = (elems (coef sl)).set n (.elem c.val) := by
  simp [elems, coef, List.map_set]

theorem elems_coef_take (sl : List Slot) (n : Nat) :
    elems (coef (sl.take n)) = (elems (coef sl)).take n := by
  simp [elems, coef, List.map_take]

theorem elems_coef_reverse (sl : List Slot) : elems (coef sl.reverse) = (elems (coef sl)).reverse := by
  simp [elems, coef]

theorem map_strided {α β : Type} (g : α → β) (s : List α) (start step : Nat) :
    (strided s start step).map g = strided (s.map g) start step := by
  simp [strided, List.map_filterMap]

theorem elems_coef_strided (sl : List Slot) (start step : Nat) :
    elems (coef (strided sl start step)) = strided (elems (coef sl)) start step := by
  simp only [elems, coef, map_strided]

theorem elems_coef_trimSlots (sl : List Slot) :
    elems (coef (trimSlots sl)) = trimSlots (elems (coef sl)) := by
  simp only [trimSlots, elems, coef, List.map_map, ← List.map_reverse, List.dropWhile_map]
  rfl

/-! #### The primitives of a rule -/

/-- A rule that reads a register and goes on with its slots commutes when its continuation does. -/
theorem useV_bind_fillAbsent (s : State) (i : VReg) {k k' : List Slot → Except Cause State}
    (h : ∀ sl, k' (elems (coef sl)) = (k sl).map fillAbsent) :
    (useV (fillAbsent s) i >>= k') = (useV s i >>= k).map fillAbsent := by
  cases hv : getV s i with
  | none =>
    rw [useV_of_none hv, useV_of_none (by rw [getV_fillAbsent, hv]; rfl)]
    rfl
  | seq sl =>
    rw [useV_of_seq hv, useV_of_seq (by rw [getV_fillAbsent, hv, fillAbsent_seq])]
    exact h sl

/-- A test that comes out the same does not disturb the commuting. -/
theorem raiseIf_bind_fillAbsent {p p' : Prop} [Decidable p] [Decidable p'] {c : Cause}
    {k k' : Unit → Except Cause State} (hp : p' ↔ p) (h : k' () = (k ()).map fillAbsent) :
    (raiseIf p' c >>= k') = (raiseIf p c >>= k).map fillAbsent := by
  by_cases hc : p
  · rw [raiseIf_pos hc, raiseIf_pos (hp.2 hc)]
    rfl
  · rw [raiseIf_neg hc, raiseIf_neg (mt hp.1 hc)]
    exact h

theorem ite_fillAbsent {p p' : Prop} [Decidable p] [Decidable p'] {a a' b b' : Except Cause State}
    (hp : p' ↔ p) (ha : a' = a.map fillAbsent) (hb : b' = b.map fillAbsent) :
    (if p' then a' else b') = (if p then a else b).map fillAbsent := by
  simp only [hp, ha, hb]
  split <;> rfl

/-- Reading one slot gives its value, and INDEX for the same indices. -/
theorem slotAt_bind_fillAbsent (sl : List Slot) (n : Nat) {k k' : Slot → Except Cause State}
    (h : ∀ c : Slot, k' (.elem c.val) = (k c).map fillAbsent) :
    (slotAt (elems (coef sl)) n >>= k') = (slotAt sl n >>= k).map fillAbsent := by
  have hget : (elems (coef sl))[n]? = sl[n]?.map fun c => Slot.elem c.val := by
    simp [elems, coef, Function.comp_def]
  unfold slotAt
  rw [hget]
  cases sl[n]? with
  | none => rfl
  | some c => exact h c

theorem setV_seq_fillAbsent {s : State} {d : VReg} {sl sl' : List Slot} (h : elems (coef sl) = sl') :
    (.ok (setV (fillAbsent s) d (.seq sl')) : Except Cause State) =
      (Except.ok (setV s d (.seq sl))).map fillAbsent := by
  rw [Except.map, fillAbsent_setV, fillAbsent_seq, h]

theorem result_fillAbsent {s : State} {d : VReg} {sl sl' : List Slot} (h : elems (coef sl) = sl') :
    result (fillAbsent s) d sl' = (result s d sl).map fillAbsent := by
  have hlen : sl'.length = sl.length := by rw [← h, length_elems, length_coef]
  unfold result
  rw [hlen]
  exact ite_fillAbsent Iff.rfl rfl (setV_seq_fillAbsent h)

/-- A computed sequence holds no absent slot. -/
theorem result_elems_fillAbsent (s : State) (d : VReg) (c : List Fp) :
    result (fillAbsent s) d (elems c) = (result s d (elems c)).map fillAbsent :=
  result_fillAbsent (by rw [coef_elems])

theorem writeNores_fillAbsent (s : State) (b : Bool) :
    writeNores (fillAbsent s) b = fillAbsent (writeNores s b) := rfl

theorem setV_seq_writeNores_fillAbsent {s : State} {d : VReg} {sl sl' : List Slot} {b : Bool}
    (h : elems (coef sl) = sl') :
    (.ok (writeNores (setV (fillAbsent s) d (.seq sl')) b) : Except Cause State) =
      (Except.ok (writeNores (setV s d (.seq sl)) b)).map fillAbsent := by
  rw [Except.map, ← writeNores_fillAbsent, fillAbsent_setV, fillAbsent_seq, h]

theorem noResult_fillAbsent (s : State) (d : VReg) :
    (.ok (noResult (fillAbsent s) d) : Except Cause State) = (Except.ok (noResult s d)).map fillAbsent := by
  rw [Except.map, noResult, noResult, ← writeNores_fillAbsent, fillAbsent_setV]
  rfl

theorem result_elems_writeNores_fillAbsent (s : State) (d : VReg) (c : List Fp) (b : Bool) :
    (do let s' ← result (fillAbsent s) d (elems c); pure (writeNores s' b)) =
      (do let s' ← result s d (elems c); pure (writeNores s' b) : Except Cause State).map fillAbsent := by
  rw [result_elems_fillAbsent]
  cases result s d (elems c) <;> rfl

theorem pushByte_fillAbsent (s : State) (b : Byte) :
    pushByte (fillAbsent s) b = (pushByte s b).map fillAbsent :=
  ite_fillAbsent Iff.rfl rfl rfl

/-! #### The endings several commands share -/

theorem divideInto_fillAbsent (s : State) (d : VReg) (a b : List Fp) (value : List Fp → List Fp → List Fp) :
    divideInto (fillAbsent s) d a b value = (divideInto s d a b value).map fillAbsent :=
  raiseIf_bind_fillAbsent Iff.rfl <| ite_fillAbsent Iff.rfl (noResult_fillAbsent s d) <|
    raiseIf_bind_fillAbsent Iff.rfl (result_elems_writeNores_fillAbsent s d _ _)

theorem transformInto_fillAbsent (s : State) (d : VReg) (a : List Fp) (w : Fp)
    (value : Fp → List Fp → List Fp) :
    transformInto (fillAbsent s) d a w value = (transformInto s d a w value).map fillAbsent :=
  raiseIf_bind_fillAbsent Iff.rfl <| ite_fillAbsent Iff.rfl (result_elems_fillAbsent s d _) <|
    raiseIf_bind_fillAbsent Iff.rfl (result_elems_fillAbsent s d _)

theorem mulInto_fillAbsent (s : State) (d : VReg) (a b : List Fp) :
    mulInto (fillAbsent s) d a b = (mulInto s d a b).map fillAbsent :=
  result_elems_fillAbsent s d _

theorem fastInto_fillAbsent (s : State) (d : VReg) (a b : List Fp) (da db : Nat) (w : Fp) (ord : Nat) :
    fastInto (fillAbsent s) d a b da db w ord = (fastInto s d a b da db w ord).map fillAbsent :=
  raiseIf_bind_fillAbsent Iff.rfl <| raiseIf_bind_fillAbsent Iff.rfl <|
    raiseIf_bind_fillAbsent Iff.rfl (result_elems_fillAbsent s d _)

theorem fastMulInto_fillAbsent (s : State) (d : VReg) (a b : List Fp) (w : Fp) (ord : Nat) :
    fastMulInto (fillAbsent s) d a b w ord = (fastMulInto s d a b w ord).map fillAbsent := by
  refine raiseIf_bind_fillAbsent Iff.rfl ?_
  cases deg a with
  | none => exact mulInto_fillAbsent s d a b
  | some da =>
    cases deg b with
    | none => exact mulInto_fillAbsent s d a b
    | some db =>
      exact ite_fillAbsent Iff.rfl (mulInto_fillAbsent s d a b) (fastInto_fillAbsent s d a b da db w ord)

/-! #### The commands -/

/-- The outcome with every absent slot of its state replaced by a present zero. -/
def fillResult : Result → Result
  | .next s => .next (fillAbsent s)
  | .fault r => .fault r
  | .refused r => .refused r

theorem fillResult_fillResult (r : Result) : fillResult (fillResult r) = fillResult r := by
  cases r <;> simp [fillResult]

theorem command_fillAbsent (i : Instr) (s : State) {r r' : Except Cause State} (h : r' = r.map fillAbsent) :
    command i (fillAbsent s) r' = fillResult (command i s r) := by
  subst h
  cases r <;> rfl

theorem execBget_fillAbsent (xd xa : XReg) (s : State) :
    execBget xd xa (fillAbsent s) = fillResult (execBget xd xa s) := by
  unfold execBget
  rw [fillAbsent_bb, getX_fillAbsent]
  cases s.bb[uVal (getX s xa)]? <;> rfl

/-- All commands but VABS, VMINV and VPRES commute with the replacement (R14). -/
theorem exec_fillAbsent (i : Instr) (s : State) (h : tellsAbsent i = false) (hv : ∀ d b, i ≠ .vabs d b) :
    exec i (fillAbsent s) = fillResult (exec i s) := by
  cases i with
  | vminv | vpres => cases h
  | vabs d b => exact absurd rfl (hv d b)
  | nop | xli | xld | xout | fld | fout | bclr | blen | fsetu | fsets | fbig | fbign | fbytes | fsample | fser
  | ftox | fmov | fadd | fsub | fmul | fexp | fexpx | fcmp | frord => rfl
  | bpushi | bpush => exact command_fillAbsent _ s (pushByte_fillAbsent s _)
  | bget xd xa => exact execBget_fillAbsent xd xa s
  | fdiv | finv | froot => exact command_fillAbsent _ s (raiseIf_bind_fillAbsent Iff.rfl rfl)
  | vclr d => exact command_fillAbsent (.vclr d) s (setV_seq_fillAbsent (sl := []) rfl)
  | vpush d a =>
    exact command_fillAbsent _ s <| useV_bind_fillAbsent s _ fun sl => result_fillAbsent (elems_coef_append sl [_])
  | vget =>
    exact command_fillAbsent _ s <| useV_bind_fillAbsent s _ fun sl =>
      slotAt_bind_fillAbsent sl _ fun c => rfl
  | vset =>
    exact command_fillAbsent _ s <| useV_bind_fillAbsent s _ fun sl =>
      slotAt_bind_fillAbsent sl _ fun c => setV_seq_fillAbsent (elems_coef_set sl _ _)
  | vlen =>
    exact command_fillAbsent _ s <| useV_bind_fillAbsent s _ fun sl => by
      rw [length_elems, length_coef]; rfl
  | vpad =>
    exact command_fillAbsent _ s <| useV_bind_fillAbsent s _ fun sl => by
      rw [length_elems, length_coef]
      exact raiseIf_bind_fillAbsent Iff.rfl <| raiseIf_bind_fillAbsent Iff.rfl <|
        setV_seq_fillAbsent (elems_coef_append_zeros sl _)
  | vtrunc =>
    exact command_fillAbsent _ s <| useV_bind_fillAbsent s _ fun sl => by
      rw [length_elems, length_coef]
      exact raiseIf_bind_fillAbsent Iff.rfl <| setV_seq_fillAbsent (elems_coef_take sl _)
  | vtrim =>
    exact command_fillAbsent _ s <| useV_bind_fillAbsent s _ fun sl =>
      setV_seq_fillAbsent (elems_coef_trimSlots sl)
  | vmov =>
    exact command_fillAbsent _ s <| useV_bind_fillAbsent s _ fun sl => setV_seq_fillAbsent rfl
  | vrev =>
    exact command_fillAbsent _ s <| useV_bind_fillAbsent s _ fun sl =>
      setV_seq_fillAbsent (elems_coef_reverse sl)
  | vsubsl d =>
    exact command_fillAbsent _ s <| useV_bind_fillAbsent s _ fun sl => by
      rw [length_elems, length_coef]
      exact ite_fillAbsent Iff.rfl (noResult_fillAbsent s d)
        (setV_seq_writeNores_fillAbsent (elems_coef_strided sl _ _))
  | vdeg | visz =>
    exact command_fillAbsent _ s <| useV_bind_fillAbsent s _ fun sl => by rw [coef_elems]; rfl
  | veq =>
    exact command_fillAbsent _ s <| useV_bind_fillAbsent s _ fun a => useV_bind_fillAbsent s _ fun b => by
      rw [coef_elems, coef_elems]; rfl
  | vadd d | vsub d | vmul d | vevald d =>
    exact command_fillAbsent _ s <| useV_bind_fillAbsent s _ fun a => useV_bind_fillAbsent s _ fun b => by
      rw [coef_elems, coef_elems]; exact result_elems_fillAbsent s d _
  | vdiv d | vmod d =>
    exact command_fillAbsent _ s <| useV_bind_fillAbsent s _ fun a => useV_bind_fillAbsent s _ fun b => by
      rw [coef_elems, coef_elems]; exact divideInto_fillAbsent s d _ _ _
  | vscale d =>
    exact command_fillAbsent _ s <| useV_bind_fillAbsent s _ fun a => by
      rw [coef_elems]; exact result_elems_fillAbsent s d _
  | veval =>
    exact command_fillAbsent _ s <| useV_bind_fillAbsent s _ fun a => by rw [coef_elems]; rfl
  | vevalq =>
    exact command_fillAbsent _ s <| useV_bind_fillAbsent s _ fun a => by
      rw [coef_elems, length_elems, length_coef]
      exact raiseIf_bind_fillAbsent Iff.rfl rfl
  | vzero d =>
    exact command_fillAbsent _ s <| useV_bind_fillAbsent s _ fun a => by
      rw [coef_elems, length_elems, length_coef]
      exact raiseIf_bind_fillAbsent Iff.rfl (result_elems_fillAbsent s d _)
  | vinterp d =>
    exact command_fillAbsent _ s <| useV_bind_fillAbsent s _ fun a => useV_bind_fillAbsent s _ fun b => by
      simp only [coef_elems, length_elems, length_coef]
      exact ite_fillAbsent Iff.rfl (noResult_fillAbsent s d) <|
        ite_fillAbsent Iff.rfl (noResult_fillAbsent s d) (result_elems_writeNores_fillAbsent s d _ _)
  | vpow d =>
    exact command_fillAbsent _ s <| raiseIf_bind_fillAbsent Iff.rfl (result_elems_fillAbsent s d _)
  | vntt d | vintt d =>
    exact command_fillAbsent _ s <| useV_bind_fillAbsent s _ fun a => by
      rw [coef_elems]; exact transformInto_fillAbsent s d _ _ _
  | vfmul d =>
    exact command_fillAbsent _ s <| useV_bind_fillAbsent s _ fun a => useV_bind_fillAbsent s _ fun b => by
      rw [coef_elems, coef_elems]; exact fastMulInto_fillAbsent s d _ _ _ _

/-- The rule of VABS (42_poly_struct.md R94) with a present zero in place of the absent slot. -/
def zeroSlot (s : State) (d : VReg) (n : Nat) : Except Cause State := do
  let sl ← useV s d
  let _ ← slotAt sl n
  pure (setV s d (.seq (sl.set n (.elem 0))))

/-- After the replacement, VABS has put a present zero in the slot. -/
theorem fillResult_execVabs (d : VReg) (b : XReg) (s : State) :
    fillResult (execVabs d b s) =
      command (.vabs d b) (fillAbsent s) (zeroSlot (fillAbsent s) d (uVal (getX s b))) :=
  .symm <| command_fillAbsent _ s <| useV_bind_fillAbsent s d fun sl =>
    slotAt_bind_fillAbsent sl _ fun _ => setV_seq_fillAbsent (elems_coef_set sl _ .absent)

theorem execVabs_fillAbsent (d : VReg) (b : XReg) (s : State) :
    fillResult (execVabs d b (fillAbsent s)) = fillResult (execVabs d b s) := by
  rw [fillResult_execVabs, fillResult_execVabs, fillAbsent_fillAbsent, getX_fillAbsent]

/-- Every command but VMINV and VPRES: filling the absent slots first or only after it gives the same state. -/
theorem fillResult_exec_fillAbsent (i : Instr) (s : State) (h : tellsAbsent i = false) :
    fillResult (exec i (fillAbsent s)) = fillResult (exec i s) := by
  by_cases hv : ∃ d b, i = .vabs d b
  · obtain ⟨d, b, rfl⟩ := hv
    exact execVabs_fillAbsent d b s
  · rw [exec_fillAbsent i s h fun d b hi => hv ⟨d, b, hi⟩, fillResult_fillResult]

/-- Settles O21: the commands are followed one by one in `exec_fillAbsent`, with VABS apart. -/
theorem absentReadsAsZero : Obligations.AbsentReadsAsZero := by
  intro i s t u hi ht hu
  have h := fillResult_exec_fillAbsent i s hi
  rw [ht, hu] at h
  injection h

end Sys2Proof.Machine

namespace Sys2Proof.Machine

/-! ### What no rule of a command writes (20_memory.md R32)

FATAL, CAUSE, CMDCNT and FAULTCMD are written only where a command ends, by `complete` or `fatalEntry`; DIN and the
host's side of the run only by the host's accesses. A rule, followed primitive by primitive, leaves all of them as they
were. -/

/-- The pieces of the state that no command's rule writes. -/
structure Control where
  fatal : Bool
  cause : BitVec 8
  cmdcnt : Word
  faultcmd : Word
  din : Word
  host : List HostAccess
  reads : List Word

/-- The state's `Control` part. -/
def controlOf (s : State) : Control :=
  ⟨s.fatal, s.cause, s.cmdcnt, s.faultcmd, s.din, s.host, s.reads⟩

/-- When the rule, begun in `s`, computes a state, its control part is that of `s`. -/
def KeepsControl (s : State) (r : Except Cause State) : Prop :=
  ∀ s', r = .ok s' → controlOf s' = controlOf s

theorem keepsControl_ok {s s' : State} (h : controlOf s' = controlOf s) : KeepsControl s (.ok s') := by
  rintro _ ⟨⟩
  exact h

theorem keepsControl_error (s : State) (c : Cause) : KeepsControl s (.error c) := by
  rintro _ ⟨⟩

theorem keepsControl_bind {α : Type} {s : State} {e : Except Cause α} {k : α → Except Cause State}
    (h : ∀ a, KeepsControl s (k a)) : KeepsControl s (e >>= k) := by
  intro s' hs
  obtain ⟨a, -, ha⟩ := except_bind_eq_ok.1 hs
  exact h a s' ha

theorem keepsControl_ite {p : Prop} [Decidable p] {s : State} {r r' : Except Cause State}
    (h : KeepsControl s r) (h' : KeepsControl s r') : KeepsControl s (if p then r else r') := by
  split
  · exact h
  · exact h'

theorem keepsControl_result (s : State) (d : VReg) (sl : List Slot) : KeepsControl s (result s d sl) :=
  keepsControl_ite (keepsControl_error s _) (keepsControl_ok rfl)

theorem keepsControl_noResult (s : State) (d : VReg) : KeepsControl s (.ok (noResult s d)) :=
  keepsControl_ok rfl

/-- The ending of VDIV, VMOD and VINTERP: a result, with NORES written after it. -/
theorem keepsControl_result_writeNores (s : State) (d : VReg) (sl : List Slot) (b : Bool) :
    KeepsControl s (do let s' ← result s d sl; pure (writeNores s' b)) := by
  intro t ht
  obtain ⟨s', hs', ⟨⟩⟩ := except_bind_eq_ok.1 ht
  exact keepsControl_result s d sl s' hs'

theorem keepsControl_pushByte (s : State) (b : Byte) : KeepsControl s (pushByte s b) :=
  keepsControl_ite (keepsControl_error s _) (keepsControl_ok rfl)

theorem keepsControl_divideInto (s : State) (d : VReg) (a b : List Fp)
    (value : List Fp → List Fp → List Fp) : KeepsControl s (divideInto s d a b value) :=
  keepsControl_bind fun _ => keepsControl_ite (keepsControl_noResult s d) <|
    keepsControl_bind fun _ => keepsControl_result_writeNores s d _ _

theorem keepsControl_transformInto (s : State) (d : VReg) (a : List Fp) (w : Fp)
    (value : Fp → List Fp → List Fp) : KeepsControl s (transformInto s d a w value) :=
  keepsControl_bind fun _ => keepsControl_ite (keepsControl_result s d _) <|
    keepsControl_bind fun _ => keepsControl_result s d _

theorem keepsControl_fastInto (s : State) (d : VReg) (a b : List Fp) (da db : Nat) (w : Fp) (ord : Nat) :
    KeepsControl s (fastInto s d a b da db w ord) :=
  keepsControl_bind fun _ => keepsControl_bind fun _ => keepsControl_bind fun _ => keepsControl_result s d _

theorem keepsControl_fastMulInto (s : State) (d : VReg) (a b : List Fp) (w : Fp) (ord : Nat) :
    KeepsControl s (fastMulInto s d a b w ord) := by
  obtain ⟨-, h⟩ | ⟨-, h⟩ | ⟨da, db, -, -, -, -, h⟩ := fastMulInto_cases s d a b w ord
  · rw [h]; exact keepsControl_error s _
  · rw [h]; exact keepsControl_result s d _
  · rw [h]; exact keepsControl_fastInto s d a b da db w ord

/-- BGET reads the buffer by a match of its own, not by a primitive of R7 (40_host_data.md R59). -/
theorem execBget_eq_command (xd xa : XReg) (s : State) :
    ∃ r, execBget xd xa s = command (.bget xd xa) s r ∧ KeepsControl s r := by
  refine ⟨_, rfl, ?_⟩
  cases s.bb[uVal (getX s xa)]? with
  | none => exact keepsControl_error s _
  | some b => exact keepsControl_ok rfl

/-- Every command is the ending `command` of a rule that leaves the control part as it was. -/
theorem exec_eq_command (i : Instr) (s : State) : ∃ r, exec i s = command i s r ∧ KeepsControl s r := by
  cases i with
  | nop | xli | xld | xout | fld | fout | bclr | blen | fsetu | fsets | fbig | fbign | fbytes | fsample | fser
  | ftox | fmov | fadd | fsub | fmul | fexp | fexpx | fcmp | frord | vclr =>
    exact ⟨.ok _, rfl, keepsControl_ok rfl⟩
  | bpushi | bpush => exact ⟨_, rfl, keepsControl_pushByte s _⟩
  | bget xd xa => exact execBget_eq_command xd xa s
  | fdiv | finv | froot | vlen | vtrim | vmov | vrev | vdeg | visz | veval =>
    exact ⟨_, rfl, keepsControl_bind fun _ => keepsControl_ok rfl⟩
  | vget | vset | vabs | vpres | vtrunc | veq | vevalq =>
    exact ⟨_, rfl, keepsControl_bind fun _ => keepsControl_bind fun _ => keepsControl_ok rfl⟩
  | vpad =>
    exact ⟨_, rfl, keepsControl_bind fun _ => keepsControl_bind fun _ => keepsControl_bind fun _ =>
      keepsControl_ok rfl⟩
  | vpush d | vscale d | vpow d =>
    exact ⟨_, rfl, keepsControl_bind fun _ => keepsControl_result s d _⟩
  | vminv d | vadd d | vsub d | vmul d | vevald d | vzero d =>
    exact ⟨_, rfl, keepsControl_bind fun _ => keepsControl_bind fun _ => keepsControl_result s d _⟩
  | vsubsl d =>
    exact ⟨_, rfl, keepsControl_bind fun _ => keepsControl_ite (keepsControl_noResult s d) (keepsControl_ok rfl)⟩
  | vdiv d | vmod d =>
    exact ⟨_, rfl, keepsControl_bind fun _ => keepsControl_bind fun _ => keepsControl_divideInto s d _ _ _⟩
  | vinterp d =>
    exact ⟨_, rfl, keepsControl_bind fun _ => keepsControl_bind fun _ =>
      keepsControl_ite (keepsControl_noResult s d) <| keepsControl_ite (keepsControl_noResult s d) <|
        keepsControl_result_writeNores s d _ _⟩
  | vntt d | vintt d =>
    exact ⟨_, rfl, keepsControl_bind fun _ => keepsControl_transformInto s d _ _ _⟩
  | vfmul d =>
    exact ⟨_, rfl, keepsControl_bind fun _ => keepsControl_bind fun _ => keepsControl_fastMulInto s d _ _ _ _⟩

/-- All a command can do: complete a state whose control part is the old one, or enter the FATAL state from the state
it began in. -/
theorem exec_cases (i : Instr) (s : State) :
    (∃ s', exec i s = .next (complete s') ∧ controlOf s' = controlOf s) ∨
    ∃ c, exec i s = .next (fatalEntry s c (encode i)) := by
  obtain ⟨r, he, hr⟩ := exec_eq_command i s
  cases r with
  | ok s' => exact .inl ⟨s', he, hr s' rfl⟩
  | error c => exact .inr ⟨c, he⟩

/-- Settles O7: `complete` adds one to CMDCNT and keeps the rest of the control part, and `fatalEntry` is the fatal
error of the statement. -/
theorem everyCommandCompletesOrIsFatal : Obligations.EveryCommandCompletesOrIsFatal := by
  intro i s hf
  obtain ⟨s', he, hc⟩ | ⟨c, he⟩ := exec_cases i s
  · injection hc with hfatal hcause hcmdcnt hfaultcmd
    exact .inl ⟨complete s', he, hfatal.trans hf, congrArg (· + 1) hcmdcnt, hcause, hfaultcmd⟩
  · exact .inr ⟨c, he⟩

/-! ### The host window (20_memory.md R31, R32) -/

/-- The command a host write to CMD issues, as a number: the word modulo `2^32` (R31). -/
theorem commandWord_eq_ofNat (w : Word) : commandWord w = BitVec.ofNat 32 w.toNat :=
  BitVec.eq_of_toNat_eq (by simp [commandWord])

theorem windowReg_eq_cmd_iff (a : BitVec 4) : windowReg a = .cmd ↔ a = 0x0 := by
  revert a; decide

theorem windowReg_eq_din_iff (a : BitVec 4) : windowReg a = .din ↔ a = 0x1 := by
  revert a; decide

theorem windowReg_eq_ctrl_iff (a : BitVec 4) : windowReg a = .ctrl ↔ a = 0x6 := by
  revert a; decide

theorem windowReg_of_ge {a : BitVec 4} (h : 0xC ≤ a.toNat) : windowReg a = .reserved := by
  revert a; decide

/-- Only CMD, DIN and CTRL take a write (R31). -/
theorem windowWrite_ignored (s : State) (w : Word) {r : WindowReg} (hcmd : r ≠ .cmd) (hdin : r ≠ .din)
    (hctrl : r ≠ .ctrl) : windowWrite s r w = .next s := by
  cases r with
  | cmd | din | ctrl => contradiction
  | _ => rfl

theorem performAccess_write_cmd (s : State) (w : Word) :
    performAccess (.write 0x0 w) s = issueCommand (commandWord w) s := rfl

theorem performAccess_write_ctrl (s : State) (w : Word) :
    performAccess (.write 0x6 w) s = .next (ctrlWrite s w) := rfl

theorem ctrlWrite_of_set {s : State} {w : Word} (h : w.getLsbD 0 = true) : ctrlWrite s w = resetUnit s :=
  if_pos h

theorem ctrlWrite_of_clear {s : State} {w : Word} (h : w.getLsbD 0 = false) : ctrlWrite s w = s :=
  if_neg (ne_true_of_eq_false h)

/-- Settles O5: the first access is a write to CMD, whose word decodes, so `issueCommand` runs the command. -/
theorem stepRunsTheDecodedCommand : Obligations.StepRunsTheDecodedCommand := by
  refine ⟨fun s w rest i hf hh hd => ?_, fun _ _ _ => step_of_cons, fun _ => step_of_nil, fun _ _ => rfl⟩
  rw [step_of_cons hh, performAccess_write_cmd]
  exact issueCommand_of_some hf hd

/-- Settles O13: a read is one case of the map for each address; of the writes, CMD, DIN and CTRL have an arm each and
all others are ignored. -/
theorem windowFollowsTheMap : Obligations.WindowFollowsTheMap := by
  refine ⟨fun s a value h => ?_, fun s a w => ⟨?_, ?_, ?_, ?_, ?_⟩⟩
  · -- CMD to ROOTORDER are values by definition; LMAXR and BMAXR are open constants that fit in a word.
    iterate 10
      obtain ⟨rfl, rfl⟩ | h := h
      · rfl
    obtain ⟨rfl, hl⟩ | ⟨rfl, hb⟩ | ⟨ha, rfl⟩ := h
    · exact BitVec.eq_of_toNat_eq ((toNat_zext_of_lt LMAX_lt_word).trans hl.symm)
    · exact BitVec.eq_of_toNat_eq ((toNat_zext_of_lt (BMAX_lt.trans (by decide))).trans hb.symm)
    · rw [windowReg_of_ge ha, windowRead]
  · rintro rfl
    rw [performAccess_write_cmd, commandWord_eq_ofNat]
  · rintro rfl
    rfl
  · rintro rfl hw
    rw [performAccess_write_ctrl, ctrlWrite_of_set hw, resetUnit]
  · rintro rfl hw
    rw [performAccess_write_ctrl, ctrlWrite_of_clear hw]
  · intro hcmd hdin hctrl
    exact windowWrite_ignored s w (mt (windowReg_eq_cmd_iff a).1 hcmd) (mt (windowReg_eq_din_iff a).1 hdin)
      (mt (windowReg_eq_ctrl_iff a).1 hctrl)

end Sys2Proof.Machine

namespace Sys2Proof

open Machine

/-! ### What each format reads from the word it packs (30_encoding.md R41, R42, R44) -/

section formats
variable (op : BitVec 8) (d a b c e : Fin 16)

@[simp] theorem decodeZ_packRegs (i : Instr) : decodeZ (packRegs op 0 0 0 0 0) i = some i := by
  simp [decodeZ, ifZero]

@[simp] theorem decodeD_packRegs (k : Fin 16 → Instr) : decodeD (packRegs op d 0 0 0 0) k = some (k d) := by
  simp [decodeD, ifZero]

@[simp] theorem decodeA_packRegs (k : Fin 16 → Instr) : decodeA (packRegs op 0 a 0 0 0) k = some (k a) := by
  simp [decodeA, ifZero]

@[simp] theorem decodeDA_packRegs (k : Fin 16 → Fin 16 → Instr) :
    decodeDA (packRegs op d a 0 0 0) k = some (k d a) := by
  simp [decodeDA, ifZero]

@[simp] theorem decodeAB_packRegs (k : Fin 16 → Fin 16 → Instr) :
    decodeAB (packRegs op 0 a b 0 0) k = some (k a b) := by
  simp [decodeAB, ifZero]

@[simp] theorem decodeDB_packRegs (k : Fin 16 → Fin 16 → Instr) :
    decodeDB (packRegs op d 0 b 0 0) k = some (k d b) := by
  simp [decodeDB, ifZero]

@[simp] theorem decodeDAB_packRegs (k : Fin 16 → Fin 16 → Fin 16 → Instr) :
    decodeDAB (packRegs op d a b 0 0) k = some (k d a b) := by
  simp [decodeDAB, ifZero]

@[simp] theorem decodeDABC_packRegs (k : Fin 16 → Fin 16 → Fin 16 → Fin 16 → Instr) :
    decodeDABC (packRegs op d a b c 0) k = some (k d a b c) := by
  simp [decodeDABC, ifZero]

@[simp] theorem decodeDABCE_packRegs (k : Fin 16 → Fin 16 → Fin 16 → Fin 16 → Fin 16 → Instr) :
    decodeDABCE (packRegs op d a b c e) k = some (k d a b c e) := by
  simp [decodeDABCE, ifZero]

@[simp] theorem decodeI16_packI16 (imm : BitVec 16) (k : Fin 16 → BitVec 16 → Instr) :
    decodeI16 (packI16 op d imm) k = some (k d imm) := by
  simp [decodeI16, ifZero]

@[simp] theorem decodeI8_packI8 (imm : BitVec 8) (k : BitVec 8 → Instr) :
    decodeI8 (packI8 op imm) k = some (k imm) := by
  simp [decodeI8, ifZero]

end formats

/-- Settles O1: the opcode of the packed word selects the command's arm of the decoder, and the arm's format reads
back what the encoder packed. -/
theorem decodeOfEncodeIsTheInstruction : Obligations.DecodeOfEncodeIsTheInstruction := by
  intro i
  cases i with
  | nop | bclr => rw [encode, decode, opField_packRegs]; exact decodeZ_packRegs ..
  | xld | fld | blen | fbig | fbign | fbytes | fsample | frord | vclr =>
    rw [encode, decode, opField_packRegs]; exact decodeD_packRegs ..
  | xout | fout | bpush | fser | visz => rw [encode, decode, opField_packRegs]; exact decodeA_packRegs ..
  | bget | fsetu | fsets | ftox | fmov | finv | fexp | froot | vminv | vpush | vlen | vtrim | vmov | vrev | vdeg
  | vzero => rw [encode, decode, opField_packRegs]; exact decodeDA_packRegs ..
  | fcmp | veq => rw [encode, decode, opField_packRegs]; exact decodeAB_packRegs ..
  | vabs => rw [encode, decode, opField_packRegs]; exact decodeDB_packRegs ..
  | fadd | fsub | fmul | fdiv | fexpx | vget | vset | vpres | vpad | vtrunc | vadd | vsub | vmul | vdiv | vmod
  | vscale | veval | vevald | vevalq | vinterp | vpow | vntt | vintt =>
    rw [encode, decode, opField_packRegs]; exact decodeDAB_packRegs ..
  | vsubsl => rw [encode, decode, opField_packRegs]; exact decodeDABC_packRegs ..
  | vfmul => rw [encode, decode, opField_packRegs]; exact decodeDABCE_packRegs ..
  | xli => rw [encode, decode, opField_packI16]; exact decodeI16_packI16 ..
  | bpushi => rw [encode, decode, opField_packI8]; exact decodeI8_packI8 ..

/-! ### The unused bits of a format, and a word packed again from its own fields -/

/-- Bits that are 0 are 0 in every part of their range. -/
theorem bitsZero_of_subrange {w : CmdWord} {lo n : Nat} (h : bitsZero w lo n = true) {lo' n' : Nat}
    (hlo : lo ≤ lo') (hn : lo' + n' ≤ lo + n) : bitsZero w lo' n' = true := by
  rw [bitsZero, beq_iff_eq] at h ⊢
  apply BitVec.eq_of_getLsbD_eq
  intro j hj
  have hbit := congrArg (BitVec.getLsbD · (lo' - lo + j)) h
  have hin : lo' - lo + j < n := by omega
  have hat : lo + (lo' - lo + j) = lo' + j := by omega
  simpa [hj, hin, hat] using hbit

theorem regField_eq_zero {w : CmdWord} {lo n : Nat} (h : bitsZero w lo n = true) {lo' : Nat}
    (hlo : lo ≤ lo') (hn : lo' + 4 ≤ lo + n) : regField w lo' = 0 := by
  have h4 := bitsZero_of_subrange h hlo hn
  rw [bitsZero, beq_iff_eq] at h4
  rw [regField, h4]
  rfl

/-- The bits of `w` that the format does not use are 0 (R42): the test the decoder makes for the format. -/
def Format.unusedZero (w : CmdWord) : Format → Bool
  | .z => bitsZero w 0 24
  | .d => bitsZero w 0 20
  | .a => bitsZero w 20 4 && bitsZero w 0 16
  | .da => bitsZero w 0 16
  | .ab => bitsZero w 20 4 && bitsZero w 0 12
  | .db => bitsZero w 16 4 && bitsZero w 0 12
  | .dab => bitsZero w 0 12
  | .dabc => bitsZero w 0 8
  | .dabce => bitsZero w 0 4
  | .i16 => bitsZero w 16 4
  | .i8 => bitsZero w 8 16

/-- The word of row `r` packed from the fields of `w` that its format uses (R42). -/
def OpcodeRow.repack (r : OpcodeRow) (w : CmdWord) : CmdWord :=
  match r.format with
  | .z => packRegs r.opcode 0 0 0 0 0
  | .d => packRegs r.opcode (rdField w) 0 0 0 0
  | .a => packRegs r.opcode 0 (raField w) 0 0 0
  | .da => packRegs r.opcode (rdField w) (raField w) 0 0 0
  | .ab => packRegs r.opcode 0 (raField w) (rbField w) 0 0
  | .db => packRegs r.opcode (rdField w) 0 (rbField w) 0 0
  | .dab => packRegs r.opcode (rdField w) (raField w) (rbField w) 0 0
  | .dabc => packRegs r.opcode (rdField w) (raField w) (rbField w) (rcField w) 0
  | .dabce => packRegs r.opcode (rdField w) (raField w) (rbField w) (rcField w) (reField w)
  | .i16 => packI16 r.opcode (rdField w) (w.extractLsb' 0 16)
  | .i8 => packI8 r.opcode (w.extractLsb' 0 8)

/-- The mask test of a row asks for its opcode and for zeros in the bits its format does not use. -/
theorem spells_iff_unusedZero (r : OpcodeRow) (w : CmdWord) :
    r.spells w = true ↔ opField w = r.opcode ∧ r.format.unusedZero w = true := by
  obtain ⟨op, fmt⟩ := r
  rw [spells_iff]
  cases fmt <;> simp [Format.unusedZero]

theorem opField_eq_of_spells {r : OpcodeRow} {w : CmdWord} (h : r.spells w = true) : opField w = r.opcode :=
  ((spells_iff_unusedZero r w).1 h).1

/-- No bit of a word that spells a row is lost when the word is packed again. -/
theorem repack_eq_of_spells {r : OpcodeRow} {w : CmdWord} (h : r.spells w = true) : r.repack w = w := by
  obtain ⟨hop, hz⟩ := (spells_iff_unusedZero r w).1 h
  obtain ⟨op, fmt⟩ := r
  obtain rfl : opField w = op := hop
  cases fmt with
  | i16 => exact (eq_packI16_of_zero hz).symm
  | i8 => exact (eq_packI8_of_zero hz).symm
  | a | ab | db =>
    obtain ⟨hhigh, hlow⟩ := Bool.and_eq_true_iff.1 hz
    refine Eq.trans ?_ (eq_packRegs_of_low_zero (bitsZero_of_subrange hlow (by omega) (by omega))).symm
    simp [OpcodeRow.repack, rdField, raField, rbField, rcField, reField, regField_eq_zero hhigh,
      regField_eq_zero hlow]
  | z | d | da | dab | dabc | dabce =>
    refine Eq.trans ?_ (eq_packRegs_of_low_zero (bitsZero_of_subrange hz (by omega) (by omega))).symm
    simp [OpcodeRow.repack, rdField, raField, rbField, rcField, reField, regField_eq_zero hz]

/-! ### The decoder row by row of the opcode map (R40, R45) -/

/-- The arm of the decoder for a row of the opcode map: it tests the bits the row's format does not use, and its
command is encoded from the fields of the word. -/
theorem decode_of_row : ∀ r ∈ opcodeMap, ∀ {w : CmdWord}, opField w = r.opcode →
    ∃ i, decode w = ifZero (r.format.unusedZero w) i ∧ encode i = r.repack w := by
  simp only [opcodeMap, hostDataRows, fieldRows, polyStructRows, polyArithRows, transformRows, List.cons_append,
    List.nil_append, List.forall_mem_cons]
  and_intros
  rotate_right
  · exact fun _ h => absurd h List.not_mem_nil
  all_goals
    intro w hw
    rw [decode, hw]
    exact ⟨_, rfl, rfl⟩

/-- The opcode of a word that decodes has a row. -/
theorem exists_row_of_decode {w : CmdWord} {i : Instr} (h : decode w = some i) :
    ∃ r ∈ opcodeMap, opField w = r.opcode := by
  have hrow : ∃ r ∈ opcodeMap, (opField w).toNat = r.opcode.toNat := by
    unfold decode at h
    split at h
    rotate_right
    · contradiction
    all_goals
      rename_i hop
      rw [hop]
      decide
  obtain ⟨r, hr, hop⟩ := hrow
  exact ⟨r, hr, BitVec.eq_of_toNat_eq hop⟩

/-- A word that decodes spells a row of the opcode map and is the encoding of the command it decodes to. -/
theorem spells_and_encode_of_decode {w : CmdWord} {i : Instr} (h : decode w = some i) :
    (∃ r ∈ opcodeMap, r.spells w = true) ∧ encode i = w := by
  obtain ⟨r, hr, hop⟩ := exists_row_of_decode h
  obtain ⟨j, hd, he⟩ := decode_of_row r hr hop
  rw [hd, ifZero, Option.ite_none_right_eq_some] at h
  obtain ⟨hz, hji⟩ := h
  have hs : r.spells w = true := (spells_iff_unusedZero r w).2 ⟨hop, hz⟩
  obtain rfl : j = i := Option.some.inj hji
  exact ⟨⟨r, hr, hs⟩, he.trans (repack_eq_of_spells hs)⟩

/-- Settles O2, by the row whose arm decoded the word. -/
theorem encodeOfDecodeIsTheWord : Obligations.EncodeOfDecodeIsTheWord :=
  fun _ _ h => (spells_and_encode_of_decode h).2

/-! ### Legal and illegal words (R45) -/

theorem wordLegal_iff_exists_row (w : CmdWord) : wordLegal w = true ↔ ∃ r ∈ opcodeMap, r.spells w = true :=
  List.any_eq_true

theorem exists_decode_of_spells {r : OpcodeRow} (hr : r ∈ opcodeMap) {w : CmdWord} (h : r.spells w = true) :
    ∃ i, decode w = some i := by
  obtain ⟨hop, hz⟩ := (spells_iff_unusedZero r w).1 h
  obtain ⟨i, hd, -⟩ := decode_of_row r hr hop
  exact ⟨i, hd.trans (if_pos hz)⟩

theorem wordLegal_iff_exists_decode (w : CmdWord) : wordLegal w = true ↔ ∃ i, decode w = some i := by
  rw [wordLegal_iff_exists_row]
  constructor
  · rintro ⟨r, hr, hs⟩
    exact exists_decode_of_spells hr hs
  · rintro ⟨i, hd⟩
    exact (spells_and_encode_of_decode hd).1

theorem decode_eq_none_of_not_legal {w : CmdWord} (h : wordLegal w = false) : decode w = none := by
  rw [Option.eq_none_iff_forall_ne_some]
  intro i hd
  exact ne_true_of_eq_false h ((wordLegal_iff_exists_decode w).2 ⟨i, hd⟩)

/-- No opcode has two rows. -/
theorem nodup_opcodes : (opcodeMap.map OpcodeRow.opcode).Nodup := by decide

/-- 194 of the 256 opcodes have no row. -/
theorem length_unassigned_opcodes :
    ((List.range 256).filter fun n => opcodeMap.all fun r => r.opcode.toNat != n).length = 194 := by
  decide +kernel

theorem row_eq_of_spells {r r' : OpcodeRow} (hr : r ∈ opcodeMap) (hr' : r' ∈ opcodeMap) {w : CmdWord}
    (h : r.spells w = true) (h' : r'.spells w = true) : r' = r :=
  List.inj_on_of_nodup_map nodup_opcodes hr' hr ((opField_eq_of_spells h').symm.trans (opField_eq_of_spells h))

/-- Settles O3: the row a word spells is the row of its opcode, and no opcode has two. -/
theorem illegalWordsAreExactlyTheUnspelled : Obligations.IllegalWordsAreExactlyTheUnspelled := by
  refine ⟨wordLegal_iff_exists_decode, fun w hw => ?_, fun w s hf hw => ?_, length_unassigned_opcodes, by decide⟩
  · obtain ⟨r, hr, hs⟩ := (wordLegal_iff_exists_row w).1 hw
    exact ⟨r, hr, hs, fun r' hr' hs' => row_eq_of_spells hr hr' hs hs'⟩
  · exact issueCommand_of_none hf (decode_eq_none_of_not_legal hw)

/-- Settles O4, by running the decoder on the ten words. -/
theorem wordsOfTheSpecDecode : Obligations.WordsOfTheSpecDecode := by
  unfold Obligations.WordsOfTheSpecDecode
  decide

end Sys2Proof

namespace Sys2Proof.Machine

/-! ### Encodings of single commands (30_encoding.md R40 to R42) -/

/-- The word `encode` packs for a command spells it. -/
theorem spelledBy_encode (i : Instr) : spelledBy i (encode i) := ⟨rfl, decodeOfEncodeIsTheInstruction i⟩

/-! ### The end of a command

`command`, with the state it leaves written out field by field. -/

theorem command_setX (i : Instr) (s : State) (d : XReg) (w : Word) :
    command i s (.ok (setX s d w)) = .next { s with x := writeReg s.x d w, cmdcnt := s.cmdcnt + 1 } := rfl

theorem command_setF (i : Instr) (s : State) (d : FReg) (a : Fp) :
    command i s (.ok (setF s d a)) = .next { s with f := writeReg s.f d a, cmdcnt := s.cmdcnt + 1 } := rfl

theorem endsFatal_of_error {i : Instr} {s : State} {r : Except Cause State} {c : Cause}
    (hexec : exec i s = command i s r) (hr : r = .error c) : endsFatal i s c := by
  rw [endsFatal, hexec, hr, command_error, fatalEntry]

/-! ### Words and bytes (00_scope.md R4, R44) -/

theorem zextImm16_eq_ofNat (imm : BitVec 16) : zextImm16 imm = BitVec.ofNat 64 imm.toNat :=
  (BitVec.ofNat_toNat 64 imm).symm

theorem zextByte_eq_ofNat (b : Byte) : zextByte b = BitVec.ofNat 64 b.toNat := (BitVec.ofNat_toNat 64 b).symm

theorem lowByte_eq_ofNat (w : Word) : lowByte w = BitVec.ofNat 8 w.toNat := BitVec.eq_of_toNat_eq (by simp [lowByte])

/-- A word is below `2p`, so its residue takes at most one subtraction (R54). -/
theorem word_mod_modulus (w : Word) :
    w.toNat % modulus = if w.toNat < modulus then w.toNat else w.toNat - modulus := by
  have hw : w.toNat < 2 * modulus := w.isLt.trans (by decide)
  split
  · next hlt => exact Nat.mod_eq_of_lt hlt
  · next hge => rw [Nat.mod_eq_sub_mod (Nat.not_lt.1 hge), Nat.mod_eq_of_lt (by omega)]

theorem toNat_zext_fp (a : Fp) : (zext a.val).toNat = a.val := toNat_zext_of_lt (a.isLt.trans (by decide))

/-! ### Data movement and byte buffer (40_host_data.md) -/

/-- Settles O22: the three rules compute a state in every case. -/
theorem nopBclrBlen : Obligations.NopBclrBlen := by
  intro s d
  exact ⟨spelledBy_encode .nop, rfl, spelledBy_encode .bclr, rfl, spelledBy_encode (.blen d),
    command_setX (.blen d) s d _⟩

/-- Settles O23: XLI's zero extension is the word of the immediate's value; XLD and XOUT move a word as it is. -/
theorem integerRegisterMoves : Obligations.IntegerRegisterMoves := by
  intro s d a imm
  refine ⟨spelledBy_encode (.xli d imm), ?_, spelledBy_encode (.xld d), command_setX (.xld d) s d _,
    spelledBy_encode (.xout a), rfl⟩
  rw [← zextImm16_eq_ofNat]
  exact command_setX (.xli d imm) s d _

/-- Settles O24: FLD writes the residue of DIN; FOUT writes a canonical value, which fits in a word. -/
theorem fieldRegisterMovesToTheHost : Obligations.FieldRegisterMovesToTheHost := by
  intro s d a
  have hfout : (zext (getF s a).val).toNat = (getF s a).val := toNat_zext_fp _
  exact ⟨spelledBy_encode (.fld d),
    ⟨Fp.ofNat s.din.toNat, Fp.ofNat_val _, word_mod_modulus s.din, command_setF (.fld d) s d _⟩,
    spelledBy_encode (.fout a), zext (getF s a).val, hfout, hfout.trans_lt (getF s a).isLt, rfl⟩

/-- A command whose rule appends a byte is fatal with CAPACITY on a full buffer (R57, R58). -/
theorem endsFatal_of_pushByte {i : Instr} {s : State} {b : Byte} (hexec : exec i s = command i s (pushByte s b))
    (hfull : s.bb.length = BMAX) : endsFatal i s .capacity :=
  endsFatal_of_error hexec (pushByte_eq_error.2 ⟨hfull, rfl⟩)

/-- A command whose rule appends a byte completes with the byte appended on a buffer that is not full (R57, R58). -/
theorem exec_of_pushByte {i : Instr} {s : State} {b : Byte} (hexec : exec i s = command i s (pushByte s b))
    (hroom : s.bb.length ≠ BMAX) :
    exec i s = .next { s with bb := s.bb ++ [b], cmdcnt := s.cmdcnt + 1 } := by
  rw [hexec, pushByte_eq_ok.2 ⟨hroom, rfl⟩, command_ok, complete]

/-- Settles O25: both commands end in `pushByte`, BPUSH with the low byte of its source. -/
theorem bytePushes : Obligations.BytePushes := by
  intro s imm a
  have hbpushi : exec (.bpushi imm) s = command (.bpushi imm) s (pushByte s imm) := rfl
  have hbpush : exec (.bpush a) s = command (.bpush a) s (pushByte s (BitVec.ofNat 8 (getX s a).toNat)) := by
    rw [← lowByte_eq_ofNat]
    rfl
  exact ⟨spelledBy_encode (.bpushi imm), endsFatal_of_pushByte hbpushi, exec_of_pushByte hbpushi,
    spelledBy_encode (.bpush a), endsFatal_of_pushByte hbpush, exec_of_pushByte hbpush⟩

theorem exec_bget_of_ge {s : State} {a : XReg} (d : XReg) (h : s.bb.length ≤ (getX s a).toNat) :
    exec (.bget d a) s = command (.bget d a) s (.error .index) := by
  have hnone : s.bb[uVal (getX s a)]? = none := List.getElem?_eq_none h
  rw [exec, execBget, hnone]

theorem exec_bget_of_getElem? {s : State} {a : XReg} {b : Byte} (d : XReg) (h : s.bb[(getX s a).toNat]? = some b) :
    exec (.bget d a) s = command (.bget d a) s (.ok (setX s d (zextByte b))) := by
  have hsome : s.bb[uVal (getX s a)]? = some b := h
  rw [exec, execBget, hsome]

/-- Settles O26: the read of the buffer at the index gives no byte at or beyond its length, and the byte below it. -/
theorem bgetReadsAByte : Obligations.BgetReadsAByte := by
  intro s d a
  refine ⟨spelledBy_encode (.bget d a), fun hge => endsFatal_of_error (exec_bget_of_ge d hge) rfl, fun b hb => ?_⟩
  rw [exec_bget_of_getElem? d hb, zextByte_eq_ofNat, command_setX]

end Sys2Proof.Machine

namespace Sys2Proof.Machine

/-! ### Products and powers as residues (00_scope.md R5)

A congruence of integer values, as the rules write it, is an equation in the field of integers modulo `p`. -/

theorem Fp.mul_val_mod_eq_iff {a b c : Fp} :
    a.val * b.val % modulus = c.val ↔ Fp.toZ a * Fp.toZ b = Fp.toZ c := by
  rw [← Fp.mul_val, ← Fin.ext_iff, ← Fp.toZ_inj, Fp.toZ_mul]

theorem Fp.pow_val_mod_eq_one_iff {a : Fp} {n : Nat} : a.val ^ n % modulus = 1 ↔ Fp.toZ a ^ n = 1 := by
  rw [← Fp.pow_val, ← Fp.one_val, ← Fin.ext_iff, ← Fp.toZ_inj, Fp.toZ_pow, Fp.toZ_one]

theorem Fp.toZ_mul_right_cancel {a b c : Fp} (hb : b ≠ 0) (h : Fp.toZ a * Fp.toZ b = Fp.toZ c * Fp.toZ b) :
    a = c := by
  have : Fact modulus.Prime := ⟨modulus_prime⟩
  exact Fp.toZ_inj.1 (mul_right_cancel₀ (Fp.toZ_ne_zero hb) h)

theorem Fp.mul_ne_zero {a b : Fp} (ha : a ≠ 0) (hb : b ≠ 0) : Fp.mul a b ≠ 0 := by
  intro h
  have hz : Fp.toZ a * Fp.toZ b = Fp.toZ 0 * Fp.toZ b := by rw [← Fp.toZ_mul, h, Fp.toZ_zero, zero_mul]
  exact ha (Fp.toZ_mul_right_cancel hb hz)

/-- The inverse of a non-zero element is unique (R65). -/
theorem Fp.eq_inv_of_toZ_mul {a c : Fp} (ha : a ≠ 0) (h : Fp.toZ c * Fp.toZ a = 1) : c = Fp.inv a :=
  Fp.toZ_mul_right_cancel ha (h.trans (Fp.toZ_inv a ha).symm)

theorem Fp.val_mul_inv {a : Fp} (ha : a ≠ 0) : a.val * (Fp.inv a).val % modulus = 1 :=
  (Fp.mul_val_mod_eq_iff (c := 1)).2 (by rw [mul_comm, Fp.toZ_inv a ha, Fp.toZ_one])

theorem Fp.eq_inv_of_val_mul {a c : Fp} (ha : a ≠ 0) (h : a.val * c.val % modulus = 1) : c = Fp.inv a :=
  Fp.eq_inv_of_toZ_mul ha (by rw [mul_comm, Fp.mul_val_mod_eq_iff.1 (h.trans Fp.one_val.symm), Fp.toZ_one])

theorem Fp.val_div_mul (a : Fp) {b : Fp} (hb : b ≠ 0) : (Fp.div a b).val * b.val % modulus = a.val :=
  Fp.mul_val_mod_eq_iff.2 (Fp.toZ_div_mul a hb)

theorem Fp.eq_div_of_val_mul {a b c : Fp} (hb : b ≠ 0) (h : c.val * b.val % modulus = a.val) :
    c = Fp.div a b :=
  Fp.toZ_mul_right_cancel hb ((Fp.mul_val_mod_eq_iff.1 h).trans (Fp.toZ_div_mul a hb).symm)

/-! ### Sums, differences and signed residues with at most one correction (41_field.md R65, R67, R69) -/

theorem Fp.add_val_eq_ite (a b : Fp) :
    (Fp.add a b).val = if a.val + b.val < modulus then a.val + b.val else a.val + b.val - modulus := by
  have ha := a.isLt
  have hb := b.isLt
  rw [Fp.add_val]
  split
  · next hlt => exact Nat.mod_eq_of_lt hlt
  · next hge => rw [Nat.mod_eq_sub_mod (Nat.not_lt.1 hge), Nat.mod_eq_of_lt (by omega)]

theorem Fp.sub_val_eq_ite (a b : Fp) :
    (Fp.sub a b).val = if b.val ≤ a.val then a.val - b.val else a.val + modulus - b.val := by
  have ha := a.isLt
  have hb := b.isLt
  rw [Fp.sub_val]
  split
  · next hle => rw [Nat.mod_eq_sub_mod (by omega), Nat.mod_eq_of_lt (by omega)]; omega
  · next hlt => rw [Nat.mod_eq_of_lt (by omega)]; omega

/-- A word read as signed is within `p` of the canonical range on either side (R67). -/
theorem toInt_emod_modulus (w : Word) :
    w.toInt % (modulus : Int) = if 0 ≤ w.toInt then w.toInt else w.toInt + (modulus : Int) := by
  have hlow : -2 ^ 63 ≤ w.toInt := BitVec.le_toInt w
  have hhigh : w.toInt < 2 ^ 63 := BitVec.toInt_lt
  have hp : (modulus : Int) = 18446744069414584321 := rfl
  rw [hp]
  split <;> omega

/-- The residue of a negated natural number (R69). -/
theorem Fp.ofInt_neg_val (n : Nat) :
    (Fp.ofInt (-(n : Int))).val = if n % modulus = 0 then 0 else modulus - n % modulus := by
  have h := Fp.ofInt_val (-(n : Int))
  have hlt : n % modulus < modulus := Nat.mod_lt n (by decide)
  simp only [Int.neg_emod, Int.natCast_dvd_natCast, Int.natAbs_natCast, ← Int.natCast_mod,
    Nat.dvd_iff_mod_eq_zero] at h
  split_ifs at h ⊢ <;> omega

/-! ### The integer of a byte string (00_scope.md R7) -/

theorem intBe_append_singleton (bytes : List Byte) (b : Byte) :
    intBe (bytes ++ [b]) = intBe bytes * 256 + b.toNat := by
  simp [intBe]

/-- One more byte shifts every weight of the sum by one place. -/
theorem intBeSum_append_singleton (bytes : List Byte) (b : Byte) :
    intBeSum (bytes ++ [b]) = intBeSum bytes * 256 + b.toNat := by
  have hlast : (bytes ++ [b]).getD bytes.length 0 = b := by simp
  rw [intBeSum, List.length_append, List.length_singleton, Finset.sum_range_succ, hlast, Nat.add_sub_cancel,
    Nat.sub_self, pow_zero, mul_one, intBeSum, Finset.sum_mul]
  congr 1
  refine Finset.sum_congr rfl fun k hk => ?_
  have hk : k < bytes.length := Finset.mem_range.1 hk
  have hw : bytes.length - k = bytes.length - 1 - k + 1 := by omega
  rw [List.getD_append _ _ _ _ hk, hw, pow_succ, mul_assoc]

/-- The accumulation of R71 computes the weighted sum of R7. -/
theorem intBe_eq_intBeSum (bytes : List Byte) : intBe bytes = intBeSum bytes := by
  induction bytes using List.reverseRecOn with
  | nil => rfl
  | append_singleton bytes b ih => rw [intBe_append_singleton, intBeSum_append_singleton, ih]

theorem val_lt_word (a : Fp) : a.val < 2 ^ 64 := a.isLt.trans (by decide)

/-- Byte `k` of `be8` is a bit slice of the 64-bit word (R72). -/
theorem be8_eq_map_extract {n : Nat} (h : n < 2 ^ 64) :
    be8 n = (List.range 8).map fun k => (BitVec.ofNat 64 n).extractLsb' (56 - 8 * k) 8 := by
  refine List.map_congr_left fun k hk => BitVec.eq_of_toNat_eq ?_
  have hk : k < 8 := List.mem_range.1 hk
  have hweight : 256 ^ (7 - k) = 2 ^ (56 - 8 * k) := by
    rw [show 56 - 8 * k = 8 * (7 - k) by omega]
    exact (pow_mul 2 8 (7 - k)).symm
  rw [BitVec.toNat_ofNat, BitVec.extractLsb'_toNat, BitVec.toNat_ofNat, Nat.mod_eq_of_lt h,
    Nat.shiftRight_eq_div_pow, hweight]

/-- Eight bytes hold every 64-bit number (R72). -/
theorem intBe_be8 {n : Nat} (h : n < 2 ^ 64) : intBe (be8 n) = n := by
  simp [intBe, be8, List.range_succ]
  omega

/-! ### Field commands (41_field.md) -/

/-- Settles O27: FSETU reduces the unsigned reading; FSETS corrects the signed reading by at most one `p`. -/
theorem constructionFromAnInteger : Obligations.ConstructionFromAnInteger := by
  intro s d a
  have hsigned := Fp.ofInt_val (getX s a).toInt
  exact ⟨spelledBy_encode (.fsetu d a), ⟨Fp.ofNat (getX s a).toNat, Fp.ofNat_val _, command_setF (.fsetu d a) s d _⟩,
    spelledBy_encode (.fsets d a), Fp.ofInt (getX s a).toInt, hsigned, hsigned.trans (toInt_emod_modulus _),
    command_setF (.fsets d a) s d _⟩

/-- Settles O28: all four commands read the buffer by the accumulation of R71, which is the weighted sum. -/
theorem constructionFromTheByteBuffer : Obligations.ConstructionFromTheByteBuffer := by
  intro s d
  rw [← intBe_eq_intBeSum]
  exact ⟨spelledBy_encode (.fbig d), spelledBy_encode (.fbign d), spelledBy_encode (.fbytes d),
    spelledBy_encode (.fsample d), Fp.ofNat (intBe s.bb), Fp.ofInt (-(intBe s.bb : Int)), Fp.ofNat_val _,
    Fp.ofInt_neg_val _, command_setF (.fbig d) s d _, command_setF (.fbign d) s d _, command_setF (.fbytes d) s d _,
    command_setF (.fsample d) s d _⟩

theorem exec_fbytes (d : FReg) (s : State) :
    exec (.fbytes d) s =
      .next { s with f := writeReg s.f d (Fp.ofNat (intBe s.bb)), cmdcnt := s.cmdcnt + 1 } :=
  command_setF (.fbytes d) s d _

/-- FBYTES reads a serialised element back (R70, R72). -/
theorem exec_fbytes_of_be8 {s : State} {a : Fp} (d : FReg) (h : s.bb = be8 a.val) :
    exec (.fbytes d) s = .next { s with f := writeReg s.f d a, cmdcnt := s.cmdcnt + 1 } := by
  rw [exec_fbytes, h, intBe_be8 (val_lt_word a), Fp.ofNat_self]

/-- Settles O29: a canonical value fits in the eight bytes FSER writes, so FBYTES reads it back unreduced. -/
theorem serialiseAndBack : Obligations.SerialiseAndBack := by
  intro s a d
  refine ⟨spelledBy_encode (.fser a), _, rfl, ?_⟩
  rw [← be8_eq_map_extract (val_lt_word (getF s a))]
  exact ⟨rfl, exec_fbytes_of_be8 d rfl⟩

/-- Settles O30: a canonical value fits in a word. -/
theorem fieldRegisterCopies : Obligations.FieldRegisterCopies := by
  intro s x d a
  exact ⟨spelledBy_encode (.ftox x a), ⟨zext (getF s a).val, toNat_zext_fp _, command_setX (.ftox x a) s x _⟩,
    spelledBy_encode (.fmov d a), command_setF (.fmov d a) s d _⟩

/-- Settles O31: canonical operands leave at most one correction by `p`. -/
theorem fieldSumDifferenceProduct : Obligations.FieldSumDifferenceProduct := by
  rintro s d ra rb _ _ rfl rfl
  exact ⟨spelledBy_encode (.fadd d ra rb), spelledBy_encode (.fsub d ra rb), spelledBy_encode (.fmul d ra rb),
    Fp.add (getF s ra) (getF s rb), Fp.sub (getF s ra) (getF s rb), Fp.mul (getF s ra) (getF s rb),
    Fp.add_val_eq_ite _ _, Fp.sub_val_eq_ite _ _, Fp.mul_val _ _, command_setF (.fadd d ra rb) s d _,
    command_setF (.fsub d ra rb) s d _, command_setF (.fmul d ra rb) s d _⟩

/-- A command whose rule is one test and then a field result completes with the result when the test does not raise. -/
theorem exec_of_raiseIf_neg {i : Instr} {s : State} {p : Prop} [Decidable p] {c : Cause} {d : FReg} {e : Fp}
    (hexec : exec i s = command i s (do raiseIf p c; pure (setF s d e))) (hp : ¬p) :
    exec i s = .next { s with f := writeReg s.f d e, cmdcnt := s.cmdcnt + 1 } := by
  rw [hexec, raiseIf_neg hp, except_ok_bind, except_pure, command_setF]

/-- A command whose rule begins with a test that raises is fatal with the test's cause. -/
theorem endsFatal_of_raiseIf_pos {i : Instr} {s : State} {p : Prop} [Decidable p] {c : Cause}
    {k : Unit → Except Cause State} (hexec : exec i s = command i s (raiseIf p c >>= k)) (hp : p) :
    endsFatal i s c :=
  endsFatal_of_error hexec (by rw [raiseIf_pos hp, except_error_bind])

/-- Settles O32: the test is on the divisor, and past it the quotient and the inverse exist and are unique. -/
theorem fieldDivisionAndInverse : Obligations.FieldDivisionAndInverse := by
  rintro s d ra rb _ _ rfl rfl
  have hdiv : exec (.fdiv d ra rb) s = command (.fdiv d ra rb) s
      (do raiseIf (getF s rb = 0) .divZero; pure (setF s d (Fp.div (getF s ra) (getF s rb)))) := rfl
  have hinv : exec (.finv d ra) s = command (.finv d ra) s
      (do raiseIf (getF s ra = 0) .divZero; pure (setF s d (Fp.inv (getF s ra)))) := rfl
  exact ⟨spelledBy_encode (.fdiv d ra rb), spelledBy_encode (.finv d ra), endsFatal_of_raiseIf_pos hdiv,
    fun hb => ⟨_, Fp.val_div_mul _ hb, fun _ => Fp.eq_div_of_val_mul hb, exec_of_raiseIf_neg hdiv hb⟩,
    endsFatal_of_raiseIf_pos hinv,
    fun ha => ⟨_, Fp.val_mul_inv ha, fun _ => Fp.eq_inv_of_val_mul ha, exec_of_raiseIf_neg hinv ha⟩⟩

/-- Settles O33: binary exponentiation is the power, with either exponent. -/
theorem exponentiation : Obligations.Exponentiation := by
  intro s d a b
  rw [← intBe_eq_intBeSum]
  exact ⟨spelledBy_encode (.fexp d a), spelledBy_encode (.fexpx d a b), Fp.pow (getF s a) (intBe s.bb),
    Fp.pow (getF s a) (getX s b).toNat, Fp.pow_val _ _, Fp.pow_val _ _, command_setF (.fexp d a) s d _,
    command_setF (.fexpx d a b) s d _⟩

/-- Settles O34: the two flags are the decided comparisons. -/
theorem fcmp_compareFlags : Obligations.CompareFlags := by
  intro s a b
  exact ⟨spelledBy_encode (.fcmp a b), getF s a == getF s b, decide ((getF s a).val < (getF s b).val), beq_iff_eq,
    decide_eq_true_iff, rfl⟩

/-! ### Roots of unity (41_field.md R84, R85) -/

/-- The generator of R2 generates the whole group. -/
theorem orderOf_generator : orderOf (Fp.toZ (Fp.ofNat generator)) = modulus - 1 := by
  refine orderOf_eq_of_pow_and_pow_div_prime (by decide) ?_ fun q hq hdvd hone => ?_
  · rw [← Fp.toZ_pow, generator_pow_order, Fp.toZ_one]
  · rw [← Fp.toZ_pow, ← Fp.toZ_one, Fp.toZ_inj] at hone
    exact generator_pow_ne_one hq hdvd hone

/-- What FROOT writes for a size that divides the group order (R85). -/
def rootOfSize (size : Nat) : Fp := Fp.pow (Fp.ofNat generator) ((modulus - 1) / size)

theorem rootOfSize_val (size : Nat) : (rootOfSize size).val = 7 ^ ((modulus - 1) / size) % modulus :=
  Fp.pow_val _ _

theorem orderOf_rootOfSize {size : Nat} (h : size ∣ modulus - 1) : orderOf (Fp.toZ (rootOfSize size)) = size := by
  have hord : orderOf (Fp.toZ (Fp.ofNat generator)) ≠ 0 := by rw [orderOf_generator]; decide
  have hdvd : (modulus - 1) / size ∣ orderOf (Fp.toZ (Fp.ofNat generator)) := by
    rw [orderOf_generator]; exact Nat.div_dvd_of_dvd h
  have hpos : (modulus - 1) / size ≠ 0 := fun h0 => hord (Nat.eq_zero_of_zero_dvd (h0 ▸ hdvd))
  rw [rootOfSize, Fp.toZ_pow, orderOf_pow_of_dvd hpos hdvd, orderOf_generator, Nat.div_div_self h (by decide)]

theorem rootOfSize_pow_size {size : Nat} (h : size ∣ modulus - 1) : (rootOfSize size).val ^ size % modulus = 1 :=
  Fp.pow_val_mod_eq_one_iff.2 (orderOf_dvd_iff_pow_eq_one.1 (orderOf_rootOfSize h).dvd)

theorem rootOfSize_pow_ne_one {size k : Nat} (h : size ∣ modulus - 1) (hk : 0 < k) (hlt : k < size) :
    (rootOfSize size).val ^ k % modulus ≠ 1 := by
  intro hone
  refine pow_ne_one_of_lt_orderOf hk.ne' ?_ (Fp.pow_val_mod_eq_one_iff.1 hone)
  rwa [orderOf_rootOfSize h]

/-- FROOT's test is divisibility: 0 does not divide the group order (R85). -/
theorem badSize_iff (size : Nat) : (size = 0 ∨ (modulus - 1) % size ≠ 0) ↔ ¬size ∣ modulus - 1 := by
  rw [Nat.dvd_iff_mod_eq_zero]
  constructor
  · rintro (rfl | h)
    · decide
    · exact h
  · exact .inr

/-- Settles O35: the order of the generator divided by a cofactor is the size. -/
theorem rootsOfUnity : Obligations.RootsOfUnity := by
  rintro s d a size rfl
  have hroot : exec (.froot d a) s = command (.froot d a) s
      (do raiseIf ((getX s a).toNat = 0 ∨ (modulus - 1) % (getX s a).toNat ≠ 0) .badSize
          pure (setF s d (rootOfSize (getX s a).toNat))) := rfl
  refine ⟨spelledBy_encode (.frord d), ⟨Fp.ofNat (modulus - 1), rfl, command_setF (.frord d) s d _⟩,
    spelledBy_encode (.froot d a), fun h => endsFatal_of_raiseIf_pos hroot ((badSize_iff _).2 h),
    fun h => endsFatal_of_raiseIf_pos hroot (.inl h), fun h => ?_⟩
  exact ⟨rootOfSize _, rootOfSize_val _, rootOfSize_pow_size h, fun k => rootOfSize_pow_ne_one h,
    exec_of_raiseIf_neg hroot (mt (badSize_iff _).1 (not_not_intro h))⟩

/-! ### Batch inversion (41_field.md R87, R88) -/

theorem command_setV (i : Instr) (s : State) (d : VReg) (p : PolyVal) :
    command i s (.ok (setV s d p)) = .next { s with v := writeReg s.v d p, cmdcnt := s.cmdcnt + 1 } := rfl

/-- The rule of VMINV once its source is fetched (R88). -/
def minvInto (s : State) (d : VReg) (sl : List Slot) : Except Cause State := do
  raiseIf (Slot.elem 0 ∈ sl) .divZero
  result s d (sl.map minvSlot)

theorem exec_vminv (s : State) (d a : VReg) :
    exec (.vminv d a) s = command (.vminv d a) s (useV s a >>= minvInto s d) := rfl

theorem minvInto_of_mem {s : State} {d : VReg} {sl : List Slot} (h : .elem 0 ∈ sl) :
    minvInto s d sl = .error .divZero := by
  rw [minvInto, raiseIf_pos h, except_error_bind]

theorem minvInto_of_not_mem {s : State} {d : VReg} {sl : List Slot} (h : .elem 0 ∉ sl) (hfit : sl.length ≤ LMAX) :
    minvInto s d sl = .ok (setV s d (.seq (sl.map minvSlot))) := by
  rw [minvInto, raiseIf_neg h, except_ok_bind, result_of_le (by rwa [List.length_map])]

theorem faultsOnNone_vminv (s : State) (d a : VReg) : faultsOnNone (.vminv d a) s := by
  rintro ⟨r, hr, hnone⟩
  obtain rfl : r = a := List.mem_singleton.1 hr
  exact endsFatal_of_error (exec_vminv s d r) (by rw [useV_of_none hnone, except_error_bind])

theorem ne_zero_of_elem_mem {sl : List Slot} {c : Fp} (h : .elem 0 ∉ sl) (hc : .elem c ∈ sl) : c ≠ 0 := by
  rintro rfl
  exact h hc

/-- Settles O36: past the two tests the result is the slots mapped by `minvSlot`, and no present one is 0. -/
theorem batchInversion : Obligations.BatchInversion := by
  refine fun s d a => ⟨spelledBy_encode (.vminv d a), faultsOnNone_vminv s d a, fun sl hsl hfit => ?_⟩
  have hexec : exec (.vminv d a) s = command (.vminv d a) s (minvInto s d sl) := by
    rw [exec_vminv, useV_of_seq hsl, except_ok_bind]
  refine ⟨fun h => endsFatal_of_error hexec (minvInto_of_mem h), fun h =>
    ⟨sl.map minvSlot, List.length_map _, fun i hi => ?_, fun i e hi => ⟨Fp.inv e, ?_, ?_⟩, ?_⟩⟩
  · rw [List.getElem?_map, hi]; rfl
  · rw [List.getElem?_map, hi]; rfl
  · exact Fp.val_mul_inv (ne_zero_of_elem_mem h (List.mem_of_getElem? hi))
  · rw [hexec, minvInto_of_not_mem h hfit, command_setV]

/-- The forward pass of R87 from the partial product `pre`. -/
def runningProduct (pre : Fp) (slots : List Slot) : Fp := slots.foldl (fun acc s => Fp.mul acc (minvFactor s)) pre

theorem batchInverse_eq (slots : List Slot) :
    batchInverse slots = (batchBackward (Fp.inv (runningProduct 1 slots)) 1 slots).1 := rfl

theorem runningProduct_cons (pre : Fp) (s : Slot) (rest : List Slot) :
    runningProduct pre (s :: rest) = runningProduct (Fp.mul pre (minvFactor s)) rest := rfl

theorem minvFactor_ne_zero {s : Slot} (h : s ≠ .elem 0) : minvFactor s ≠ 0 := by
  cases s with
  | absent => decide
  | elem c => exact fun hc => h (congrArg Slot.elem hc)

theorem runningProduct_ne_zero {slots : List Slot} (h : .elem 0 ∉ slots) :
    ∀ {pre : Fp}, pre ≠ 0 → runningProduct pre slots ≠ 0 := by
  induction slots with
  | nil => exact id
  | cons s rest ih =>
    intro pre hpre
    obtain ⟨hs, hrest⟩ := List.ne_and_not_mem_of_not_mem_cons h
    exact ih hrest (Fp.mul_ne_zero hpre (minvFactor_ne_zero (Ne.symm hs)))

theorem batchBackward_absent (inverse pre : Fp) (rest : List Slot) :
    batchBackward inverse pre (.absent :: rest) =
      (.elem 0 :: (batchBackward inverse (Fp.mul pre 1) rest).1,
        Fp.mul (batchBackward inverse (Fp.mul pre 1) rest).2 1) := rfl

theorem batchBackward_elem (inverse pre c : Fp) (rest : List Slot) :
    batchBackward inverse pre (.elem c :: rest) =
      (.elem (Fp.mul pre (batchBackward inverse (Fp.mul pre c) rest).2) ::
          (batchBackward inverse (Fp.mul pre c) rest).1,
        Fp.mul (batchBackward inverse (Fp.mul pre c) rest).2 c) := rfl

/-- The invariant of the backward pass (R87): begun with the inverse of the total product, it leaves the inverse of the
partial product before its entries, and has written every entry's inverse. -/
theorem batchBackward_of_inverse {inverse : Fp} {slots : List Slot} (h : .elem 0 ∉ slots) :
    ∀ {pre : Fp}, Fp.toZ inverse * Fp.toZ (runningProduct pre slots) = 1 →
      (batchBackward inverse pre slots).1 = slots.map minvSlot ∧
      Fp.toZ (batchBackward inverse pre slots).2 * Fp.toZ pre = 1 := by
  induction slots with
  | nil => exact fun hinv => ⟨rfl, hinv⟩
  | cons s rest ih =>
    intro pre hinv
    obtain ⟨hs, hrest⟩ := List.ne_and_not_mem_of_not_mem_cons h
    cases s with
    | absent =>
      obtain ⟨houts, hi⟩ := ih hrest (pre := Fp.mul pre 1) hinv
      rw [batchBackward_absent]
      exact ⟨congrArg (Slot.elem 0 :: ·) houts, by simpa using hi⟩
    | elem c =>
      have hc : c ≠ 0 := fun h0 => hs (congrArg Slot.elem h0.symm)
      obtain ⟨houts, hi⟩ := ih hrest (pre := Fp.mul pre c) hinv
      rw [batchBackward_elem]
      generalize batchBackward inverse (Fp.mul pre c) rest = r at houts hi ⊢
      rw [Fp.toZ_mul] at hi
      have hout : Fp.mul pre r.2 = Fp.inv c :=
        Fp.eq_inv_of_toZ_mul hc (by rw [Fp.toZ_mul, ← hi]; ring)
      exact ⟨congrArg₂ (fun c' outs => Slot.elem c' :: outs) hout houts, by rw [Fp.toZ_mul, ← hi]; ring⟩

/-- Settles O37: the total is not 0, so the backward pass begins with its inverse. -/
theorem runningProductProcedureAgrees : Obligations.RunningProductProcedureAgrees := by
  intro sl h
  have htotal : runningProduct 1 sl ≠ 0 := runningProduct_ne_zero h (by decide)
  rw [batchInverse_eq]
  exact (batchBackward_of_inverse h (Fp.toZ_inv _ htotal)).1

end Sys2Proof.Machine

namespace Sys2Proof.Machine

/-! ### A rule begun by an operation that can fail

The rules of 42_poly_struct.md are sequences of `useV`, `slotAt`, `raiseIf` and `result`. These two lemmas take such a
rule one operation further: past it with its value, or to the fatal error with its cause. -/

theorem exec_of_bind_ok {α : Type} {i : Instr} {s : State} {e : Except Cause α} {k : α → Except Cause State} {x : α}
    (hexec : exec i s = command i s (e >>= k)) (he : e = .ok x) : exec i s = command i s (k x) := by
  rw [hexec, he, except_ok_bind]

theorem endsFatal_of_bind_error {α : Type} {i : Instr} {s : State} {e : Except Cause α}
    {k : α → Except Cause State} {c : Cause} (hexec : exec i s = command i s (e >>= k)) (he : e = .error c) :
    endsFatal i s c :=
  endsFatal_of_error hexec (by rw [he, except_error_bind])

/-- A command whose rule fetches its one polynomial source first is fatal with USENONE on `NONE` (R165). -/
theorem faultsOnNone_of_useV {i : Instr} {s : State} {a : VReg} {k : List Slot → Except Cause State}
    (hexec : exec i s = command i s (useV s a >>= k)) (hsrc : polySources i = [a]) : faultsOnNone i s := by
  rintro ⟨r, hr, hnone⟩
  obtain rfl : r = a := List.mem_singleton.1 (hsrc ▸ hr)
  exact endsFatal_of_bind_error hexec (useV_of_none hnone)

/-- A command whose rule fetches its two polynomial sources first is fatal with USENONE when either holds `NONE`: the
first fetch has no other fatal cause (R165). -/
theorem faultsOnNone_of_useV_useV {i : Instr} {s : State} {a b : VReg}
    {k : List Slot → List Slot → Except Cause State}
    (hexec : exec i s = command i s (useV s a >>= fun x => useV s b >>= k x)) (hsrc : polySources i = [a, b]) :
    faultsOnNone i s := by
  rintro ⟨r, hr, hnone⟩
  cases ha : getV s a with
  | none => exact endsFatal_of_bind_error hexec (useV_of_none ha)
  | seq x =>
    have hrb : r = a ∨ r = b := by simpa [hsrc] using hr
    obtain rfl | rfl := hrb
    · rw [hnone] at ha; cases ha
    · have hnext := exec_of_bind_ok hexec (useV_of_seq ha)
      exact endsFatal_of_bind_error hnext (useV_of_none hnone)

/-! ### The rules of the polynomial structure commands (42_poly_struct.md), as `exec` runs them -/

theorem exec_vpush (s : State) (d : VReg) (a : FReg) : exec (.vpush d a) s =
    command (.vpush d a) s (useV s d >>= fun sl => result s d (sl ++ [.elem (getF s a)])) := rfl

theorem exec_vget (s : State) (d : FReg) (a : VReg) (b : XReg) : exec (.vget d a b) s =
    command (.vget d a b) s
      (useV s a >>= fun sl => slotAt sl (getX s b).toNat >>= fun c => .ok (setF s d c.val)) := rfl

theorem exec_vpres (s : State) (d : XReg) (a : VReg) (b : XReg) : exec (.vpres d a b) s =
    command (.vpres d a b) s (useV s a >>= fun sl => slotAt sl (getX s b).toNat >>= fun c =>
      .ok (setX s d (if c.present then 1 else 0))) := rfl

theorem exec_vlen (s : State) (d : XReg) (a : VReg) : exec (.vlen d a) s =
    command (.vlen d a) s (useV s a >>= fun sl => .ok (setX s d (BitVec.ofNat 64 sl.length))) := rfl

theorem exec_vset (s : State) (d : VReg) (a : FReg) (b : XReg) : exec (.vset d a b) s =
    command (.vset d a b) s (useV s d >>= fun sl => slotAt sl (getX s b).toNat >>= fun _ =>
      .ok (setV s d (.seq (sl.set (getX s b).toNat (.elem (getF s a)))))) := rfl

theorem exec_vabs (s : State) (d : VReg) (b : XReg) : exec (.vabs d b) s =
    command (.vabs d b) s (useV s d >>= fun sl => slotAt sl (getX s b).toNat >>= fun _ =>
      .ok (setV s d (.seq (sl.set (getX s b).toNat .absent)))) := rfl

theorem exec_vpad (s : State) (d a : VReg) (b : XReg) : exec (.vpad d a b) s =
    command (.vpad d a b) s (useV s a >>= fun sl => raiseIf ((getX s b).toNat < sl.length) .length >>= fun _ =>
      raiseIf ((getX s b).toNat > LMAX) .capacity >>= fun _ =>
      .ok (setV s d (.seq (sl ++ List.replicate ((getX s b).toNat - sl.length) (.elem 0))))) := rfl

theorem exec_vtrunc (s : State) (d a : VReg) (b : XReg) : exec (.vtrunc d a b) s =
    command (.vtrunc d a b) s (useV s a >>= fun sl => raiseIf ((getX s b).toNat > sl.length) .length >>= fun _ =>
      .ok (setV s d (.seq (sl.take (getX s b).toNat)))) := rfl

theorem exec_vtrim (s : State) (d a : VReg) : exec (.vtrim d a) s =
    command (.vtrim d a) s (useV s a >>= fun sl => .ok (setV s d (.seq (trimSlots sl)))) := rfl

theorem exec_vmov (s : State) (d a : VReg) : exec (.vmov d a) s =
    command (.vmov d a) s (useV s a >>= fun sl => .ok (setV s d (.seq sl))) := rfl

theorem exec_vrev (s : State) (d a : VReg) : exec (.vrev d a) s =
    command (.vrev d a) s (useV s a >>= fun sl => .ok (setV s d (.seq sl.reverse))) := rfl

theorem exec_vsubsl (s : State) (d a : VReg) (b e : XReg) : exec (.vsubsl d a b e) s =
    command (.vsubsl d a b e) s (useV s a >>= fun sl =>
      if (getX s b).toInt < 0 ∨ (sl.length : Int) ≤ (getX s b).toInt ∨ (getX s e).toInt ≤ 0 then .ok (noResult s d)
      else .ok (writeNores (setV s d (.seq (strided sl (getX s b).toInt.toNat (getX s e).toInt.toNat))) false)) := rfl

/-- The word VDEG writes: the degree, or all ones for the zero polynomial (R103). -/
def degreeWord (c : List Fp) : Word := (deg c).elim (BitVec.allOnes 64) zext

theorem exec_vdeg (s : State) (d : XReg) (a : VReg) : exec (.vdeg d a) s =
    command (.vdeg d a) s (useV s a >>= fun sl => .ok (setX s d (degreeWord (coef sl)))) := by
  have hword (c : List Fp) : degreeWord c = match deg c with
      | .some d => zext d
      | .none => BitVec.allOnes 64 := by
    unfold degreeWord
    cases deg c <;> rfl
  simp only [hword]
  rfl

theorem exec_visz (s : State) (a : VReg) : exec (.visz a) s =
    command (.visz a) s (useV s a >>= fun sl => .ok (writeEq s (isZero (coef sl)))) := rfl

theorem exec_veq (s : State) (a b : VReg) : exec (.veq a b) s =
    command (.veq a b) s (useV s a >>= fun x => useV s b >>= fun y => .ok (writeEq s (coef x == coef y))) := rfl

/-! ### Values of slots (00_scope.md R6, R8) -/

theorem coeffAt_coef_append_right {u v : List Slot} {i : Nat} (h : u.length ≤ i) :
    coeffAt (coef (u ++ v)) i = coeffAt (coef v) (i - u.length) := by
  rw [coef, List.map_append, coeffAt, List.getD_append_right _ _ _ _ (by simpa using h), List.length_map]
  rfl

theorem coeffAt_eq_zero_iff {c : List Fp} : (∀ i, coeffAt c i = 0) ↔ ∀ a ∈ c, a = 0 := by
  constructor
  · intro h a ha
    obtain ⟨i, hi, rfl⟩ := List.mem_iff_getElem.1 ha
    rw [← coeffAt_of_lt hi, h]
  · intro h i
    rcases Nat.lt_or_ge i c.length with hi | hi
    · rw [coeffAt_of_lt hi, h _ (List.getElem_mem hi)]
    · exact coeffAt_of_ge hi

theorem isZero_iff {c : List Fp} : isZero c = true ↔ ∀ i, coeffAt c i = 0 := by
  rw [isZero, Option.isNone_iff_eq_none, deg_eq_none, coeffAt_eq_zero_iff]

theorem coef_eq_iff {u v : List Slot} :
    coef u = coef v ↔ u.length = v.length ∧ ∀ i, coeffAt (coef u) i = coeffAt (coef v) i := by
  constructor
  · intro h
    exact ⟨by simpa using congrArg List.length h, fun i => by rw [h]⟩
  · rintro ⟨hlen, hval⟩
    exact list_ext_coeffAt (by simpa using hlen) fun i _ => hval i

theorem degreeWord_of_zero {c : List Fp} (h : ∀ i, coeffAt c i = 0) : degreeWord c = 0xFFFFFFFFFFFFFFFF := by
  rw [degreeWord, deg_eq_none.2 (coeffAt_eq_zero_iff.1 h), Option.elim_none]
  rfl

theorem degreeWord_of_greatest {c : List Fp} {n : Nat} (hn : coeffAt c n ≠ 0) (habove : ∀ i, n < i → coeffAt c i = 0) :
    degreeWord c = BitVec.ofNat 64 n := by
  rw [degreeWord, deg_eq_some.2 ⟨hn, habove⟩, Option.elim_some, zext]

/-! ### Trimming (42_poly_struct.md R99) -/

theorem trimSlots_prefix (sl : List Slot) : trimSlots sl <+: sl := List.rdropWhile_prefix _ _

theorem trimSlots_eq_take (sl : List Slot) : trimSlots sl = sl.take (trimSlots sl).length :=
  List.prefix_iff_eq_take.1 (trimSlots_prefix sl)

/-- What trimming removes are the trailing slots, all of value 0. -/
theorem coeffAt_of_length_trimSlots_le {sl : List Slot} {i : Nat} (h : (trimSlots sl).length ≤ i) :
    coeffAt (coef sl) i = 0 := by
  have hsplit : trimSlots sl ++ sl.rtakeWhile (fun c => c.val == 0) = sl := List.rdropWhile_append_rtakeWhile
  have hzero : ∀ a ∈ coef (sl.rtakeWhile fun c => c.val == 0), a = 0 := by
    intro a ha
    obtain ⟨c, hc, rfl⟩ := List.mem_map.1 ha
    have hval := List.mem_rtakeWhile_imp hc
    exact beq_iff_eq.1 hval
  rw [← hsplit, coeffAt_coef_append_right h]
  exact coeffAt_eq_zero_iff.2 hzero _

/-- The last slot that stays has a value other than 0. -/
theorem coeffAt_last_trimSlots {sl : List Slot} (h : 0 < (trimSlots sl).length) :
    coeffAt (coef sl) ((trimSlots sl).length - 1) ≠ 0 := by
  have hlt : (trimSlots sl).length - 1 < sl.length := by
    have := (trimSlots_prefix sl).length_le
    omega
  have hlast : ¬(((trimSlots sl).getLast (List.ne_nil_of_length_pos h)).val == 0) = true :=
    List.rdropWhile_last_not (fun c : Slot => c.val == 0) sl _
  rw [List.getLast_eq_getElem, (trimSlots_prefix sl).getElem] at hlast
  rw [coeffAt_of_lt (by simpa using hlt)]
  simpa [coef] using hlast

/-- Settles O42: `n` is the length `trimSlots` leaves; the slot just below it witnesses that no smaller one will do. -/
theorem trimmingIsLeast : Obligations.TrimmingIsLeast := by
  refine fun s d a => ⟨spelledBy_encode (.vtrim d a), faultsOnNone_of_useV (exec_vtrim s d a) rfl, fun sl hsl =>
    ⟨(trimSlots sl).length, (trimSlots_prefix sl).length_le, fun i => coeffAt_of_length_trimSlots_le,
      fun m hm => ⟨(trimSlots sl).length - 1, by omega, ?_, coeffAt_last_trimSlots (by omega)⟩, ?_⟩⟩
  · have := (trimSlots_prefix sl).length_le
    omega
  · rw [← trimSlots_eq_take, exec_of_bind_ok (exec_vtrim s d a) (useV_of_seq hsl), command_setV]

/-! ### Strided extraction (42_poly_struct.md R100) -/

theorem lt_length_strided_iff {α : Type} {l : List α} {start step : Nat} (hs : start < l.length) (hp : 0 < step)
    (k : Nat) : k < (strided l start step).length ↔ start + k * step < l.length := by
  rw [length_strided l hs hp, stride_count_iff hs hp]

theorem command_noResult (i : Instr) (s : State) (d : VReg) : command i s (.ok (noResult s d)) =
    .next { s with v := writeReg s.v d .none, nores := true, cmdcnt := s.cmdcnt + 1 } := rfl

theorem command_writeNores_setV (i : Instr) (s : State) (d : VReg) (p : PolyVal) (b : Bool) :
    command i s (.ok (writeNores (setV s d p) b)) =
      .next { s with v := writeReg s.v d p, nores := b, cmdcnt := s.cmdcnt + 1 } := rfl

/-- Settles O44: in range, both integers are their own natural numbers, and `strided` is read at those. -/
theorem stridedSubslice : Obligations.StridedSubslice := by
  rintro s d a b e _ _ rfl rfl
  refine ⟨spelledBy_encode (.vsubsl d a b e), faultsOnNone_of_useV (exec_vsubsl s d a b e) rfl, fun sl hsl => ?_⟩
  have hexec := exec_of_bind_ok (exec_vsubsl s d a b e) (useV_of_seq hsl)
  refine ⟨fun hout => ?_, fun hstart hlt hstep => ?_⟩
  · rw [hexec, if_pos hout, command_noResult]
  · have hs : (getX s b).toInt.toNat < sl.length := by omega
    have hp : 0 < (getX s e).toInt.toNat := by omega
    refine ⟨strided sl (getX s b).toInt.toNat (getX s e).toInt.toNat, getElem?_strided sl hs hp,
      lt_length_strided_iff hs hp, ?_⟩
    rw [hexec, if_neg (by omega), command_writeNores_setV]

/-! ### Degree, zero test, equality (42_poly_struct.md R103 to R105) -/

theorem command_writeEq (i : Instr) (s : State) (b : Bool) :
    command i s (.ok (writeEq s b)) = .next { s with eq := b, cmdcnt := s.cmdcnt + 1 } := rfl

/-- Settles O45: the three tests read only lengths and values, so an absent slot is a 0 in each. -/
theorem degreeZeroTestEquality : Obligations.DegreeZeroTestEquality := by
  refine fun s d ra rb => ⟨spelledBy_encode (.vdeg d ra), faultsOnNone_of_useV (exec_vdeg s d ra) rfl,
    spelledBy_encode (.visz ra), faultsOnNone_of_useV (exec_visz s ra) rfl,
    spelledBy_encode (.veq ra rb), faultsOnNone_of_useV_useV (exec_veq s ra rb) rfl, fun a b ha hb => ?_⟩
  have hdeg : exec (.vdeg d ra) s =
      .next { s with x := writeReg s.x d (degreeWord (coef a)), cmdcnt := s.cmdcnt + 1 } := by
    rw [exec_of_bind_ok (exec_vdeg s d ra) (useV_of_seq ha), command_setX]
  refine ⟨fun h => ?_, fun n hn habove => ?_,
    isZero (coef a), coef a == coef b, isZero_iff, beq_iff_eq.trans coef_eq_iff, ?_, ?_⟩
  · rw [hdeg, degreeWord_of_zero h]
  · rw [hdeg, degreeWord_of_greatest hn habove]
  · rw [exec_of_bind_ok (exec_visz s ra) (useV_of_seq ha), command_writeEq]
  · have hfetch := exec_of_bind_ok (exec_veq s ra rb) (useV_of_seq ha)
    rw [exec_of_bind_ok hfetch (useV_of_seq hb), command_writeEq]

/-! ### Single slots, lengths and copies (42_poly_struct.md R90 to R98, R101, R102) -/

/-- Settles O38: `result` tells the full register from one with room, where the sequence is one slot longer. -/
theorem clearAndPush : Obligations.ClearAndPush := by
  refine fun s d a => ⟨spelledBy_encode (.vclr d), command_setV (.vclr d) s d (.seq []), spelledBy_encode (.vpush d a),
    faultsOnNone_of_useV (exec_vpush s d a) rfl, fun sl hsl => ?_⟩
  have hexec := exec_of_bind_ok (exec_vpush s d a) (useV_of_seq hsl)
  have hlen : (sl ++ [Slot.elem (getF s a)]).length = sl.length + 1 := List.length_append
  refine ⟨fun hfull => endsFatal_of_error hexec (result_of_gt (by omega)), fun hroom => ?_⟩
  rw [hexec, result_of_le (by omega), command_setV]

/-- Settles O39: past the fetch and the index test, the slot found decides the value and the presence. -/
theorem slotAndLengthReads : Obligations.SlotAndLengthReads := by
  refine fun s fd xd a b => ⟨spelledBy_encode (.vget fd a b), faultsOnNone_of_useV (exec_vget s fd a b) rfl,
    spelledBy_encode (.vpres xd a b), faultsOnNone_of_useV (exec_vpres s xd a b) rfl,
    spelledBy_encode (.vlen xd a), faultsOnNone_of_useV (exec_vlen s xd a) rfl, fun sl hsl => ?_⟩
  have hget := exec_of_bind_ok (exec_vget s fd a b) (useV_of_seq hsl)
  have hpres := exec_of_bind_ok (exec_vpres s xd a b) (useV_of_seq hsl)
  have hlen := exec_of_bind_ok (exec_vlen s xd a) (useV_of_seq hsl)
  have hslot {c : Slot} (hc : sl[(getX s b).toNat]? = some c) :
      exec (.vget fd a b) s = .next { s with f := writeReg s.f fd c.val, cmdcnt := s.cmdcnt + 1 } ∧
      exec (.vpres xd a b) s =
        .next { s with x := writeReg s.x xd (if c.present then 1 else 0), cmdcnt := s.cmdcnt + 1 } :=
    ⟨(exec_of_bind_ok hget (slotAt_eq_ok.2 hc)).trans (command_setF _ _ _ _),
      (exec_of_bind_ok hpres (slotAt_eq_ok.2 hc)).trans (command_setX _ _ _ _)⟩
  exact ⟨fun hge => ⟨endsFatal_of_bind_error hget (slotAt_of_ge hge), endsFatal_of_bind_error hpres (slotAt_of_ge hge)⟩,
    hslot, fun _ => hslot, hlen.trans (command_setX _ _ _ _)⟩

/-- Settles O40: past the fetch and the index test, the sequence is written back with the one slot set. -/
theorem slotWrites : Obligations.SlotWrites := by
  refine fun s d a b => ⟨spelledBy_encode (.vset d a b), faultsOnNone_of_useV (exec_vset s d a b) rfl,
    spelledBy_encode (.vabs d b), faultsOnNone_of_useV (exec_vabs s d b) rfl, fun sl hsl => ?_⟩
  have hset := exec_of_bind_ok (exec_vset s d a b) (useV_of_seq hsl)
  have habs := exec_of_bind_ok (exec_vabs s d b) (useV_of_seq hsl)
  exact ⟨fun hge => ⟨endsFatal_of_bind_error hset (slotAt_of_ge hge), endsFatal_of_bind_error habs (slotAt_of_ge hge)⟩,
    fun hlt => ⟨(exec_of_bind_ok hset (slotAt_of_lt hlt)).trans (command_setV _ _ _ _),
      (exec_of_bind_ok habs (slotAt_of_lt hlt)).trans (command_setV _ _ _ _)⟩⟩

theorem getElem?_append_replicate_of_ge {α : Type} {l : List α} {c : α} {n i : Nat} (hge : l.length ≤ i) (hlt : i < n) :
    (l ++ List.replicate (n - l.length) c)[i]? = some c := by
  rw [List.getElem?_append_right hge, List.getElem?_replicate_of_lt (by omega)]

/-- Settles O41: the tests in the order of the rules; the padding begins where the source's slots end. -/
theorem paddingAndTruncation : Obligations.PaddingAndTruncation := by
  rintro s d a b _ rfl
  refine ⟨spelledBy_encode (.vpad d a b), faultsOnNone_of_useV (exec_vpad s d a b) rfl,
    spelledBy_encode (.vtrunc d a b), faultsOnNone_of_useV (exec_vtrunc s d a b) rfl, fun sl hsl => ?_⟩
  have hpad := exec_of_bind_ok (exec_vpad s d a b) (useV_of_seq hsl)
  have hlong (hge : sl.length ≤ (getX s b).toNat) := exec_of_bind_ok hpad (raiseIf_neg (Nat.not_lt.2 hge))
  have htrunc := exec_of_bind_ok (exec_vtrunc s d a b) (useV_of_seq hsl)
  refine ⟨fun hshort => endsFatal_of_bind_error hpad (raiseIf_pos hshort),
    fun hge hover => endsFatal_of_bind_error (hlong hge) (raiseIf_pos hover), fun hge hfit =>
      ⟨sl ++ List.replicate ((getX s b).toNat - sl.length) (.elem 0), ?_, fun i => List.getElem?_append_left,
        fun i => getElem?_append_replicate_of_ge, ?_⟩,
    fun hover => endsFatal_of_bind_error htrunc (raiseIf_pos hover), fun hle => ?_⟩
  · rw [List.length_append, List.length_replicate, Nat.add_sub_cancel' hge]
  · exact (exec_of_bind_ok (hlong hge) (raiseIf_neg (Nat.not_lt.2 hfit))).trans (command_setV _ _ _ _)
  · exact (exec_of_bind_ok htrunc (raiseIf_neg (Nat.not_lt.2 hle))).trans (command_setV _ _ _ _)

/-- Settles O43: both write the fetched slots themselves, VREV reversed. -/
theorem copyAndReverse : Obligations.CopyAndReverse := by
  refine fun s d a => ⟨spelledBy_encode (.vmov d a), faultsOnNone_of_useV (exec_vmov s d a) rfl,
    spelledBy_encode (.vrev d a), faultsOnNone_of_useV (exec_vrev s d a) rfl, fun sl hsl =>
      ⟨(exec_of_bind_ok (exec_vmov s d a) (useV_of_seq hsl)).trans (command_setV _ _ _ _),
        sl.reverse, List.length_reverse, fun i => List.getElem?_reverse,
        (exec_of_bind_ok (exec_vrev s d a) (useV_of_seq hsl)).trans (command_setV _ _ _ _)⟩⟩

end Sys2Proof.Machine

namespace Sys2Proof.Machine

open Polynomial

/-! ### The rules of the polynomial arithmetic commands (43_poly_arith.md), as `exec` runs them -/

/-- The rule VADD, VSUB, VMUL and VEVALD share: fetch both sources, then `result` of a function of their values. -/
def binaryRule (s : State) (d a b : VReg) (op : List Fp → List Fp → List Fp) : Except Cause State := do
  let x ← useV s a
  let y ← useV s b
  result s d (elems (op (coef x) (coef y)))

/-- The rule VDIV and VMOD share: fetch both sources, then the tests and the ending of `divideInto`. -/
def divideRule (s : State) (d a b : VReg) (value : List Fp → List Fp → List Fp) : Except Cause State := do
  let x ← useV s a
  let y ← useV s b
  divideInto s d (coef x) (coef y) value

/-- What VINTERP does once its sources are fetched (R125). -/
def interpolateInto (s : State) (d : VReg) (x y : List Slot) : Except Cause State :=
  if x.length ≠ y.length then .ok (noResult s d)
  else if hasDuplicate (coef x) then .ok (noResult s d)
  else result s d (elems (interpolate (coef x) (coef y))) >>= fun s' => .ok (writeNores s' false)

theorem exec_vadd (s : State) (d a b : VReg) : exec (.vadd d a b) s =
    command (.vadd d a b) s (binaryRule s d a b polyAdd) := rfl

theorem exec_vsub (s : State) (d a b : VReg) : exec (.vsub d a b) s =
    command (.vsub d a b) s (binaryRule s d a b polySub) := rfl

theorem exec_vmul (s : State) (d a b : VReg) : exec (.vmul d a b) s =
    command (.vmul d a b) s (binaryRule s d a b polyMul) := rfl

theorem exec_vevald (s : State) (d a b : VReg) : exec (.vevald d a b) s =
    command (.vevald d a b) s (binaryRule s d a b fun x y => y.map (ev x)) := rfl

theorem exec_vdiv (s : State) (d a b : VReg) : exec (.vdiv d a b) s =
    command (.vdiv d a b) s (divideRule s d a b polyQuot) := rfl

theorem exec_vmod (s : State) (d a b : VReg) : exec (.vmod d a b) s =
    command (.vmod d a b) s (divideRule s d a b polyRem) := rfl

theorem exec_vscale (s : State) (d a : VReg) (b : FReg) : exec (.vscale d a b) s =
    command (.vscale d a b) s (useV s a >>= fun x => result s d (elems (polyScale (coef x) (getF s b)))) := rfl

theorem exec_veval (s : State) (d : FReg) (a : VReg) (b : FReg) : exec (.veval d a b) s =
    command (.veval d a b) s (useV s a >>= fun x => .ok (setF s d (horner (coef x) (getF s b)))) := rfl

theorem exec_vevalq (s : State) (d : FReg) (a : VReg) (b : FReg) : exec (.vevalq d a b) s =
    command (.vevalq d a b) s (useV s a >>= fun x => raiseIf (x.length ≠ 4) .length >>= fun _ =>
      .ok (setF s d (evalQuartic (coef x) (getF s b)))) := rfl

theorem exec_vzero (s : State) (d a : VReg) : exec (.vzero d a) s =
    command (.vzero d a) s (useV s a >>= fun x => raiseIf (x.length + 1 > LMAX) .capacity >>= fun _ =>
      result s d (elems (vanishing (coef x)))) := rfl

theorem exec_vinterp (s : State) (d a b : VReg) : exec (.vinterp d a b) s =
    command (.vinterp d a b) s (useV s a >>= fun x => useV s b >>= fun y => interpolateInto s d x y) := rfl

theorem exec_vpow (s : State) (d : VReg) (a : FReg) (b : XReg) : exec (.vpow d a b) s =
    command (.vpow d a b) s (raiseIf ((getX s b).toNat > LMAX) .capacity >>= fun _ =>
      result s d (elems (powers (getF s a) (getX s b).toNat))) := rfl

/-! ### Rules that end in a result of some length -/

/-- A rule that ends in `result` completes when the values fit, and changes nothing but the destination. -/
theorem exec_of_result_le {i : Instr} {s : State} {d : VReg} {c : List Fp}
    (hexec : exec i s = command i s (result s d (elems c))) (hfit : c.length ≤ LMAX) :
    exec i s = .next { s with v := writeReg s.v d (.seq (elems c)), cmdcnt := s.cmdcnt + 1 } := by
  rw [hexec, result_of_le (by rwa [length_elems]), command_setV]

theorem endsFatal_of_result_gt {i : Instr} {s : State} {d : VReg} {c : List Fp}
    (hexec : exec i s = command i s (result s d (elems c))) (hover : LMAX < c.length) :
    endsFatal i s .capacity :=
  endsFatal_of_error hexec (result_of_gt (by rwa [length_elems]))

section binary

variable {i : Instr} {s : State} {d a b : VReg} {op : List Fp → List Fp → List Fp} {x y : List Slot}

theorem faultsOnNone_of_binaryRule (hexec : exec i s = command i s (binaryRule s d a b op))
    (hsrc : polySources i = [a, b]) : faultsOnNone i s :=
  faultsOnNone_of_useV_useV (k := fun x y => result s d (elems (op (coef x) (coef y)))) hexec hsrc

theorem binaryRule_of_seq (ha : getV s a = .seq x) (hb : getV s b = .seq y) :
    binaryRule s d a b op = result s d (elems (op (coef x) (coef y))) := by
  rw [binaryRule, useV_of_seq ha, except_ok_bind, useV_of_seq hb, except_ok_bind]

theorem exec_of_binaryRule (hexec : exec i s = command i s (binaryRule s d a b op)) (ha : getV s a = .seq x)
    (hb : getV s b = .seq y) : exec i s = command i s (result s d (elems (op (coef x) (coef y)))) := by
  rw [hexec, binaryRule_of_seq ha hb]

/-- The one fatal cause of a fetch is USENONE, so two fetches may be exchanged. -/
theorem useV_useV_comm (s : State) (a b : VReg) (k : List Slot → List Slot → Except Cause State) :
    (useV s a >>= fun x => useV s b >>= fun y => k x y) = (useV s b >>= fun y => useV s a >>= fun x => k x y) := by
  cases ha : getV s a with
  | none =>
    rw [useV_of_none ha]
    cases hb : getV s b with
    | none => rw [useV_of_none hb]; rfl
    | seq y => rw [useV_of_seq hb]; rfl
  | seq x =>
    rw [useV_of_seq ha]
    rfl

theorem binaryRule_comm (hop : ∀ u v, op u v = op v u) : binaryRule s d a b op = binaryRule s d b a op := by
  rw [binaryRule, useV_useV_comm]
  simp only [binaryRule, hop]

theorem keepsControl_binaryRule : KeepsControl s (binaryRule s d a b op) :=
  keepsControl_bind fun _ => keepsControl_bind fun _ => keepsControl_result s d _

end binary

/-! ### Values of sums, differences and scaled sequences (R110, R111, R115) -/

theorem coeffAt_polyAdd {a b : List Fp} {i : Nat} (h : i < max a.length b.length) :
    coeffAt (polyAdd a b) i = Fp.add (coeffAt a i) (coeffAt b i) := by
  rw [polyAdd, coeffAt_map_range, if_pos h]

theorem coeffAt_polySub {a b : List Fp} {i : Nat} (h : i < max a.length b.length) :
    coeffAt (polySub a b) i = Fp.sub (coeffAt a i) (coeffAt b i) := by
  rw [polySub, coeffAt_map_range, if_pos h]

theorem coeffAt_map {f : Fp → Fp} {c : List Fp} {i : Nat} (h : i < c.length) :
    coeffAt (c.map f) i = f (coeffAt c i) := by
  rw [coeffAt_of_lt (by rwa [List.length_map]), coeffAt_of_lt h, List.getElem_map]

/-- A natural number has the residue `c` when it is `c` in the field of integers modulo `p`. -/
theorem Fp.mod_eq_val_iff {n : Nat} {c : Fp} : n % modulus = c.val ↔ (n : ZMod modulus) = Fp.toZ c := by
  rw [← Fp.ofNat_val, ← Fin.ext_iff, ← Fp.toZ_inj, Fp.toZ_ofNat]

/-- The difference is the value that added to the second operand gives the first (R65, R111). -/
theorem Fp.sub_val_add_mod (a b : Fp) : ((Fp.sub a b).val + b.val) % modulus = a.val := by
  rw [Fp.mod_eq_val_iff, Nat.cast_add]
  exact (congrArg (· + Fp.toZ b) (Fp.toZ_sub a b)).trans (sub_add_cancel _ _)

/-- Settles O46: both commands end in `result` of a sequence whose length is the greater of two that fit. -/
theorem polynomialSumAndDifference : Obligations.PolynomialSumAndDifference := by
  refine fun s d ra rb => ⟨spelledBy_encode (.vadd d ra rb), faultsOnNone_of_binaryRule (exec_vadd s d ra rb) rfl,
    spelledBy_encode (.vsub d ra rb), faultsOnNone_of_binaryRule (exec_vsub s d ra rb) rfl,
    fun a b ha hb hfita hfitb => ?_⟩
  have hlen : max (coef a).length (coef b).length = max a.length b.length := by simp only [length_coef]
  have hfit : max (coef a).length (coef b).length ≤ LMAX := hlen ▸ max_le hfita hfitb
  refine ⟨polyAdd (coef a) (coef b), polySub (coef a) (coef b), by rw [length_polyAdd, hlen],
    by rw [length_polySub, hlen], fun i hi => ?_, fun i hi => ?_,
    exec_of_result_le (exec_of_binaryRule (exec_vadd s d ra rb) ha hb) (by rwa [length_polyAdd]),
    exec_of_result_le (exec_of_binaryRule (exec_vsub s d ra rb) ha hb) (by rwa [length_polySub])⟩
  · rw [coeffAt_polyAdd (hlen ▸ hi), Fp.add_val]
  · rw [coeffAt_polySub (hlen ▸ hi), Fp.sub_val_add_mod]

/-! ### The integer sums of the rules as residues (R8, R112)

`convSum` and `evalSum` are sums of integers; in the field of integers modulo `p` they are a coefficient of the product
polynomial and a value of the polynomial. -/

theorem natCast_convSum (a b : List Fp) (k : Nat) :
    (convSum a b k : ZMod modulus) = (toPoly a * toPoly b).coeff k := by
  rw [coeff_mul, Finset.Nat.sum_antidiagonal_eq_sum_range_succ
    (fun i j => (toPoly a).coeff i * (toPoly b).coeff j), convSum, Nat.cast_sum]
  refine Finset.sum_congr rfl fun i _ => ?_
  rw [Nat.cast_mul, coeff_toPoly, coeff_toPoly, Fp.toZ, Fp.toZ]

theorem convSum_mod_eq_iff {a b c : List Fp} {k : Nat} : convSum a b k % modulus = (coeffAt c k).val ↔
    (toPoly a * toPoly b).coeff k = (toPoly c).coeff k := by
  rw [Fp.mod_eq_val_iff, natCast_convSum, coeff_toPoly]

theorem toZ_ev (c : List Fp) (t : Fp) :
    Fp.toZ (ev c t) = ∑ i ∈ Finset.range c.length, Fp.toZ (coeffAt c i) * Fp.toZ t ^ i := by
  rw [← eval_toPoly, toPoly, eval_finsetSum]
  simp

theorem evalSum_mod (c : List Fp) (t : Fp) : evalSum c t.val % modulus = (ev c t).val := by
  rw [Fp.mod_eq_val_iff, toZ_ev, evalSum, Nat.cast_sum]
  refine Finset.sum_congr rfl fun i _ => ?_
  rw [Nat.cast_mul, Nat.cast_pow, Fp.toZ, Fp.toZ]

/-- Settles O47: the product's length decides between the result and CAPACITY, and an empty operand makes it 0. -/
theorem polynomialProduct : Obligations.PolynomialProduct := by
  refine fun s d ra rb => ⟨spelledBy_encode (.vmul d ra rb), faultsOnNone_of_binaryRule (exec_vmul s d ra rb) rfl,
    fun a b ha hb => ?_⟩
  have hexec := exec_of_binaryRule (exec_vmul s d ra rb) ha hb
  refine ⟨fun hempty => ?_, fun hpa hpb hover => endsFatal_of_result_gt hexec ?_, fun hpa hpb hfit => ?_⟩
  · rw [polyMul_of_empty (by simpa only [length_coef] using hempty)] at hexec
    exact exec_of_result_le hexec (Nat.zero_le _)
  · rwa [length_polyMul, length_coef, length_coef, if_neg (by omega)]
  · have hlen : (polyMul (coef a) (coef b)).length = a.length + b.length - 1 := by
      rw [length_polyMul, length_coef, length_coef, if_neg (by omega)]
    refine ⟨polyMul (coef a) (coef b), hlen, fun k hk => ?_, exec_of_result_le hexec (by rwa [hlen])⟩
    rw [eq_comm, convSum_mod_eq_iff, toPoly_polyMul]

/-! ### Long division: uniqueness of the quotient (R113) -/

theorem degree_toPoly_lt (c : List Fp) : (toPoly c).degree < c.length :=
  (degree_lt_iff_coeff_zero _ _).2 fun _ h => coeff_toPoly_of_ge h

theorem degree_toPoly_sub_lt {u v : List Fp} {n : Nat} (hu : u.length = n) (hv : v.length = n) :
    (toPoly u - toPoly v).degree < n :=
  (degree_sub_le _ _).trans_lt (max_lt (hu ▸ degree_toPoly_lt u) (hv ▸ degree_toPoly_lt v))

/-- The last value of a sequence, when it is not 0, is at the degree of its polynomial. -/
theorem natDegree_toPoly_of_last {b : List Fp} (hl : coeffAt b (b.length - 1) ≠ 0) :
    (toPoly b).natDegree = b.length - 1 := by
  refine natDegree_eq_of_le_of_coeff_ne_zero (natDegree_le_iff_coeff_eq_zero.2 fun i hi => ?_) ?_
  · exact coeff_toPoly_of_ge (by omega)
  · rw [coeff_toPoly]
    exact Fp.toZ_ne_zero hl

/-- A polynomial of degree below `n` is 0 when its product with the divisor vanishes at the `n` indices from the
divisor's top up: the product of the leading coefficients stands at one of them. -/
theorem eq_zero_of_coeff_mul_toPoly {D : (ZMod modulus)[X]} {b : List Fp} {n : Nat}
    (hl : coeffAt b (b.length - 1) ≠ 0) (hD : D.degree < n)
    (h : ∀ k < n, (D * toPoly b).coeff (k + (b.length - 1)) = 0) : D = 0 := by
  have : Fact modulus.Prime := ⟨modulus_prime⟩
  by_contra hne
  have htop := h D.natDegree ((natDegree_lt_iff_degree_lt hne).2 hD)
  have hb : toPoly b ≠ 0 := fun h0 => Fp.toZ_ne_zero hl (by rw [← coeff_toPoly, h0, coeff_zero])
  rw [← natDegree_toPoly_of_last hl, coeff_mul_degree_add_degree] at htop
  exact mul_ne_zero (leadingCoeff_ne_zero.2 hne) (leadingCoeff_ne_zero.2 hb) htop

/-- R113: the product of the quotient with the divisor agrees with the dividend from index `lb - 1` up. -/
theorem convSum_polyQuot {a b : List Fp} (hb : 0 < b.length) (hab : b.length ≤ a.length)
    (hl : coeffAt b (b.length - 1) ≠ 0) {i : Nat} (h : b.length - 1 ≤ i) :
    convSum (polyQuot a b) b i % modulus = (coeffAt a i).val := by
  have hzero := coeff_sub_polyQuot_mul hb hab hl (i := i) (by omega)
  rw [coeff_sub] at hzero
  exact convSum_mod_eq_iff.2 (sub_eq_zero.1 hzero).symm

/-- R113: the quotient is unique. -/
theorem eq_polyQuot_of_convSum {a b q : List Fp} (hb : 0 < b.length) (hab : b.length ≤ a.length)
    (hl : coeffAt b (b.length - 1) ≠ 0) (hlen : q.length = a.length - b.length + 1)
    (hq : ∀ i, b.length - 1 ≤ i → i < a.length → convSum q b i % modulus = (coeffAt a i).val) :
    q = polyQuot a b := by
  refine toPoly_inj (hlen.trans (length_polyQuot a b).symm) (sub_eq_zero.1 ?_)
  refine eq_zero_of_coeff_mul_toPoly hl (degree_toPoly_sub_lt hlen (length_polyQuot a b)) fun k hk => ?_
  have hagree := convSum_mod_eq_iff.1 (hq (k + (b.length - 1)) (by omega) (by omega))
  have hquot := convSum_mod_eq_iff.1 (convSum_polyQuot hb hab hl (i := k + (b.length - 1)) (by omega))
  rw [sub_mul, coeff_sub, hagree, hquot, sub_self]

/-- R114: the dividend is the product of quotient and divisor plus the remainder, value by value. -/
theorem convSum_polyQuot_add_polyRem {a b : List Fp} (hb : 0 < b.length) (hab : b.length ≤ a.length)
    (hl : coeffAt b (b.length - 1) ≠ 0) (i : Nat) :
    (convSum (polyQuot a b) b i + (coeffAt (polyRem a b) i).val) % modulus = (coeffAt a i).val := by
  have hrem : ((coeffAt (polyRem a b) i).val : ZMod modulus) = (toPoly (polyRem a b)).coeff i :=
    (coeff_toPoly _ i).symm
  rw [Fp.mod_eq_val_iff, Nat.cast_add, natCast_convSum, hrem, toPoly_polyRem hb hab hl, coeff_sub, coeff_toPoly,
    add_sub_cancel]

/-! ### The tests of VDIV and VMOD in their order (R113, R114) -/

section divide

variable {i : Instr} {s : State} {d ra rb : VReg} {value : List Fp → List Fp → List Fp} {a b : List Slot}

theorem faultsOnNone_of_divideRule (hexec : exec i s = command i s (divideRule s d ra rb value))
    (hsrc : polySources i = [ra, rb]) : faultsOnNone i s :=
  faultsOnNone_of_useV_useV (k := fun x y => divideInto s d (coef x) (coef y) value) hexec hsrc

theorem exec_of_divideRule (hexec : exec i s = command i s (divideRule s d ra rb value)) (ha : getV s ra = .seq a)
    (hb : getV s rb = .seq b) : exec i s = command i s (divideInto s d (coef a) (coef b) value) := by
  rw [hexec, divideRule, useV_of_seq ha, except_ok_bind, useV_of_seq hb, except_ok_bind]

theorem endsFatal_of_empty_divisor (hexec : exec i s = command i s (divideInto s d (coef a) (coef b) value))
    (hempty : b.length = 0) : endsFatal i s .divZero :=
  endsFatal_of_error hexec (divideInto_eq_error.2 (.inl ⟨by rwa [length_coef], rfl⟩))

theorem exec_of_short_dividend (hexec : exec i s = command i s (divideInto s d (coef a) (coef b) value))
    (hshort : a.length < b.length) : exec i s =
      .next { s with v := writeReg s.v d .none, nores := true, cmdcnt := s.cmdcnt + 1 } := by
  have hok : divideInto s d (coef a) (coef b) value = .ok (noResult s d) := by
    refine divideInto_eq_ok.2 ?_
    simp only [length_coef]
    exact ⟨by omega, .inl ⟨hshort, trivial⟩⟩
  rw [hexec, hok, command_noResult]

theorem endsFatal_of_last_zero (hexec : exec i s = command i s (divideInto s d (coef a) (coef b) value))
    (hpos : 0 < b.length) (hle : b.length ≤ a.length) (hlast : coeffAt (coef b) (b.length - 1) = 0) :
    endsFatal i s .divZero := by
  refine endsFatal_of_error hexec (divideInto_eq_error.2 (.inr ?_))
  simp only [length_coef]
  exact ⟨hpos.ne', hle, .inl ⟨hlast, trivial⟩⟩

theorem divideInto_of_divisible (hpos : 0 < b.length) (hle : b.length ≤ a.length)
    (hlast : coeffAt (coef b) (b.length - 1) ≠ 0) (hfit : (value (coef a) (coef b)).length ≤ LMAX) :
    divideInto s d (coef a) (coef b) value =
      .ok (writeNores (setV s d (.seq (elems (value (coef a) (coef b))))) false) := by
  refine divideInto_eq_ok.2 ?_
  simp only [length_coef]
  exact ⟨hpos.ne', .inr ⟨hle, hlast, hfit, trivial⟩⟩

theorem exec_of_divisible (hexec : exec i s = command i s (divideInto s d (coef a) (coef b) value))
    (hpos : 0 < b.length) (hle : b.length ≤ a.length) (hlast : coeffAt (coef b) (b.length - 1) ≠ 0)
    (hfit : (value (coef a) (coef b)).length ≤ LMAX) : exec i s = .next { s with
      v := writeReg s.v d (.seq (elems (value (coef a) (coef b)))), nores := false, cmdcnt := s.cmdcnt + 1 } := by
  rw [hexec, divideInto_of_divisible hpos hle hlast hfit, command_writeNores_setV]

theorem length_polyQuot_coef_le (hpos : 0 < b.length) (hle : b.length ≤ a.length) (hfit : a.length ≤ LMAX) :
    (polyQuot (coef a) (coef b)).length ≤ LMAX := by
  rw [length_polyQuot, length_coef, length_coef]
  omega

theorem length_polyRem_coef (hle : b.length ≤ a.length) : (polyRem (coef a) (coef b)).length = b.length - 1 := by
  rw [length_polyRem, length_coef, length_coef]
  omega

end divide

/-- Settles O48: two quotients differ by a polynomial whose product with the divisor vanishes where it would lead. -/
theorem polynomialQuotient : Obligations.PolynomialQuotient := by
  refine fun s d ra rb => ⟨spelledBy_encode (.vdiv d ra rb), faultsOnNone_of_divideRule (exec_vdiv s d ra rb) rfl,
    fun a b ha hb hfit => ?_⟩
  have hexec := exec_of_divideRule (exec_vdiv s d ra rb) ha hb
  refine ⟨endsFatal_of_empty_divisor hexec, exec_of_short_dividend hexec, endsFatal_of_last_zero hexec,
    fun hpos hle hlast => ?_⟩
  have hrun := exec_of_divisible hexec hpos hle hlast (length_polyQuot_coef_le hpos hle hfit)
  simp only [← length_coef b, ← length_coef a] at hpos hle hlast ⊢
  exact ⟨polyQuot (coef a) (coef b), length_polyQuot _ _, fun i hi _ => convSum_polyQuot hpos hle hlast hi,
    fun q' => eq_polyQuot_of_convSum hpos hle hlast, hrun⟩

/-- Settles O49: past the shared tests, VMOD leaves what VDIV's quotient times the divisor leaves of the dividend. -/
theorem polynomialRemainder : Obligations.PolynomialRemainder := by
  refine fun s d ra rb => ⟨spelledBy_encode (.vmod d ra rb), faultsOnNone_of_divideRule (exec_vmod s d ra rb) rfl,
    fun a b ha hb hfit => ?_⟩
  have hdiv := exec_of_divideRule (exec_vdiv s d ra rb) ha hb
  have hmod := exec_of_divideRule (exec_vmod s d ra rb) ha hb
  refine ⟨endsFatal_of_empty_divisor hmod, exec_of_short_dividend hmod, endsFatal_of_last_zero hmod,
    fun hpos hle hlast => ?_⟩
  have hrem : (polyRem (coef a) (coef b)).length = b.length - 1 := length_polyRem_coef hle
  refine ⟨polyQuot (coef a) (coef b), polyRem (coef a) (coef b),
    exec_of_divisible hdiv hpos hle hlast (length_polyQuot_coef_le hpos hle hfit), hrem, fun i _ => ?_,
    exec_of_divisible hmod hpos hle hlast (by omega)⟩
  simp only [← length_coef b, ← length_coef a] at hpos hle hlast
  exact convSum_polyQuot_add_polyRem hpos hle hlast i

/-! ### Scaling and evaluation (R115 to R118) -/

/-- The closed form of R118 is the value of the polynomial of four coefficients. -/
theorem evalQuartic_eq_ev {c : List Fp} (h : c.length = 4) (t : Fp) : evalQuartic c t = ev c t := by
  apply Fp.toZ_inj.1
  rw [toZ_ev, h, evalQuartic]
  simp only [Fp.toZ_add, Fp.toZ_mul, Finset.sum_range_succ, Finset.sum_range_zero]
  ring

theorem exec_veval_of_seq {s : State} {a : VReg} {x : List Slot} (d : FReg) (b : FReg) (ha : getV s a = .seq x) :
    exec (.veval d a b) s = command (.veval d a b) s (.ok (setF s d (ev (coef x) (getF s b)))) := by
  rw [exec_of_bind_ok (exec_veval s d a b) (useV_of_seq ha), horner_eq_ev]

/-- Settles O50: Horner's rule, the power sum and the closed form of four coefficients have one value. -/
theorem scalingAndEvaluation : Obligations.ScalingAndEvaluation := by
  refine fun s d ra rb fd fb => ⟨spelledBy_encode (.vscale d ra fb), faultsOnNone_of_useV (exec_vscale s d ra fb) rfl,
    spelledBy_encode (.veval fd ra fb), faultsOnNone_of_useV (exec_veval s fd ra fb) rfl,
    spelledBy_encode (.vevald d ra rb), faultsOnNone_of_binaryRule (exec_vevald s d ra rb) rfl,
    spelledBy_encode (.vevalq fd ra fb), faultsOnNone_of_useV (exec_vevalq s fd ra fb) rfl, fun a ha hfit => ?_⟩
  have hscale := exec_of_bind_ok (exec_vscale s d ra fb) (useV_of_seq ha)
  have hevalq := exec_of_bind_ok (exec_vevalq s fd ra fb) (useV_of_seq ha)
  have hlen : (polyScale (coef a) (getF s fb)).length = a.length := by rw [length_polyScale, length_coef]
  refine ⟨⟨polyScale (coef a) (getF s fb), hlen, fun i hi => ?_, exec_of_result_le hscale (by rwa [hlen])⟩,
    ⟨ev (coef a) (getF s fb), (evalSum_mod _ _).symm, ?_, fun hfour => ?_⟩,
    fun hne => endsFatal_of_bind_error hevalq (raiseIf_pos hne), fun b hb hfitb => ?_⟩
  · rw [polyScale, coeffAt_map (by rwa [length_coef]), Fp.mul_val]
  · rw [exec_veval_of_seq fd fb ha, command_setF]
  · rw [exec_of_bind_ok hevalq (raiseIf_neg (not_not.2 hfour)), evalQuartic_eq_ev (by rwa [length_coef]), command_setF]
  · have hlenb : ((coef b).map (ev (coef a))).length = b.length := by rw [List.length_map, length_coef]
    refine ⟨(coef b).map (ev (coef a)), hlenb, fun i hi => ?_,
      exec_of_result_le (exec_of_binaryRule (exec_vevald s d ra rb) ha hb) (by rwa [hlenb])⟩
    rw [coeffAt_map (by rwa [length_coef]), evalSum_mod]

/-! ### The vanishing polynomial and powers (R119, R120) -/

theorem toZ_ev_vanishing (points : List Fp) (t : Fp) :
    Fp.toZ (ev (vanishing points) t) = (points.map fun e => Fp.toZ (Fp.sub t e)).prod := by
  rw [← eval_toPoly, toPoly_vanishing, eval_list_prod, List.map_map]
  congr 1
  refine List.map_congr_left fun e _ => ?_
  rw [Function.comp_apply, eval_sub, eval_X, eval_C, Fp.toZ_sub]

/-- R119: the value of the vanishing polynomial at `t` is the product of the differences `t - a[i]`. -/
theorem evalSum_vanishing (points : List Fp) (t : Fp) : evalSum (vanishing points) t.val % modulus =
    (points.map fun e => t.val + (modulus - e.val)).prod % modulus := by
  rw [evalSum_mod, eq_comm, Fp.mod_eq_val_iff, toZ_ev_vanishing, Nat.cast_list_prod, List.map_map]
  congr 1
  refine List.map_congr_left fun e _ => ?_
  rw [Fp.sub, Fp.toZ_ofNat, Function.comp_apply]

theorem exec_vzero_of_seq {s : State} {a : VReg} {x : List Slot} (d : VReg) (ha : getV s a = .seq x)
    (hfit : x.length + 1 ≤ LMAX) :
    exec (.vzero d a) s = command (.vzero d a) s (result s d (elems (vanishing (coef x)))) := by
  have hfetch := exec_of_bind_ok (exec_vzero s d a) (useV_of_seq ha)
  rw [exec_of_bind_ok hfetch (raiseIf_neg (Nat.not_lt.2 hfit))]

theorem length_vanishing_coef (sl : List Slot) : (vanishing (coef sl)).length = sl.length + 1 := by
  rw [length_vanishing, length_coef]

/-- Settles O51: the result is the product of the factors `X - a[i]`. -/
theorem vanishingPolynomial : Obligations.VanishingPolynomial := by
  refine fun s d ra => ⟨spelledBy_encode (.vzero d ra), faultsOnNone_of_useV (exec_vzero s d ra) rfl, fun a ha =>
    ⟨fun hover => ?_, fun hfit => ⟨vanishing (coef a), length_vanishing_coef a, ?_, evalSum_vanishing (coef a),
      exec_of_result_le (exec_vzero_of_seq d ha hfit) (by rwa [length_vanishing_coef])⟩⟩⟩
  · have hfetch := exec_of_bind_ok (exec_vzero s d ra) (useV_of_seq ha)
    exact endsFatal_of_bind_error hfetch (raiseIf_pos hover)
  · rw [← length_coef, coeffAt_vanishing_top]

/-- Settles O52: the test on the count comes before anything is computed. -/
theorem powersOfAnElement : Obligations.PowersOfAnElement := by
  rintro s d a b _ rfl
  refine ⟨spelledBy_encode (.vpow d a b), fun hover => endsFatal_of_bind_error (exec_vpow s d a b) (raiseIf_pos hover),
    fun hfit => ⟨powers (getF s a) (getX s b).toNat, length_powers _ _, fun i hi => ?_, ?_⟩⟩
  · rw [powers, coeffAt_map_range, if_pos hi, Fp.pow_val]
  · have htest : raiseIf ((getX s b).toNat > LMAX) .capacity = .ok () := raiseIf_neg (Nat.not_lt.2 hfit)
    have hexec := exec_of_bind_ok (exec_vpow s d a b) htest
    exact exec_of_result_le hexec (by rwa [length_powers])

/-! ### Interpolation (R125) -/

theorem nodup_iff_coeffAt_ne {c : List Fp} :
    c.Nodup ↔ ∀ i j, i < j → j < c.length → coeffAt c i ≠ coeffAt c j := by
  rw [List.Nodup, List.pairwise_iff_getElem]
  constructor
  · intro h i j hij hj
    rw [coeffAt_of_lt (hij.trans hj), coeffAt_of_lt hj]
    exact h i j (hij.trans hj) hj hij
  · intro h i j hi hj hij
    rw [← coeffAt_of_lt hi, ← coeffAt_of_lt hj]
    exact h i j hij hj

theorem hasDuplicate_coef_iff {sl : List Slot} : hasDuplicate (coef sl) = true ↔
    ∃ i j, i < j ∧ j < sl.length ∧ coeffAt (coef sl) i = coeffAt (coef sl) j := by
  rw [← Bool.not_eq_false, hasDuplicate_eq_false, nodup_iff_coeffAt_ne, length_coef]
  simp only [ne_eq, not_forall, not_not, exists_prop]

theorem interpolateInto_of_noResult {s : State} {d : VReg} {x y : List Slot}
    (h : x.length ≠ y.length ∨ hasDuplicate (coef x) = true) : interpolateInto s d x y = .ok (noResult s d) := by
  unfold interpolateInto
  split
  · rfl
  · next hlen => rw [if_pos (h.resolve_left hlen)]

theorem interpolateInto_of_distinct {s : State} {d : VReg} {x y : List Slot} (hlen : x.length = y.length)
    (hdup : hasDuplicate (coef x) = false) (hfit : x.length ≤ LMAX) : interpolateInto s d x y =
      .ok (writeNores (setV s d (.seq (elems (interpolate (coef x) (coef y))))) false) := by
  rw [interpolateInto, if_neg (not_not.2 hlen), hdup, if_neg Bool.false_ne_true,
    result_of_le (by rwa [length_elems, length_interpolate, length_coef]), except_ok_bind]

theorem exec_vinterp_of_seq {s : State} {ra rb : VReg} {a b : List Slot} (d : VReg) (ha : getV s ra = .seq a)
    (hb : getV s rb = .seq b) : exec (.vinterp d ra rb) s = command (.vinterp d ra rb) s (interpolateInto s d a b) := by
  rw [exec_vinterp, useV_of_seq ha, except_ok_bind, useV_of_seq hb, except_ok_bind]

/-- Two sequences as long as there are distinct points, with equal values at all of them, are equal: polynomials of
degree below the number of points at which they agree (R125). -/
theorem eq_of_ev_eq {xs u v : List Fp} (hn : xs.Nodup) (hu : u.length = xs.length) (hv : v.length = xs.length)
    (h : ∀ i < xs.length, ev u (coeffAt xs i) = ev v (coeffAt xs i)) : u = v := by
  have : Fact modulus.Prime := ⟨modulus_prime⟩
  have hinj : Set.InjOn (fun i => Fp.toZ (coeffAt xs i)) (Finset.range xs.length) := by
    intro i hi j hj hij
    have hi' := Finset.mem_range.1 hi
    have hj' := Finset.mem_range.1 hj
    have heq := Fp.toZ_inj.1 hij
    rw [coeffAt_of_lt hi', coeffAt_of_lt hj'] at heq
    exact (hn.getElem_inj_iff).1 heq
  refine toPoly_inj (hu.trans hv.symm) (eq_of_degrees_lt_of_eval_index_eq (Finset.range xs.length) hinj ?_ ?_ ?_)
  · rw [Finset.card_range, ← hu]
    exact degree_toPoly_lt u
  · rw [Finset.card_range, ← hv]
    exact degree_toPoly_lt v
  · intro i hi
    rw [eval_toPoly, eval_toPoly, h i (Finset.mem_range.1 hi)]

theorem evalSum_mod_eq_iff {c : List Fp} {t e : Fp} : evalSum c t.val % modulus = e.val ↔ ev c t = e := by
  rw [evalSum_mod, Fin.ext_iff]

/-- Settles O53: R127's law gives the values at the points, and the degree bounds leave one sequence with them. -/
theorem interpolation : Obligations.Interpolation := by
  refine fun s d ra rb => ⟨spelledBy_encode (.vinterp d ra rb), faultsOnNone_of_useV_useV (exec_vinterp s d ra rb) rfl,
    fun a b ha hb hfit => ?_⟩
  have hexec := exec_vinterp_of_seq d ha hb
  refine ⟨fun hno => ?_, fun hlen hne => ?_⟩
  · rw [hexec, interpolateInto_of_noResult (hno.imp_right hasDuplicate_coef_iff.2), command_noResult]
  · have hlena := length_coef a
    have hnodup : (coef a).Nodup := nodup_iff_coeffAt_ne.2 (by rwa [hlena])
    have hval : ∀ i < (coef a).length, ev (interpolate (coef a) (coef b)) (coeffAt (coef a) i) = coeffAt (coef b) i :=
      fun i hi => ev_interpolate hnodup (by rw [hlena, length_coef, hlen]) hi
    refine ⟨interpolate (coef a) (coef b), by rw [length_interpolate, hlena],
      fun i hi => evalSum_mod_eq_iff.2 (hval i (by rwa [hlena])), fun out hout hpts => ?_, ?_⟩
    · refine eq_of_ev_eq hnodup (hout.trans hlena.symm) (length_interpolate _ _) fun i hi => ?_
      rw [hval i hi, evalSum_mod_eq_iff.1 (hpts i (by rwa [hlena] at hi))]
    · rw [hexec, interpolateInto_of_distinct hlen (hasDuplicate_eq_false.2 hnodup) hfit, command_writeNores_setV]

/-! ### The laws as runs of commands (R127)

Commands that write one polynomial register each leave states `stored s d c`; a run of several is followed by what each
register holds along it. -/

/-- The state a command leaves that wrote the values `c` to the polynomial register `d` and was counted. -/
def stored (s : State) (d : VReg) (c : List Fp) : State := complete (setV s d (.seq (elems c)))

@[simp] theorem getV_stored_same (s : State) (d : VReg) (c : List Fp) : getV (stored s d c) d = .seq (elems c) :=
  getV_setV_same s d _

theorem getV_stored_ne (s : State) {d j : VReg} (c : List Fp) (h : d ≠ j) : getV (stored s d c) j = getV s j :=
  getV_setV_ne s _ h

@[simp] theorem getF_stored (s : State) (d : VReg) (c : List Fp) (j : FReg) : getF (stored s d c) j = getF s j := rfl

@[simp] theorem getF_complete_setF_same (s : State) (d : FReg) (e : Fp) : getF (complete (setF s d e)) d = e :=
  getF_setF_same s d e

@[simp] theorem getX_complete_setX_same (s : State) (d : XReg) (w : Word) : getX (complete (setX s d w)) d = w :=
  getX_setX_same s d w

theorem completesTo_of_ok {i : Instr} {s s' : State} (hexec : exec i s = command i s (.ok s'))
    (hcount : s'.cmdcnt = s.cmdcnt) : completesTo i s (complete s') :=
  ⟨hexec, congrArg (· + 1) hcount⟩

theorem completesTo_of_result {i : Instr} {s : State} {d : VReg} {c : List Fp}
    (hexec : exec i s = command i s (result s d (elems c))) (hfit : c.length ≤ LMAX) :
    completesTo i s (stored s d c) := by
  rw [result_of_le (by rwa [length_elems])] at hexec
  exact completesTo_of_ok hexec rfl

/-- Two commands with one rule that leaves CMDCNT as it was complete with the same states. -/
theorem completesTo_congr {i j : Instr} {s t : State} {r : Except Cause State} (hi : exec i s = command i s r)
    (hj : exec j s = command j s r) (hr : KeepsControl s r) : completesTo i s t ↔ completesTo j s t := by
  have hcount : ∀ s', r = .ok s' → s'.cmdcnt = s.cmdcnt := fun s' h => congrArg Control.cmdcnt (hr s' h)
  rw [completesTo_iff hi hcount, completesTo_iff hj hcount]

/-- R127: a binary command of a commuting function completes with the same state when its sources are exchanged. -/
theorem completesTo_swap {mk : VReg → VReg → VReg → Instr} {op : List Fp → List Fp → List Fp}
    (hexec : ∀ s d a b, exec (mk d a b) s = command (mk d a b) s (binaryRule s d a b op))
    (hcomm : ∀ x y, op x y = op y x) (s t : State) (d ra rb : VReg) :
    completesTo (mk d ra rb) s t ↔ completesTo (mk d rb ra) s t := by
  have hswap := hexec s d rb ra
  rw [binaryRule_comm hcomm] at hswap
  exact completesTo_congr (hexec s d ra rb) hswap keepsControl_binaryRule

/-- R127: two binary commands of an associating function complete in either bracketing with the same result, where the
intermediate results and the last one fit. -/
theorem completesTo_assoc {mk : VReg → VReg → VReg → Instr} {op : List Fp → List Fp → List Fp}
    (hexec : ∀ s d a b, exec (mk d a b) s = command (mk d a b) s (binaryRule s d a b op))
    (hassoc : ∀ x y z, op (op x y) z = op x (op y z)) {s : State} {d e ra rb rc : VReg} {a b c : List Slot}
    (hda : d ≠ ra) (hdc : d ≠ rc) (ha : getV s ra = .seq a) (hb : getV s rb = .seq b) (hc : getV s rc = .seq c)
    (hab : (op (coef a) (coef b)).length ≤ LMAX) (hbc : (op (coef b) (coef c)).length ≤ LMAX)
    (habc : (op (op (coef a) (coef b)) (coef c)).length ≤ LMAX) :
    ∃ t u t' u', completesTo (mk d ra rb) s t ∧ completesTo (mk e d rc) t u ∧
      completesTo (mk d rb rc) s t' ∧ completesTo (mk e ra d) t' u' ∧ getV u e = getV u' e := by
  have hleft := exec_of_binaryRule (hexec (stored s d (op (coef a) (coef b))) e d rc) (getV_stored_same _ _ _)
    ((getV_stored_ne _ _ hdc).trans hc)
  have hright := exec_of_binaryRule (hexec (stored s d (op (coef b) (coef c))) e ra d)
    ((getV_stored_ne _ _ hda).trans ha) (getV_stored_same _ _ _)
  rw [coef_elems] at hleft hright
  refine ⟨_, _, _, _, completesTo_of_result (exec_of_binaryRule (hexec s d ra rb) ha hb) hab,
    completesTo_of_result hleft habc, completesTo_of_result (exec_of_binaryRule (hexec s d rb rc) hb hc) hbc,
    completesTo_of_result hright (hassoc _ _ _ ▸ habc), ?_⟩
  rw [getV_stored_same, getV_stored_same, hassoc]

theorem completesTo_of_divideRule {i : Instr} {s : State} {d ra rb : VReg} {value : List Fp → List Fp → List Fp}
    {a b : List Slot} (hexec : exec i s = command i s (divideRule s d ra rb value)) (ha : getV s ra = .seq a)
    (hb : getV s rb = .seq b) (hpos : 0 < b.length) (hle : b.length ≤ a.length)
    (hlast : coeffAt (coef b) (b.length - 1) ≠ 0) (hfit : (value (coef a) (coef b)).length ≤ LMAX) :
    completesTo i s (stored (writeNores s false) d (value (coef a) (coef b))) := by
  have hrun := exec_of_divideRule hexec ha hb
  rw [divideInto_of_divisible hpos hle hlast hfit] at hrun
  exact completesTo_of_ok hrun rfl

/-- R127: VDIV, VMUL by the divisor, VMOD and VADD leave the dividend. -/
theorem division_runs_back {s : State} {q m r e ra rb : VReg} {a b : List Slot} (hqa : q ≠ ra) (hqb : q ≠ rb)
    (hma : m ≠ ra) (hmb : m ≠ rb) (hmr : m ≠ r) (ha : getV s ra = .seq a) (hb : getV s rb = .seq b)
    (hfit : a.length ≤ LMAX) (hpos : 0 < b.length) (hle : b.length ≤ a.length)
    (hlast : coeffAt (coef b) (b.length - 1) ≠ 0) :
    ∃ t₁ t₂ t₃ t₄, completesTo (.vdiv q ra rb) s t₁ ∧ completesTo (.vmul m q rb) t₁ t₂ ∧
      completesTo (.vmod r ra rb) t₂ t₃ ∧ completesTo (.vadd e m r) t₃ t₄ ∧ getV t₄ e = .seq (elems (coef a)) := by
  set quot := polyQuot (coef a) (coef b)
  set rem := polyRem (coef a) (coef b)
  have hsum : polyAdd (polyMul quot (coef b)) rem = coef a := by
    refine polyQuot_mul_add_polyRem ?_ ?_ ?_ <;> simpa only [length_coef]
  have hfitsum : (polyAdd (polyMul quot (coef b)) rem).length ≤ LMAX := by rwa [hsum, length_coef]
  have hfitprod : (polyMul quot (coef b)).length ≤ LMAX :=
    (le_max_left _ _).trans (length_polyAdd _ _ ▸ hfitsum)
  have hfitrem : rem.length ≤ LMAX := (le_max_right _ _).trans (length_polyAdd _ _ ▸ hfitsum)
  set t₁ := stored (writeNores s false) q quot
  set t₂ := stored t₁ m (polyMul quot (coef b))
  set t₃ := stored (writeNores t₂ false) r rem
  have ha₁ : getV t₁ ra = .seq a := (getV_stored_ne _ _ hqa).trans ha
  have hb₁ : getV t₁ rb = .seq b := (getV_stored_ne _ _ hqb).trans hb
  have ha₂ : getV t₂ ra = .seq a := (getV_stored_ne _ _ hma).trans ha₁
  have hb₂ : getV t₂ rb = .seq b := (getV_stored_ne _ _ hmb).trans hb₁
  have hm₃ : getV t₃ m = .seq (elems (polyMul quot (coef b))) :=
    (getV_stored_ne _ _ hmr.symm).trans (getV_stored_same _ _ _)
  have hmul := exec_of_binaryRule (exec_vmul t₁ m q rb) (getV_stored_same _ _ _) hb₁
  have hadd := exec_of_binaryRule (exec_vadd t₃ e m r) hm₃ (getV_stored_same _ _ _)
  rw [coef_elems] at hmul
  rw [coef_elems, coef_elems] at hadd
  refine ⟨t₁, t₂, t₃, stored t₃ e (polyAdd (polyMul quot (coef b)) rem),
    completesTo_of_divideRule (exec_vdiv s q ra rb) ha hb hpos hle hlast (length_polyQuot_coef_le hpos hle hfit),
    completesTo_of_result hmul hfitprod,
    completesTo_of_divideRule (exec_vmod t₂ r ra rb) ha₂ hb₂ hpos hle hlast hfitrem,
    completesTo_of_result hadd hfitsum, ?_⟩
  rw [getV_stored_same, hsum]

theorem completesTo_veval {s : State} {a : VReg} {c : List Fp} (d b : FReg) (ha : getV s a = .seq (elems c)) :
    completesTo (.veval d a b) s (complete (setF s d (ev c (getF s b)))) := by
  have hexec := exec_veval_of_seq d b ha
  rw [coef_elems] at hexec
  exact completesTo_of_ok hexec rfl

/-- R127: VINTERP and then VEVAL at a point leave the value at that point. -/
theorem interpolation_runs_back {s : State} {c ra rb : VReg} {a b : List Slot} {i : Nat} (d fb : FReg)
    (ha : getV s ra = .seq a) (hb : getV s rb = .seq b) (hfit : a.length ≤ LMAX) (hlen : a.length = b.length)
    (hne : ∀ j k, j < k → k < a.length → coeffAt (coef a) j ≠ coeffAt (coef a) k) (hi : i < a.length)
    (hpt : getF s fb = coeffAt (coef a) i) :
    ∃ t u, completesTo (.vinterp c ra rb) s t ∧ completesTo (.veval d c fb) t u ∧ getF u d = coeffAt (coef b) i := by
  have hnodup : (coef a).Nodup := nodup_iff_coeffAt_ne.2 (by rwa [length_coef])
  have hexec := exec_vinterp_of_seq c ha hb
  rw [interpolateInto_of_distinct hlen (hasDuplicate_eq_false.2 hnodup) hfit] at hexec
  have hinterp : completesTo (.vinterp c ra rb) s
      (stored (writeNores s false) c (interpolate (coef a) (coef b))) := completesTo_of_ok hexec rfl
  refine ⟨_, _, hinterp, completesTo_veval d fb (getV_stored_same _ _ _), ?_⟩
  have hpt' : getF (stored (writeNores s false) c (interpolate (coef a) (coef b))) fb = coeffAt (coef a) i := hpt
  rw [getF_complete_setF_same, hpt']
  exact ev_interpolate hnodup (by simpa only [length_coef]) (by rwa [length_coef])

theorem completesTo_vzero {s : State} {ra : VReg} {a : List Slot} (c : VReg) (ha : getV s ra = .seq a)
    (hfit : a.length + 1 ≤ LMAX) : completesTo (.vzero c ra) s (stored s c (vanishing (coef a))) :=
  completesTo_of_result (exec_vzero_of_seq c ha hfit) (by rwa [length_vanishing_coef])

/-- R127: VZERO and then VEVAL at one of its points leave 0. -/
theorem vanishing_runs_to_zero {s : State} {c ra : VReg} {a : List Slot} {i : Nat} (d fb : FReg)
    (ha : getV s ra = .seq a) (hfit : a.length + 1 ≤ LMAX) (hi : i < a.length) (hpt : getF s fb = coeffAt (coef a) i) :
    ∃ t u, completesTo (.vzero c ra) s t ∧ completesTo (.veval d c fb) t u ∧ getF u d = 0 := by
  refine ⟨_, _, completesTo_vzero c ha hfit, completesTo_veval d fb (getV_stored_same _ _ _), ?_⟩
  rw [getF_complete_setF_same, getF_stored, hpt, coeffAt_of_lt (by rwa [length_coef])]
  exact ev_vanishing (List.getElem_mem _)

/-- R127: VZERO and then VDEG leave the number of points. -/
theorem vanishing_runs_to_degree {s : State} {c ra : VReg} {a : List Slot} (x : XReg) (ha : getV s ra = .seq a)
    (hfit : a.length + 1 ≤ LMAX) :
    ∃ t u, completesTo (.vzero c ra) s t ∧ completesTo (.vdeg x c) t u ∧ (getX u x).toNat = a.length := by
  have hdeg := exec_of_bind_ok (exec_vdeg (stored s c (vanishing (coef a))) x c) (useV_of_seq (getV_stored_same _ _ _))
  refine ⟨_, _, completesTo_vzero c ha hfit, completesTo_of_ok hdeg rfl, ?_⟩
  rw [getX_complete_setX_same, coef_elems, degreeWord, deg_vanishing, Option.elim_some, length_coef]
  exact toNat_zext_of_lt ((Nat.lt_of_succ_le hfit).trans LMAX_lt_word)

/-- Settles O54: the laws of the functions, each taken through the states its commands leave. -/
theorem polynomialRingLaws : Obligations.PolynomialRingLaws := by
  refine ⟨fun s t d ra rb => ⟨completesTo_swap exec_vadd polyAdd_comm s t d ra rb,
      completesTo_swap exec_vmul polyMul_comm s t d ra rb⟩,
    fun s d e ra rb rc a b c hda hdc ha hb hc => ⟨fun hfita hfitb hfitc => ?_, fun hab hbc habc => ?_⟩,
    fun s q m r e ra rb a b hqa hqb hma hmb hmr ha hb hfit hpos hle hlast =>
      division_runs_back hqa hqb hma hmb hmr ha hb hfit hpos hle hlast,
    fun s c ra rb d fb a b i ha hb hfit hlen hne hi hpt => interpolation_runs_back d fb ha hb hfit hlen hne hi hpt,
    fun s c ra d fb x a ha hfit => ⟨fun i hi hpt => vanishing_runs_to_zero d fb ha hfit hi hpt,
      vanishing_runs_to_degree x ha hfit⟩⟩
  · refine completesTo_assoc exec_vadd polyAdd_assoc hda hdc ha hb hc ?_ ?_ ?_
    all_goals
      simp only [length_polyAdd, length_coef]
      omega
  · refine completesTo_assoc exec_vmul polyMul_assoc hda hdc ha hb hc ?_ ?_ ?_
    all_goals
      simp only [length_polyMul, length_coef]
      split_ifs <;> omega

end Sys2Proof.Machine

namespace Sys2Proof.Machine

open Polynomial

/-! ### Roots of unity in a field

The algebra of 44_transform.md section 3, for any field: a value that passes the check of R141 is a primitive root of a
length that is a power of two, its half power is -1, and the sum of its powers cancels. -/

/-- The check of R141 makes a value a primitive root of the length. -/
theorem isPrimitiveRoot_of_check {K : Type} [CommMonoid K] {ζ : K} {k : Nat} (hfull : ζ ^ 2 ^ (k + 1) = 1)
    (hhalf : ζ ^ 2 ^ k ≠ 1) : IsPrimitiveRoot ζ (2 ^ (k + 1)) :=
  have : Fact (Nat.Prime 2) := ⟨Nat.prime_two⟩
  IsPrimitiveRoot.iff_orderOf.2 (orderOf_eq_prime_pow hhalf hfull)

theorem isPrimitiveRoot_sq {K : Type} [CommMonoid K] {ζ : K} {k : Nat} (h : IsPrimitiveRoot ζ (2 ^ (k + 1))) :
    IsPrimitiveRoot (ζ * ζ) (2 ^ k) := by
  rw [← pow_two]
  exact h.pow (Nat.two_pow_pos _) (pow_succ' 2 k)

theorem pow_half_eq_neg_one {K : Type} [Field K] {ζ : K} {k : Nat} (h : IsPrimitiveRoot ζ (2 ^ (k + 1))) :
    ζ ^ 2 ^ k = -1 :=
  (h.pow (Nat.two_pow_pos _) (pow_succ 2 k)).eq_neg_one_of_two_right

theorem geomSum_of_root {K : Type} [Field K] {ζ : K} {n : Nat} (hroot : ζ ^ n = 1) (hne : ζ ≠ 1) :
    ∑ j ∈ Finset.range n, ζ ^ j = 0 := by
  rw [geom_sum_eq hne, hroot, sub_self, zero_div]

/-- Orthogonality: transforming the transform under the inverse root `v` with the root `u` multiplies by the length. -/
theorem sum_transform_transform {K : Type} [Field K] {u v : K} {n k : Nat} (hu : IsPrimitiveRoot u n)
    (huv : v * u = 1) (f : Nat → K) (hk : k < n) :
    ∑ j ∈ Finset.range n, (∑ i ∈ Finset.range n, f i * (v ^ j) ^ i) * (u ^ k) ^ j = n * f k := by
  have hcolumn (i : Nat) : ∑ j ∈ Finset.range n, f i * (v ^ j) ^ i * (u ^ k) ^ j =
      f i * ∑ j ∈ Finset.range n, (v ^ i * u ^ k) ^ j := by
    rw [Finset.mul_sum]
    refine Finset.sum_congr rfl fun j _ => ?_
    rw [mul_pow, pow_right_comm, mul_assoc]
  have hcancel (i : Nat) : v ^ i * u ^ i = 1 := by rw [← mul_pow, huv, one_pow]
  simp only [Finset.sum_mul]
  rw [Finset.sum_comm, Finset.sum_congr rfl fun i _ => hcolumn i, Finset.sum_eq_single_of_mem k (Finset.mem_range.2 hk)]
  · rw [hcancel]
    simp [mul_comm]
  · intro i hi hne
    have hv : v ^ n = 1 := by simpa [hu.pow_eq_one] using hcancel n
    rw [geomSum_of_root, mul_zero]
    · rw [mul_pow, pow_right_comm v, pow_right_comm u, hv, hu.pow_eq_one, one_pow, one_pow, mul_one]
    · intro hone
      refine hne (hu.pow_inj (Finset.mem_range.1 hi) hk ?_)
      linear_combination u ^ k * hcancel i - u ^ i * hone

/-- A sum over an even number of indices, by parity. -/
theorem sum_range_two_mul {K : Type} [AddCommMonoid K] (f : Nat → K) (m : Nat) :
    ∑ i ∈ Finset.range (2 * m), f i =
      ∑ i ∈ Finset.range m, f (2 * i) + ∑ i ∈ Finset.range m, f (2 * i + 1) := by
  induction m with
  | zero => simp
  | succ m ih =>
    rw [Nat.mul_succ, Finset.sum_range_succ, Finset.sum_range_succ, ih, Finset.sum_range_succ, Finset.sum_range_succ]
    abel

/-! ### The recursion of the transform (R140) -/

theorem coeffAt_append_left {u v : List Fp} {i : Nat} (h : i < u.length) : coeffAt (u ++ v) i = coeffAt u i :=
  List.getD_append _ _ _ _ h

theorem coeffAt_append_add {u v : List Fp} {n i : Nat} (h : u.length = n) : coeffAt (u ++ v) (i + n) = coeffAt v i := by
  rw [coeffAt, List.getD_append_right _ _ _ _ (by omega), h, Nat.add_sub_cancel]
  rfl

/-- R140 splits by index parity into two halves of equal length. -/
theorem length_strided_two {c : List Fp} {k start : Nat} (hlen : c.length = 2 ^ (k + 1)) (hs : start < 2) :
    (strided c start 2).length = 2 ^ k := by
  have hpow : 2 ^ (k + 1) = 2 * 2 ^ k := pow_succ' 2 k
  have hpos := Nat.two_pow_pos k
  rw [length_strided c (by omega) (by omega), hlen, hpow]
  omega

theorem coeffAt_strided_two {c : List Fp} {start : Nat} (hs : start < c.length) (i : Nat) :
    coeffAt (strided c start 2) i = coeffAt c (2 * i + start) := by
  rw [coeffAt, List.getD_eq_getElem?_getD, getElem?_strided c hs (by omega), coeffAt, List.getD_eq_getElem?_getD,
    Nat.mul_comm, Nat.add_comm]

/-- One half of the recursion: the transform of the values at one parity under the squared root. -/
def nttHalf (k : Nat) (w : Fp) (c : List Fp) (start : Nat) : List Fp := nttRec k (Fp.mul w w) (strided c start 2)

theorem coeffAt_nttRec_low {k i : Nat} (w : Fp) (c : List Fp) (hi : i < 2 ^ k) :
    coeffAt (nttRec (k + 1) w c) i =
      Fp.add (coeffAt (nttHalf k w c 0) i) (Fp.mul (Fp.pow w i) (coeffAt (nttHalf k w c 1) i)) := by
  rw [nttRec, coeffAt_append_left (by simpa using hi)]
  simp [nttHalf, hi]

theorem coeffAt_nttRec_high {k i : Nat} (w : Fp) (c : List Fp) (hi : i < 2 ^ k) :
    coeffAt (nttRec (k + 1) w c) (i + 2 ^ k) =
      Fp.sub (coeffAt (nttHalf k w c 0) i) (Fp.mul (Fp.pow w i) (coeffAt (nttHalf k w c 1) i)) := by
  rw [nttRec, coeffAt_append_add (by simp)]
  simp [nttHalf, hi]

/-- A polynomial by the parity of its exponents: the halves at the square of the point. -/
theorem toZ_ev_parity {c : List Fp} {k : Nat} (hlen : c.length = 2 ^ (k + 1)) {t t' : Fp}
    (ht : Fp.toZ t' = Fp.toZ t ^ 2) :
    Fp.toZ (ev c t) = Fp.toZ (ev (strided c 0 2) t') + Fp.toZ t * Fp.toZ (ev (strided c 1 2) t') := by
  have hpos := Nat.two_pow_pos k
  have hpow : 2 ^ (k + 1) = 2 * 2 ^ k := pow_succ' 2 k
  rw [toZ_ev, toZ_ev, toZ_ev, length_strided_two hlen (by omega), length_strided_two hlen (by omega), hlen, hpow,
    sum_range_two_mul, Finset.mul_sum, ht]
  congr 1 <;> refine Finset.sum_congr rfl fun i _ => ?_
  · rw [coeffAt_strided_two (by omega), pow_mul, Nat.add_zero]
  · rw [coeffAt_strided_two (by omega), pow_succ, pow_mul]
    ring

/-- R140: the recursion evaluates the polynomial at the powers of the root. -/
theorem coeffAt_nttRec (k : Nat) : ∀ {w : Fp} {c : List Fp} {j : Nat}, c.length = 2 ^ k →
    IsPrimitiveRoot (Fp.toZ w) (2 ^ k) → j < 2 ^ k → coeffAt (nttRec k w c) j = ev c (Fp.pow w j) := by
  induction k with
  | zero =>
    intro w c j hlen _ hj
    obtain rfl : j = 0 := by omega
    apply Fp.toZ_inj.1
    rw [toZ_ev, hlen, nttRec]
    simp
  | succ k ih =>
    intro w c j hlen hw hj
    have : Fact modulus.Prime := ⟨modulus_prime⟩
    have hsq : IsPrimitiveRoot (Fp.toZ (Fp.mul w w)) (2 ^ k) := by
      rw [Fp.toZ_mul]
      exact isPrimitiveRoot_sq hw
    have hhalf {start i : Nat} (hs : start < 2) (hi : i < 2 ^ k) :
        coeffAt (nttHalf k w c start) i = ev (strided c start 2) (Fp.pow (Fp.mul w w) i) :=
      ih (length_strided_two hlen hs) hsq hi
    apply Fp.toZ_inj.1
    rcases Nat.lt_or_ge j (2 ^ k) with hlow | hhigh
    · have ht : Fp.toZ (Fp.pow (Fp.mul w w) j) = Fp.toZ (Fp.pow w j) ^ 2 := by
        rw [Fp.toZ_pow, Fp.toZ_mul, Fp.toZ_pow]
        ring
      rw [coeffAt_nttRec_low w c hlow, toZ_ev_parity hlen ht, hhalf (by omega) hlow, hhalf (by omega) hlow, Fp.toZ_add,
        Fp.toZ_mul]
    · obtain ⟨i, rfl⟩ : ∃ i, j = i + 2 ^ k := ⟨j - 2 ^ k, by omega⟩
      have hi : i < 2 ^ k := by omega
      have hneg : Fp.toZ (Fp.pow w (i + 2 ^ k)) = -Fp.toZ w ^ i := by
        rw [Fp.toZ_pow, pow_add, pow_half_eq_neg_one hw, mul_neg_one]
      have ht : Fp.toZ (Fp.pow (Fp.mul w w) i) = Fp.toZ (Fp.pow w (i + 2 ^ k)) ^ 2 := by
        rw [hneg, Fp.toZ_pow, Fp.toZ_mul]
        ring
      rw [coeffAt_nttRec_high w c hi, toZ_ev_parity hlen ht, hhalf (by omega) hi, hhalf (by omega) hi, Fp.toZ_sub,
        Fp.toZ_mul, Fp.toZ_pow, hneg]
      ring

/-! ### The transform and its inverse (R140, R142) -/

theorem ntt_eq_nttRec {c : List Fp} {k : Nat} (w : Fp) (hlen : c.length = 2 ^ k) : ntt w c = nttRec k w c := by
  rw [ntt, hlen, Nat.log2_two_pow]

theorem length_ntt {c : List Fp} {k : Nat} (w : Fp) (hlen : c.length = 2 ^ k) : (ntt w c).length = 2 ^ k := by
  rw [ntt_eq_nttRec w hlen, length_nttRec k w c hlen]

theorem length_intt {c : List Fp} {k : Nat} (w : Fp) (hlen : c.length = 2 ^ k) : (intt w c).length = 2 ^ k := by
  rw [intt, length_polyScale, length_ntt _ hlen]

theorem ntt_of_length_one (w : Fp) {c : List Fp} (hlen : c.length = 1) : ntt w c = c := by
  rw [ntt_eq_nttRec (k := 0) w hlen, nttRec]

/-- R140: the transform evaluates the polynomial at the powers of the root. -/
theorem coeffAt_ntt {w : Fp} {c : List Fp} {k j : Nat} (hlen : c.length = 2 ^ k)
    (hw : IsPrimitiveRoot (Fp.toZ w) (2 ^ k)) (hj : j < 2 ^ k) : coeffAt (ntt w c) j = ev c (Fp.pow w j) := by
  rw [ntt_eq_nttRec w hlen, coeffAt_nttRec k hlen hw hj]

/-- The sum of R140's closed form is the value at a power of the root. -/
theorem dftSum_mod (c : List Fp) (w : Fp) (j : Nat) : dftSum c w.val j % modulus = (ev c (Fp.pow w j)).val := by
  rw [Fp.mod_eq_val_iff, toZ_ev, dftSum, Nat.cast_sum]
  refine Finset.sum_congr rfl fun i _ => ?_
  rw [Nat.cast_mul, Nat.cast_pow, Fp.toZ_pow, ← pow_mul', Fp.toZ, Fp.toZ]

theorem coeffAt_polyScale {c : List Fp} {i : Nat} (q : Fp) (hi : i < c.length) :
    coeffAt (polyScale c q) i = Fp.mul (coeffAt c i) q := coeffAt_map hi

/-- The transform is linear in the values. -/
theorem ntt_polyScale {u : Fp} {c : List Fp} {k : Nat} (hlen : c.length = 2 ^ k)
    (hu : IsPrimitiveRoot (Fp.toZ u) (2 ^ k)) (q : Fp) : ntt u (polyScale c q) = polyScale (ntt u c) q := by
  have hscaled : (polyScale c q).length = 2 ^ k := (length_polyScale c q).trans hlen
  refine list_ext_coeffAt (by rw [length_polyScale, length_ntt u hlen, length_ntt u hscaled]) fun j hj => ?_
  rw [length_ntt u hscaled] at hj
  apply Fp.toZ_inj.1
  rw [coeffAt_ntt hscaled hu hj, ev_polyScale, coeffAt_polyScale q (by rwa [length_ntt u hlen]), Fp.toZ_mul,
    coeffAt_ntt hlen hu hj]

theorem ofNat_two_pow_ne_zero (k : Nat) : Fp.ofNat (2 ^ k) ≠ 0 := by
  have : Fact modulus.Prime := ⟨modulus_prime⟩
  have htwo : Fp.toZ (Fp.ofNat 2) ≠ 0 := Fp.toZ_ne_zero (by decide)
  intro h
  have hz := congrArg Fp.toZ h
  rw [Fp.toZ_ofNat] at htwo
  rw [Fp.toZ_ofNat, Fp.toZ_zero, Nat.cast_pow] at hz
  exact htwo (eq_zero_of_pow_eq_zero hz)

theorem isPrimitiveRoot_of_inverse {u v : Fp} {n : Nat} (hu : IsPrimitiveRoot (Fp.toZ u) n)
    (huv : Fp.toZ v * Fp.toZ u = 1) : IsPrimitiveRoot (Fp.toZ v) n := by
  have : Fact modulus.Prime := ⟨modulus_prime⟩
  rw [eq_inv_of_mul_eq_one_left huv]
  exact hu.inv

/-- R144's first step: the transforms under a root and its inverse, one after the other, multiply by the length. -/
theorem toZ_coeffAt_ntt_ntt {u v : Fp} {c : List Fp} {k j : Nat} (hlen : c.length = 2 ^ k)
    (hu : IsPrimitiveRoot (Fp.toZ u) (2 ^ k)) (huv : Fp.toZ v * Fp.toZ u = 1) (hj : j < 2 ^ k) :
    Fp.toZ (coeffAt (ntt u (ntt v c)) j) = Fp.toZ (Fp.ofNat (2 ^ k)) * Fp.toZ (coeffAt c j) := by
  have : Fact modulus.Prime := ⟨modulus_prime⟩
  have hv := isPrimitiveRoot_of_inverse hu huv
  have hinner {i : Nat} (hi : i ∈ Finset.range (2 ^ k)) : Fp.toZ (coeffAt (ntt v c) i) =
      ∑ l ∈ Finset.range (2 ^ k), Fp.toZ (coeffAt c l) * (Fp.toZ v ^ i) ^ l := by
    rw [coeffAt_ntt hlen hv (Finset.mem_range.1 hi), toZ_ev, hlen, Fp.toZ_pow]
  rw [coeffAt_ntt (length_ntt v hlen) hu hj, toZ_ev, length_ntt v hlen, Fp.toZ_pow, Fp.toZ_ofNat,
    ← sum_transform_transform hu huv (fun l => Fp.toZ (coeffAt c l)) hj]
  exact Finset.sum_congr rfl fun i hi => by rw [hinner hi]

/-- The factor of R142 takes the length away again. -/
theorem polyScale_ntt_ntt {u v : Fp} {c : List Fp} {k : Nat} (hlen : c.length = 2 ^ k)
    (hu : IsPrimitiveRoot (Fp.toZ u) (2 ^ k)) (huv : Fp.toZ v * Fp.toZ u = 1) :
    polyScale (ntt u (ntt v c)) (Fp.inv (Fp.ofNat (2 ^ k))) = c := by
  have htwice : (ntt u (ntt v c)).length = 2 ^ k := length_ntt u (length_ntt v hlen)
  refine list_ext_coeffAt (by rw [length_polyScale, htwice, hlen]) fun j hj => ?_
  rw [length_polyScale] at hj
  apply Fp.toZ_inj.1
  rw [coeffAt_polyScale _ hj, Fp.toZ_mul, toZ_coeffAt_ntt_ntt hlen hu huv (htwice ▸ hj)]
  linear_combination Fp.toZ (coeffAt c j) * Fp.toZ_inv _ (ofNat_two_pow_ne_zero k)

theorem toZ_inv_mul_of_root {w : Fp} {k : Nat} (hw : IsPrimitiveRoot (Fp.toZ w) (2 ^ k)) :
    Fp.toZ (Fp.inv w) * Fp.toZ w = 1 := by
  have : Fact modulus.Prime := ⟨modulus_prime⟩
  refine Fp.toZ_inv w fun h => hw.ne_zero (Nat.two_pow_pos k).ne' ?_
  rw [h, Fp.toZ_zero]

/-- R144: the inverse transform takes the transform back. -/
theorem intt_ntt {w : Fp} {c : List Fp} {k : Nat} (hlen : c.length = 2 ^ k)
    (hw : IsPrimitiveRoot (Fp.toZ w) (2 ^ k)) : intt w (ntt w c) = c := by
  have hinv := toZ_inv_mul_of_root hw
  rw [intt, length_ntt w hlen]
  exact polyScale_ntt_ntt hlen (isPrimitiveRoot_of_inverse hw hinv) (by rwa [mul_comm])

/-- R144: the transform takes the inverse transform back. -/
theorem ntt_intt {w : Fp} {c : List Fp} {k : Nat} (hlen : c.length = 2 ^ k)
    (hw : IsPrimitiveRoot (Fp.toZ w) (2 ^ k)) : ntt w (intt w c) = c := by
  rw [intt, ntt_polyScale (length_ntt _ hlen) hw, hlen]
  exact polyScale_ntt_ntt hlen hw (toZ_inv_mul_of_root hw)

/-- R142: the length times a value of the inverse transform is the value at a power of the inverse root. -/
theorem length_mul_coeffAt_intt {w : Fp} {c : List Fp} {k j : Nat} (hlen : c.length = 2 ^ k)
    (hw : IsPrimitiveRoot (Fp.toZ w) (2 ^ k)) (hj : j < 2 ^ k) :
    2 ^ k * (coeffAt (intt w c) j).val % modulus = (ev c (Fp.pow (Fp.inv w) j)).val := by
  have hinv := isPrimitiveRoot_of_inverse hw (toZ_inv_mul_of_root hw)
  have hn := Fp.toZ_inv _ (ofNat_two_pow_ne_zero k)
  rw [Fp.toZ_ofNat] at hn
  have hval : ((coeffAt (intt w c) j).val : ZMod modulus) = Fp.toZ (coeffAt (intt w c) j) := rfl
  rw [Fp.mod_eq_val_iff, Nat.cast_mul, hval, intt, coeffAt_polyScale _ (by rwa [length_ntt _ hlen]), Fp.toZ_mul, hlen,
    coeffAt_ntt hlen hinv hj]
  linear_combination Fp.toZ (ev c (Fp.pow (Fp.inv w) j)) * hn

/-- R142: the power `w^(-j)` is `w^(n-j)`. -/
theorem pow_inv_eq_pow_sub {w : Fp} {k j : Nat} (hw : IsPrimitiveRoot (Fp.toZ w) (2 ^ k)) (hj : j ≤ 2 ^ k) :
    Fp.pow (Fp.inv w) j = Fp.pow w (2 ^ k - j) := by
  have hcancel : Fp.toZ (Fp.inv w) ^ j * Fp.toZ w ^ j = 1 := by rw [← mul_pow, toZ_inv_mul_of_root hw, one_pow]
  have hfull : Fp.toZ w ^ (2 ^ k - j) * Fp.toZ w ^ j = 1 := by rw [← pow_add, Nat.sub_add_cancel hj, hw.pow_eq_one]
  apply Fp.toZ_inj.1
  rw [Fp.toZ_pow, Fp.toZ_pow]
  linear_combination Fp.toZ w ^ (2 ^ k - j) * hcancel - Fp.toZ (Fp.inv w) ^ j * hfull

/-! ### The tests of VNTT and VINTT (R141, R142) -/

theorem Fp.pow_eq_one_iff {a : Fp} {n : Nat} : Fp.pow a n = 1 ↔ a.val ^ n % modulus = 1 := by
  rw [Fin.ext_iff, Fp.pow_val, Fp.one_val]

theorem failsRootCheck_eq_true {w : Fp} {n : Nat} :
    failsRootCheck w n = true ↔ w.val ^ n % modulus ≠ 1 ∨ w.val ^ (n / 2) % modulus = 1 := by
  rw [failsRootCheck, Bool.or_eq_true, bne_iff_ne, beq_iff_eq, Ne, Fp.pow_eq_one_iff, Fp.pow_eq_one_iff]

theorem failsRootCheck_eq_false {w : Fp} {n : Nat} :
    failsRootCheck w n = false ↔ w.val ^ n % modulus = 1 ∧ w.val ^ (n / 2) % modulus ≠ 1 := by
  rw [← Bool.not_eq_true, failsRootCheck_eq_true, not_or, not_not]

theorem two_pow_succ_half (k : Nat) : 2 ^ (k + 1) / 2 = 2 ^ k := by
  rw [pow_succ, Nat.mul_div_cancel _ (by decide)]

theorem ne_one_of_eq_two_pow_succ {n k : Nat} (h : n = 2 ^ (k + 1)) : n ≠ 1 :=
  h ▸ (Nat.one_lt_two_pow k.succ_ne_zero).ne'

/-- A root that passes the check is primitive (R140). -/
theorem isPrimitiveRoot_of_passes {w : Fp} {k : Nat} (h : failsRootCheck w (2 ^ (k + 1)) = false) :
    IsPrimitiveRoot (Fp.toZ w) (2 ^ (k + 1)) := by
  obtain ⟨hfull, hhalf⟩ := failsRootCheck_eq_false.1 h
  rw [two_pow_succ_half] at hhalf
  exact isPrimitiveRoot_of_check (Fp.pow_val_mod_eq_one_iff.1 hfull) (mt Fp.pow_val_mod_eq_one_iff.2 hhalf)

/-- The root R141 and R142 admit for a length: any for 1, else one that passes the check. -/
def AdmitsRoot (w : Fp) (n : Nat) : Prop := n = 1 ∨ failsRootCheck w n = false

theorem isPowerOfTwo_iff {n : Nat} : isPowerOfTwo n = true ↔ ∃ k, n = 2 ^ k := by
  rw [isPowerOfTwo, beq_iff_eq]
  constructor
  · exact fun h => ⟨_, h⟩
  · rintro ⟨k, rfl⟩
    rw [Nat.log2_two_pow]

theorem intt_of_length_one (w : Fp) {c : List Fp} (hlen : c.length = 1) : intt w c = c := by
  have hone : Fp.inv (Fp.ofNat 1) = 1 := (Fp.eq_inv_of_val_mul (by decide) (by decide)).symm
  have hscale (a : Fp) : Fp.mul a 1 = a := Fp.toZ_inj.1 (by rw [Fp.toZ_mul, Fp.toZ_one, mul_one])
  rw [intt, ntt_of_length_one _ hlen, hlen, hone, polyScale]
  simp only [hscale, List.map_id']

/-- R144, with any root for length 1. -/
theorem transforms_inverse_of_admitsRoot {w : Fp} {c : List Fp} {k : Nat} (hlen : c.length = 2 ^ k)
    (hw : AdmitsRoot w c.length) : intt w (ntt w c) = c ∧ ntt w (intt w c) = c := by
  cases k with
  | zero =>
    rw [ntt_of_length_one w hlen, intt_of_length_one w hlen, ntt_of_length_one w hlen]
    exact ⟨rfl, rfl⟩
  | succ k =>
    have hroot : IsPrimitiveRoot (Fp.toZ w) (2 ^ (k + 1)) :=
      isPrimitiveRoot_of_passes (hlen ▸ hw.resolve_left (ne_one_of_eq_two_pow_succ hlen))
    exact ⟨intt_ntt hlen hroot, ntt_intt hlen hroot⟩

theorem exec_vntt (s : State) (d a : VReg) (b : FReg) : exec (.vntt d a b) s =
    command (.vntt d a b) s (useV s a >>= fun x => transformInto s d (coef x) (getF s b) ntt) := rfl

theorem exec_vintt (s : State) (d a : VReg) (b : FReg) : exec (.vintt d a b) s =
    command (.vintt d a b) s (useV s a >>= fun x => transformInto s d (coef x) (getF s b) intt) := rfl

section transform

variable {i : Instr} {s : State} {d : VReg} {w : Fp} {value : Fp → List Fp → List Fp} {c : List Fp} {k : Nat}

theorem endsFatal_of_not_two_pow (hexec : exec i s = command i s (transformInto s d c w value))
    (hno : ∀ k, c.length ≠ 2 ^ k) : endsFatal i s .notPow2 := by
  have htest : isPowerOfTwo c.length = false := by
    rw [← Bool.not_eq_true, isPowerOfTwo_iff, not_exists]
    exact hno
  exact endsFatal_of_error hexec (transformInto_eq_error.2 (.inl ⟨htest, rfl⟩))

theorem endsFatal_of_failsRootCheck (hexec : exec i s = command i s (transformInto s d c w value))
    (hlen : c.length = 2 ^ (k + 1)) (hfails : failsRootCheck w c.length = true) : endsFatal i s .badRoot := by
  exact endsFatal_of_error hexec (transformInto_eq_error.2
    (.inr ⟨isPowerOfTwo_iff.2 ⟨_, hlen⟩, ne_one_of_eq_two_pow_succ hlen, .inl ⟨hfails, rfl⟩⟩))

/-- For length 1 the values as they are are the transform too, so an admitted root gives the transform's value. -/
theorem transformInto_of_admitsRoot (hlen : c.length = 2 ^ k) (hroot : AdmitsRoot w c.length)
    (hone : c.length = 1 → value w c = c) (hval : (value w c).length = 2 ^ k) (hfit : c.length ≤ LMAX) :
    transformInto s d c w value = result s d (elems (value w c)) := by
  have hfit' : (value w c).length ≤ LMAX := by rwa [hval, ← hlen]
  rw [result_of_le (by rwa [length_elems])]
  refine transformInto_eq_ok.2 ⟨isPowerOfTwo_iff.2 ⟨k, hlen⟩, ?_⟩
  by_cases h1 : c.length = 1
  · exact .inl ⟨h1, by rw [hone h1]⟩
  · exact .inr ⟨h1, hroot.resolve_left h1, hfit', rfl⟩

end transform

section commands

variable {s : State} {ra : VReg} {fb : FReg} {w : Fp} {a : List Slot} {c : List Fp} {k : Nat}

theorem exec_vntt_of_admitsRoot (d : VReg) (hw : getF s fb = w) (ha : getV s ra = .seq a) (hc : coef a = c)
    (hlen : c.length = 2 ^ k) (hroot : AdmitsRoot w c.length) (hfit : c.length ≤ LMAX) :
    exec (.vntt d ra fb) s = command (.vntt d ra fb) s (result s d (elems (ntt w c))) := by
  rw [exec_of_bind_ok (exec_vntt s d ra fb) (useV_of_seq ha), hw, hc,
    transformInto_of_admitsRoot hlen hroot (ntt_of_length_one w) (length_ntt w hlen) hfit]

theorem exec_vintt_of_admitsRoot (d : VReg) (hw : getF s fb = w) (ha : getV s ra = .seq a) (hc : coef a = c)
    (hlen : c.length = 2 ^ k) (hroot : AdmitsRoot w c.length) (hfit : c.length ≤ LMAX) :
    exec (.vintt d ra fb) s = command (.vintt d ra fb) s (result s d (elems (intt w c))) := by
  rw [exec_of_bind_ok (exec_vintt s d ra fb) (useV_of_seq ha), hw, hc,
    transformInto_of_admitsRoot hlen hroot (intt_of_length_one w) (length_intt w hlen) hfit]

end commands

/-! ### The three statements about VNTT and VINTT -/

theorem coeffAt_map_range_two_mul {c : List Fp} {k start : Nat} (hlen : c.length = 2 ^ (k + 1)) (hs : start < 2) :
    (List.range (2 ^ k)).map (fun j => coeffAt c (2 * j + start)) = strided c start 2 := by
  have hpow : 2 ^ (k + 1) = 2 * 2 ^ k := pow_succ' 2 k
  have hpos := Nat.two_pow_pos k
  refine list_ext_coeffAt (by rw [List.length_map, List.length_range, length_strided_two hlen hs]) fun i hi => ?_
  rw [List.length_map, List.length_range] at hi
  rw [coeffAt_map_range, if_pos hi, coeffAt_strided_two (by omega)]

/-- The half of the recursion at one parity, as R140 writes it. -/
theorem nttHalf_eq_ntt {c : List Fp} {k start : Nat} (w : Fp) (hlen : c.length = 2 ^ (k + 1)) (hs : start < 2) :
    nttHalf k w c start = ntt (Fp.mul w w) ((List.range (2 ^ k)).map fun j => coeffAt c (2 * j + start)) := by
  rw [coeffAt_map_range_two_mul hlen hs, ntt_eq_nttRec _ (length_strided_two hlen hs), nttHalf]

/-- R140's recursion, for any root. -/
theorem ntt_recursion {w : Fp} {c even odd : List Fp} {k : Nat} (hlen : c.length = 2 ^ (k + 1))
    (heven : even = ntt (Fp.mul w w) ((List.range (2 ^ k)).map fun j => coeffAt c (2 * j)))
    (hodd : odd = ntt (Fp.mul w w) ((List.range (2 ^ k)).map fun j => coeffAt c (2 * j + 1))) {i : Nat}
    (hi : i < 2 ^ k) :
    (coeffAt (ntt w c) i).val = ((coeffAt even i).val + w.val ^ i * (coeffAt odd i).val) % modulus ∧
    ((coeffAt (ntt w c) (i + 2 ^ k)).val + w.val ^ i * (coeffAt odd i).val) % modulus = (coeffAt even i).val := by
  have hcast (x : Fp) : ((x.val : Nat) : ZMod modulus) = Fp.toZ x := rfl
  rw [heven, hodd, ntt_eq_nttRec w hlen, coeffAt_nttRec_low w c hi, coeffAt_nttRec_high w c hi,
    nttHalf_eq_ntt w hlen (start := 0) (by omega), nttHalf_eq_ntt w hlen (start := 1) (by omega)]
  constructor
  · rw [eq_comm, Fp.mod_eq_val_iff]
    push_cast
    rw [hcast, hcast, hcast, Fp.toZ_add, Fp.toZ_mul, Fp.toZ_pow]
    rfl
  · rw [Fp.mod_eq_val_iff]
    push_cast
    rw [hcast, hcast, hcast, Fp.toZ_sub, Fp.toZ_mul, Fp.toZ_pow]
    exact sub_add_cancel _ _

/-- Settles O55: the recursion evaluates the polynomial at the powers of the root, which is its closed form. -/
theorem numberTheoreticTransform : Obligations.NumberTheoreticTransform := by
  refine ⟨?_, fun w c hlen => ntt_of_length_one w hlen, fun w c even odd k hlen heven hodd =>
    ⟨length_ntt w hlen, fun i hi => ntt_recursion hlen heven hodd hi⟩⟩
  intro s d ra fb w hw
  refine ⟨spelledBy_encode (.vntt d ra fb), faultsOnNone_of_useV (exec_vntt s d ra fb) rfl, fun a ha hfit => ?_⟩
  have hexec := exec_of_bind_ok (exec_vntt s d ra fb) (useV_of_seq ha)
  rw [hw] at hexec
  rw [← length_coef a] at hfit ⊢
  refine ⟨endsFatal_of_not_two_pow hexec, fun hone => ?_, fun k hlen => ⟨fun hfails =>
    endsFatal_of_failsRootCheck hexec hlen (failsRootCheck_eq_true.2 hfails), fun hfull hhalf => ?_⟩⟩
  · have hrun := exec_vntt_of_admitsRoot (k := 0) d hw ha rfl hone (.inl hone) hfit
    rw [ntt_of_length_one w hone] at hrun
    exact exec_of_result_le hrun hfit
  · have hpass := failsRootCheck_eq_false.2 ⟨hfull, hhalf⟩
    have hroot := isPrimitiveRoot_of_passes (hlen ▸ hpass)
    refine ⟨fun j hj => ?_, exec_of_result_le (exec_vntt_of_admitsRoot d hw ha rfl hlen (.inr hpass) hfit) ?_⟩
    · rw [coeffAt_ntt hlen hroot (hlen ▸ hj), dftSum_mod]
    · rwa [length_ntt w hlen, ← hlen]

/-- Settles O56: the transform under the inverse root, divided by the length, undoes the forward transform. -/
theorem inverseTransform : Obligations.InverseTransform := by
  intro s d ra fb w hw
  refine ⟨spelledBy_encode (.vintt d ra fb), faultsOnNone_of_useV (exec_vintt s d ra fb) rfl, fun a ha hfit => ?_⟩
  have hexec := exec_of_bind_ok (exec_vintt s d ra fb) (useV_of_seq ha)
  rw [hw] at hexec
  rw [← length_coef a] at hfit ⊢
  refine ⟨endsFatal_of_not_two_pow hexec, fun hone => ?_, fun k hlen => ⟨fun hfails =>
    endsFatal_of_failsRootCheck hexec hlen (failsRootCheck_eq_true.2 hfails), fun hfull hhalf => ?_⟩⟩
  · have hrun := exec_vintt_of_admitsRoot (k := 0) d hw ha rfl hone (.inl hone) hfit
    rw [intt_of_length_one w hone] at hrun
    exact exec_of_result_le hrun hfit
  · have hpass := failsRootCheck_eq_false.2 ⟨hfull, hhalf⟩
    have hroot := isPrimitiveRoot_of_passes (hlen ▸ hpass)
    have hout := length_intt w hlen
    refine ⟨intt w (coef a), hout.trans hlen.symm, fun j hj => ?_, fun j hj => ?_,
      exec_of_result_le (exec_vintt_of_admitsRoot d hw ha rfl hlen (.inr hpass) hfit) (by rwa [hout, ← hlen])⟩
    · rw [hlen] at hj ⊢
      rw [length_mul_coeffAt_intt hlen hroot hj, pow_inv_eq_pow_sub hroot hj.le, dftSum_mod]
    · rw [hlen] at hj
      rw [dftSum_mod, ← coeffAt_ntt hout hroot hj, ntt_intt hlen hroot]

/-- Two commands, each a `result` that fits, the second run from the state the first leaves. -/
theorem completesTo_result_result {i j : Instr} {s : State} {d e : VReg} {x y : List Fp}
    (hfirst : exec i s = command i s (result s d (elems x)))
    (hsecond : exec j (stored s d x) = command j (stored s d x) (result (stored s d x) e (elems y)))
    (hx : x.length ≤ LMAX) (hy : y.length ≤ LMAX) :
    ∃ t u, completesTo i s t ∧ completesTo j t u ∧ getV u e = .seq (elems y) :=
  ⟨_, _, completesTo_of_result hfirst hx, completesTo_of_result hsecond hy, getV_stored_same _ _ _⟩

/-- Settles O57: the second command of a pair reads what the first stored, of the same length, and takes it back. -/
theorem transformsAreMutualInverses : Obligations.TransformsAreMutualInverses := by
  intro s d e ra fb a k ha hfit hlen hcheck
  rw [← length_coef a] at hfit hlen hcheck
  have hroot : AdmitsRoot (getF s fb) (coef a).length :=
    or_iff_not_imp_left.2 fun hne => failsRootCheck_eq_false.2 (hcheck hne)
  have hforward : (ntt (getF s fb) (coef a)).length = (coef a).length := (length_ntt _ hlen).trans hlen.symm
  have hinverse : (intt (getF s fb) (coef a)).length = (coef a).length := (length_intt _ hlen).trans hlen.symm
  obtain ⟨hback, hforth⟩ := transforms_inverse_of_admitsRoot hlen hroot
  constructor
  · have hsecond := exec_vintt_of_admitsRoot e (getF_stored s d _ fb) (getV_stored_same s d _) (coef_elems _)
      (hforward.trans hlen) (hforward.symm ▸ hroot) (hforward.trans_le hfit)
    rw [hback] at hsecond
    exact completesTo_result_result (exec_vntt_of_admitsRoot d rfl ha rfl hlen hroot hfit) hsecond
      (hforward.trans_le hfit) hfit
  · have hsecond := exec_vntt_of_admitsRoot e (getF_stored s d _ fb) (getV_stored_same s d _) (coef_elems _)
      (hinverse.trans hlen) (hinverse.symm ▸ hroot) (hinverse.trans_le hfit)
    rw [hforth] at hsecond
    exact completesTo_result_result (exec_vintt_of_admitsRoot d rfl ha rfl hlen hroot hfit) hsecond
      (hinverse.trans_le hfit) hfit

/-! ### The transform path of VFMUL (R143) -/

theorem toPoly_padTo {c : List Fp} {d n : Nat} (hd : deg c = some d) (hn : d < n) : toPoly (padTo c d n) = toPoly c := by
  obtain ⟨-, habove⟩ := deg_eq_some.1 hd
  ext i
  rw [coeff_toPoly, coeff_toPoly, padTo, coeffAt_map_range]
  by_cases hi : i ≤ d
  · rw [if_pos (by omega), if_pos hi]
  · rw [if_neg hi, ite_self, habove i (by omega)]

theorem natDegree_toPoly_le {c : List Fp} {d : Nat} (hd : deg c = some d) : (toPoly c).natDegree ≤ d := by
  refine natDegree_le_iff_coeff_eq_zero.2 fun i hi => ?_
  rw [coeff_toPoly, (deg_eq_some.1 hd).2 i hi, Fp.toZ_zero]

/-- As many coefficients as the degree of the product asks for are the whole product. -/
theorem toPoly_convolve {a b : List Fp} {da db n : Nat} (ha : deg a = some da) (hb : deg b = some db)
    (hn : da + db < n) : toPoly (convolve a b n) = toPoly a * toPoly b := by
  ext i
  rw [coeff_toPoly, convolve, coeffAt_map_range]
  split
  · exact toZ_convAt a b i
  · have hdeg : (toPoly a * toPoly b).natDegree ≤ da + db :=
      natDegree_mul_le.trans (Nat.add_le_add (natDegree_toPoly_le ha) (natDegree_toPoly_le hb))
    rw [coeff_eq_zero_of_natDegree_lt (by omega), Fp.toZ_zero]

theorem take_convolve {a b : List Fp} {m n : Nat} (h : m ≤ n) : (convolve a b n).take m = convolve a b m := by
  rw [convolve, ← List.map_take, List.take_range, Nat.min_eq_left h, convolve]

theorem coeffAt_ntt_eq_eval {w : Fp} {c : List Fp} {k j : Nat} (hlen : c.length = 2 ^ k)
    (hw : IsPrimitiveRoot (Fp.toZ w) (2 ^ k)) (hj : j < 2 ^ k) :
    Fp.toZ (coeffAt (ntt w c) j) = (toPoly c).eval (Fp.toZ (Fp.pow w j)) := by
  rw [coeffAt_ntt hlen hw hj, eval_toPoly]

section transformPath

variable {a b : List Fp} {da db k ord : Nat} {w r : Fp}

/-- The convolution theorem: the pointwise product of the transforms is the transform of the product. -/
theorem pointwise_ntt_padTo (ha : deg a = some da) (hb : deg b = some db) (hn : da + db < 2 ^ k)
    (hr : IsPrimitiveRoot (Fp.toZ r) (2 ^ k)) :
    ((List.range (2 ^ k)).map fun j =>
      Fp.mul (coeffAt (ntt r (padTo a da (2 ^ k))) j) (coeffAt (ntt r (padTo b db (2 ^ k))) j)) =
      ntt r (convolve a b (2 ^ k)) := by
  have hconv : (convolve a b (2 ^ k)).length = 2 ^ k := length_convolve a b _
  refine list_ext_coeffAt (by rw [List.length_map, List.length_range, length_ntt r hconv]) fun j hj => ?_
  rw [List.length_map, List.length_range] at hj
  apply Fp.toZ_inj.1
  rw [coeffAt_map_range, if_pos hj, Fp.toZ_mul, coeffAt_ntt_eq_eval (length_padTo _ _ _) hr hj,
    coeffAt_ntt_eq_eval (length_padTo _ _ _) hr hj, coeffAt_ntt_eq_eval hconv hr hj, toPoly_padTo ha (by omega),
    toPoly_padTo hb (by omega), toPoly_convolve ha hb hn, eval_mul]

/-- R143: the transform path leaves the first coefficients of the schoolbook product. -/
theorem fastProduct_eq_convolve (ha : deg a = some da) (hb : deg b = some db) (hn : da + db < 2 ^ k)
    (hr : IsPrimitiveRoot (Fp.toZ r) (2 ^ k)) : fastProduct a b da db r (2 ^ k) = convolve a b (da + db + 1) := by
  rw [fastProduct, pointwise_ntt_padTo ha hb hn hr, intt_ntt (length_convolve a b _) hr, take_convolve hn]

/-- The root R143 derives from one of the given order passes the check of the padded length. -/
theorem isPrimitiveRoot_derivedRoot (hw : Fp.pow w ord = 1) (hdvd : ord % 2 ^ (k + 1) = 0)
    (hhalf : Fp.pow (Fp.pow w (ord / 2 ^ (k + 1))) (2 ^ (k + 1) / 2) ≠ 1) :
    IsPrimitiveRoot (Fp.toZ (Fp.pow w (ord / 2 ^ (k + 1)))) (2 ^ (k + 1)) := by
  refine isPrimitiveRoot_of_check ?_ fun hone => hhalf ?_
  · rw [Fp.toZ_pow, ← pow_mul, Nat.div_mul_cancel (Nat.dvd_of_mod_eq_zero hdvd), ← Fp.toZ_pow, hw, Fp.toZ_one]
  · rw [two_pow_succ_half, ← Fp.toZ_inj, Fp.toZ_pow, hone, Fp.toZ_one]

theorem nextPowerOfTwo_succ {n : Nat} (hn : 0 < n) : nextPowerOfTwo (n + 1) = 2 ^ (Nat.log2 n + 1) := by
  rw [nextPowerOfTwo, if_neg (by omega), Nat.add_sub_cancel]

/-- The padded length of R143 is the one power of two between the length of the product and its double. -/
theorem nextPowerOfTwo_eq {n m : Nat} (hn : 0 < n) (hle : n + 1 ≤ 2 ^ m) (hlt : 2 ^ m < 2 * (n + 1)) :
    nextPowerOfTwo (n + 1) = 2 ^ m := by
  cases m with
  | zero => omega
  | succ k =>
    have hpow : 2 ^ (k + 1) = 2 * 2 ^ k := pow_succ' 2 k
    rw [nextPowerOfTwo_succ hn, (Nat.log2_eq_iff hn.ne').2 ⟨by omega, hle⟩]

/-- Past its tests the transform path writes the product's first coefficients. -/
theorem fastInto_eq_ok_convolve {s s' : State} {d : VReg} (hw : Fp.pow w ord = 1) (ha : deg a = some da)
    (hb : deg b = some db) (hpos : 0 < da + db) : fastInto s d a b da db w ord = .ok s' ↔
      ∃ n, n = nextPowerOfTwo (da + db + 1) ∧ ord % n = 0 ∧ Fp.pow (Fp.pow w (ord / n)) (n / 2) ≠ 1 ∧
        da + db + 1 ≤ LMAX ∧ s' = setV s d (.seq (elems (convolve a b (da + db + 1)))) := by
  have hproduct {n : Nat} (hn : n = nextPowerOfTwo (da + db + 1)) (hdvd : ord % n = 0)
      (hhalf : Fp.pow (Fp.pow w (ord / n)) (n / 2) ≠ 1) :
      fastProduct a b da db (Fp.pow w (ord / n)) n = convolve a b (da + db + 1) := by
    have hle := le_nextPowerOfTwo (da + db + 1)
    rw [← hn] at hle
    rw [nextPowerOfTwo_succ hpos] at hn
    subst hn
    exact fastProduct_eq_convolve ha hb hle (isPrimitiveRoot_derivedRoot hw hdvd hhalf)
  rw [fastInto_eq_ok]
  constructor
  · rintro ⟨n, _, hn, rfl, hdvd, hhalf, hfit, rfl⟩
    exact ⟨n, hn, hdvd, hhalf, hfit, by rw [hproduct hn hdvd hhalf]⟩
  · rintro ⟨n, hn, hdvd, hhalf, hfit, rfl⟩
    exact ⟨n, _, hn, rfl, hdvd, hhalf, hfit, by rw [hproduct hn hdvd hhalf]⟩

end transformPath

/-! ### Two commands with one rule

VFMUL's fallback runs VMUL's rule: same faults, same result. -/

/-- A rule that leaves CMDCNT as it was ends fatally exactly when it answers a cause. -/
theorem endsFatal_iff {i : Instr} {s : State} {r : Except Cause State} {c : Cause} (hexec : exec i s = command i s r)
    (hr : KeepsControl s r) : endsFatal i s c ↔ ∃ e, r = .error e ∧ e.code = c.code := by
  constructor
  · intro h
    rw [endsFatal, hexec, command_eq_next] at h
    obtain ⟨s', hok, hnext⟩ | ⟨e, herr, hnext⟩ := h
    · have hkeep : s'.cmdcnt = s.cmdcnt := congrArg Control.cmdcnt (hr s' hok)
      have hcount : s.cmdcnt = s'.cmdcnt + 1 := congrArg State.cmdcnt hnext
      bv_omega
    · exact ⟨e, herr, (congrArg State.cause hnext).symm⟩
  · rintro ⟨e, herr, hcode⟩
    have hfatal := endsFatal_of_error hexec herr
    rwa [endsFatal, hcode] at hfatal

theorem endsFatal_congr {i j : Instr} {s : State} {r : Except Cause State} {c : Cause} (hi : exec i s = command i s r)
    (hj : exec j s = command j s r) (hr : KeepsControl s r) : endsFatal i s c ↔ endsFatal j s c := by
  rw [endsFatal_iff hi hr, endsFatal_iff hj hr]

theorem exec_congr_of_not_fatal {i j : Instr} {s t : State} {r : Except Cause State} (hi : exec i s = command i s r)
    (hj : exec j s = command j s r) (hnext : exec i s = .next t) (hno : ∀ c, ¬endsFatal i s c) :
    exec j s = .next t := by
  cases r with
  | ok s' => rw [← hnext, hi, hj, command_ok, command_ok]
  | error e => exact absurd (endsFatal_of_error hi rfl) (hno e)

/-- A next state with FATAL clear is a completed one. -/
theorem ok_of_next_not_fatal {i : Instr} {s t : State} {r : Except Cause State} (hexec : exec i s = command i s r)
    (hnext : exec i s = .next t) (ht : t.fatal = false) : ∃ s', r = .ok s' ∧ t = complete s' := by
  rw [hexec, command_eq_next] at hnext
  refine hnext.resolve_right ?_
  rintro ⟨c, -, rfl⟩
  exact Bool.noConfusion ht

/-! ### The statements about VFMUL -/

theorem exec_vfmul (s : State) (d a b : VReg) (c e : FReg) : exec (.vfmul d a b c e) s =
    command (.vfmul d a b c e) s (useV s a >>= fun x => useV s b >>= fun y =>
      fastMulInto s d (coef x) (coef y) (getF s c) (getF s e).val) := rfl

section vfmul

variable {s : State} {ra rb : VReg} {a b : List Slot}

theorem exec_vfmul_of_seq (d : VReg) (fc fe : FReg) (ha : getV s ra = .seq a) (hb : getV s rb = .seq b) :
    exec (.vfmul d ra rb fc fe) s = command (.vfmul d ra rb fc fe) s
      (fastMulInto s d (coef a) (coef b) (getF s fc) (getF s fe).val) := by
  have hfetch := exec_of_bind_ok (exec_vfmul s d ra rb fc fe) (useV_of_seq ha)
  rw [exec_of_bind_ok hfetch (useV_of_seq hb)]

theorem exec_vmul_of_seq (d : VReg) (ha : getV s ra = .seq a) (hb : getV s rb = .seq b) :
    exec (.vmul d ra rb) s = command (.vmul d ra rb) s (mulInto s d (coef a) (coef b)) :=
  exec_of_binaryRule (exec_vmul s d ra rb) ha hb

end vfmul

theorem convSum_mod (a b : List Fp) (k : Nat) : convSum a b k % modulus = (convAt a b k).val := by
  rw [Fp.mod_eq_val_iff, natCast_convSum, toZ_convAt]

/-- Settles O58: each branch is one of the rule's; past the tests the inverse transform takes the pointwise product of the
transforms back to the product. -/
theorem fastMultiplication : Obligations.FastMultiplication := by
  intro s d ra rb fc fe w ord hw hord
  refine ⟨spelledBy_encode (.vfmul d ra rb fc fe), faultsOnNone_of_useV_useV (exec_vfmul s d ra rb fc fe) rfl,
    fun a b ha hb => ?_⟩
  have hexec := exec_vfmul_of_seq d fc fe ha hb
  have hmul := exec_vmul_of_seq d ha hb
  rw [hw, hord] at hexec
  simp only [← Fp.pow_eq_one_iff, ne_eq]
  refine ⟨fun hbad => endsFatal_of_error hexec (fastMulInto_of_badRoot hbad), fun hroot hfallback => ?_,
    fun da db m hroot hda hdb hbig hle hlt => ?_⟩
  · rw [fastMulInto_of_fallback hroot hfallback] at hexec
    exact ⟨fun c => (endsFatal_congr hmul hexec (keepsControl_result s d _)).1,
      fun t => exec_congr_of_not_fatal hmul hexec⟩
  · rw [fastMulInto_of_transform hroot hda hdb hbig] at hexec
    have hn := nextPowerOfTwo_eq (n := da + db) (by omega) hle hlt
    have hderived : (w.val ^ (ord / 2 ^ m)) ^ (2 ^ m / 2) % modulus = 1 ↔
        Fp.pow (Fp.pow w (ord / 2 ^ m)) (2 ^ m / 2) = 1 := by
      rw [Fp.pow_eq_one_iff, Fp.pow_val, ← Nat.pow_mod]
    rw [hderived]
    refine ⟨fun hsize => endsFatal_of_error hexec
        (fastInto_eq_error.2 ⟨_, _, hn.symm, rfl, .inl ⟨hsize, rfl⟩⟩),
      fun hdvd hone => endsFatal_of_error hexec
        (fastInto_eq_error.2 ⟨_, _, hn.symm, rfl, .inr ⟨hdvd, .inl ⟨hone, rfl⟩⟩⟩),
      fun hdvd hhalf => ⟨fun hover => endsFatal_of_error hexec
        (fastInto_eq_error.2 ⟨_, _, hn.symm, rfl, .inr ⟨hdvd, .inr ⟨hhalf, hover, rfl⟩⟩⟩), fun hfit => ?_⟩⟩
    have hok := (fastInto_eq_ok_convolve (s := s) (d := d) hroot hda hdb (by omega)).2
      ⟨_, hn.symm, hdvd, hhalf, hfit, rfl⟩
    refine ⟨convolve (coef a) (coef b) (da + db + 1), length_convolve _ _ _, fun k hk => ?_, ?_⟩
    · rw [length_convolve] at hk
      rw [convolve, coeffAt_map_range, if_pos hk, convSum_mod]
    · rw [hexec, hok, command_setV]

theorem lt_length_of_deg {c : List Fp} {d : Nat} (hd : deg c = some d) : d < c.length := by
  by_contra hge
  exact (deg_eq_some.1 hd).1 (coeffAt_of_ge (Nat.not_lt.1 hge))

theorem coeffAt_eq_of_toPoly_eq {u v : List Fp} (h : toPoly u = toPoly v) (i : Nat) : coeffAt u i = coeffAt v i :=
  Fp.toZ_inj.1 (by rw [← coeff_toPoly, ← coeff_toPoly, h])

/-- R143's corner case: the degrees' length falls short of the schoolbook length by the operands' trailing zeros. -/
theorem length_convolve_ne_iff {a b : List Fp} {da db : Nat} (ha : deg a = some da) (hb : deg b = some db) :
    (convolve a b (da + db + 1)).length ≠ (polyMul a b).length ↔ da + 1 < a.length ∨ db + 1 < b.length := by
  have hla := lt_length_of_deg ha
  have hlb := lt_length_of_deg hb
  rw [length_convolve, length_polyMul, if_neg (by omega)]
  omega

theorem mulInto_ok {s s' : State} {d : VReg} {a b : List Fp} (h : mulInto s d a b = .ok s') :
    complete s' = stored s d (polyMul a b) := by
  obtain ⟨-, rfl⟩ := result_eq_ok.1 h
  rfl

/-- What VFMUL leaves when it completes: the product by length on the fallback path, by degree on the transform path. -/
theorem fastMulInto_ok {s s' : State} {d : VReg} {a b : List Fp} {w : Fp} {ord : Nat}
    (h : fastMulInto s d a b w ord = .ok s') :
    ((∃ da db, deg a = some da ∧ deg b = some db ∧ 8 ≤ da + db ∧
      complete s' = stored s d (convolve a b (da + db + 1))) ∨
    ((∀ da db, deg a = some da → deg b = some db → da + db < 8) ∧ complete s' = stored s d (polyMul a b))) := by
  have hroot : Fp.pow w ord = 1 := by
    by_contra hbad
    rw [fastMulInto_of_badRoot hbad] at h
    cases h
  by_cases hbig : ∃ da db, deg a = some da ∧ deg b = some db ∧ 8 ≤ da + db
  · obtain ⟨da, db, ha, hb, hge⟩ := hbig
    rw [fastMulInto_of_transform hroot ha hb hge] at h
    obtain ⟨-, -, -, -, -, rfl⟩ := (fastInto_eq_ok_convolve hroot ha hb (by omega)).1 h
    exact .inl ⟨da, db, ha, hb, hge, rfl⟩
  · have hsmall : ∀ da db, deg a = some da → deg b = some db → da + db < 8 :=
      fun da db ha hb => Nat.not_le.1 fun hge => hbig ⟨da, db, ha, hb, hge⟩
    have hfallback : deg a = none ∨ deg b = none ∨ ∃ da db, deg a = some da ∧ deg b = some db ∧ da + db < 8 := by
      cases ha : deg a with
      | none => exact .inl rfl
      | some da =>
        cases hb : deg b with
        | none => exact .inr (.inl rfl)
        | some db => exact .inr (.inr ⟨da, db, rfl, rfl, hsmall da db ha hb⟩)
    rw [fastMulInto_of_fallback hroot hfallback] at h
    exact .inr ⟨hsmall, mulInto_ok h⟩

/-- Settles O59: both sequences have the product of the operands' polynomials; only the transform path cuts the length to
the degree. -/
theorem fastAndSchoolbookProductsAgree : Obligations.FastAndSchoolbookProductsAgree := by
  intro s t u d ra rb fc fe a b ha hb hfast ht hmul hu
  obtain ⟨s', hs', rfl⟩ := ok_of_next_not_fatal (exec_vfmul_of_seq d fc fe ha hb) hfast ht
  obtain ⟨u', hu', rfl⟩ := ok_of_next_not_fatal (exec_vmul_of_seq d ha hb) hmul hu
  rw [mulInto_ok hu']
  obtain ⟨da, db, hda, hdb, hbig, hleft⟩ | ⟨hsmall, hleft⟩ := fastMulInto_ok hs'
  · rw [hleft]
    refine ⟨_, _, getV_stored_same _ _ _, getV_stored_same _ _ _, coeffAt_eq_of_toPoly_eq ?_, ?_⟩
    · rw [toPoly_convolve hda hdb (Nat.lt_succ_self _), toPoly_polyMul]
    · rw [length_convolve_ne_iff hda hdb, length_coef, length_coef]
      constructor
      · exact fun htrail => ⟨da, db, hda, hdb, hbig, htrail⟩
      · rintro ⟨da', db', hda', hdb', -, htrail⟩
        rw [hda, Option.some_inj] at hda'
        rw [hdb, Option.some_inj] at hdb'
        rwa [hda', hdb']
  · rw [hleft]
    refine ⟨_, _, getV_stored_same _ _ _, getV_stored_same _ _ _, fun _ => rfl, fun hne => absurd rfl hne, ?_⟩
    rintro ⟨da, db, hda, hdb, hbig, -⟩
    exact absurd (hsmall da db hda hdb) (Nat.not_lt.2 hbig)

end Sys2Proof.Machine

namespace Sys2Proof.Machine

/-! ### Fatal entry (60_exceptions.md R163) -/

/-- Settles O8: an illegal word enters the FATAL state from the old state; a legal word runs a command, which ends fatal
only by `fatalEntry`, since a completed one keeps FATAL at 0. -/
theorem fatalEntryIsPrecise : Obligations.FatalEntryIsPrecise := by
  intro s t w hf hnext ht
  cases hd : decode w with
  | none =>
    have hentry := Host.Outcome.next.inj ((issueCommand_of_none hf hd).symm.trans hnext)
    exact ⟨.illegal, hentry.symm⟩
  | some i =>
    rw [issueCommand_of_some hf hd] at hnext
    obtain ⟨s', he, hkeep⟩ | ⟨c, he⟩ := exec_cases i s
    · obtain rfl := Host.Outcome.next.inj (he.symm.trans hnext)
      have hclear : s'.fatal = false := (congrArg Control.fatal hkeep).trans hf
      exact absurd ht (ne_true_of_eq_false hclear)
    · obtain rfl := Host.Outcome.next.inj (he.symm.trans hnext)
      rw [encodeOfDecodeIsTheWord w i hd]
      exact ⟨c, rfl⟩

/-! ### The FATAL state (R164) -/

theorem windowReg_eq_status_iff (a : BitVec 4) : windowReg a = .status ↔ a = 0x3 := by
  revert a; decide

/-- STATUS is the one word of the window in which FATAL shows (R17, R31). -/
theorem windowRead_with_fatal (s : State) (b : Bool) {r : WindowReg} (h : r ≠ .status) :
    windowRead { s with fatal := b } r = windowRead s r := by
  cases r with
  | status => contradiction
  | _ => rfl

/-- In the FATAL state a write either leaves FATAL at 1 or is the reset by CTRL bit 0 (R164). -/
theorem windowWrite_of_fatal {s : State} (hf : s.fatal = true) (r : WindowReg) (w : Word) :
    (∃ t, windowWrite s r w = .next t ∧ t.fatal = true) ∨
    (r = .ctrl ∧ w.getLsbD 0 = true ∧ windowWrite s r w = .next (resetUnit s)) := by
  cases r with
  | cmd => exact .inl ⟨s, issueCommand_of_fatal hf, hf⟩
  | din => exact .inl ⟨{ s with din := w }, rfl, hf⟩
  | ctrl =>
    cases hw : w.getLsbD 0 with
    | false => exact .inl ⟨s, by rw [windowWrite, ctrlWrite_of_clear hw], hf⟩
    | true => exact .inr ⟨rfl, rfl, by rw [windowWrite, ctrlWrite_of_set hw]⟩
  | _ => exact .inl ⟨s, rfl, hf⟩

/-- Settles O10: a write to CMD is ignored by `issueCommand`, and of all accesses only the two resets leave FATAL at 0. -/
theorem fatalStateIsLeftOnlyByReset : Obligations.FatalStateIsLeftOnlyByReset := by
  intro s hf
  refine ⟨fun w => ?_, fun a => ⟨_, rfl, ?_, fun ha => ?_⟩, fun w => rfl, fun t a hnext ht => ?_⟩
  · rw [performAccess_write_cmd, issueCommand_of_fatal hf]
  · rintro rfl
    rfl
  · exact (windowRead_with_fatal s false (mt (windowReg_eq_status_iff a).1 ha)).symm
  · cases a with
    | read addr =>
      obtain rfl := Host.Outcome.next.inj hnext
      exact absurd hf (ne_true_of_eq_false ht)
    | write addr w =>
      obtain ⟨u, hwrite, hu⟩ | ⟨hreg, hw, hwrite⟩ := windowWrite_of_fatal hf (windowReg addr) w
      · obtain rfl := Host.Outcome.next.inj (hwrite.symm.trans hnext)
        exact absurd hu (ne_true_of_eq_false ht)
      · obtain rfl := (windowReg_eq_ctrl_iff addr).1 hreg
        exact ⟨.inr ⟨w, rfl, hw⟩, Host.Outcome.next.inj (hnext.symm.trans hwrite)⟩
    | platformReset => exact ⟨.inl rfl, (Host.Outcome.next.inj hnext).symm⟩

/-! ### Reading `NONE` (R165, R169) -/

/-- Every command fetches its polynomial sources before any other test. -/
theorem exec_faultsOnNone (i : Instr) (s : State) : faultsOnNone i s := by
  cases i with
  | vpush | vset | vabs | vminv | vget | vpres | vlen | vpad | vtrunc | vtrim | vmov | vrev | vsubsl | vdeg | visz
  | vscale | veval | vevalq | vzero | vntt | vintt => exact faultsOnNone_of_useV rfl rfl
  | veq | vadd | vsub | vmul | vdiv | vmod | vevald | vinterp | vfmul => exact faultsOnNone_of_useV_useV rfl rfl
  | _ =>
    rintro ⟨r, hr, -⟩
    exact absurd hr List.not_mem_nil

/-- Settles O18: the first fetch of a register that holds `NONE` ends the command. -/
theorem readingNoneIsFatal : Obligations.ReadingNoneIsFatal :=
  fun i s r hr hnone => exec_faultsOnNone i s ⟨r, hr, hnone⟩

/-! ### What a rule answers

A rule is followed primitive by primitive, with a condition `P` on the state it computes and a condition `E` on the fatal
cause it raises. The causes of R162 are one such `E`, a signalled destination (R166) is one such `P`. A premise that a
primitive's own cause has `E` is proved where the lemma is used, by looking the cause up in the command's row of R162. -/

/-- The rule computes a state with `P` or raises a fatal cause with `E`. -/
def Answers (P : State → Prop) (E : Cause → Prop) : Except Cause State → Prop
  | .ok s' => P s'
  | .error c => E c

section answers

variable {P : State → Prop} {E : Cause → Prop} {s : State}

theorem answers_ok {s' : State} (h : P s') : Answers P E (.ok s') := h

theorem answers_error {c : Cause} (h : E c := by simp [fatalCauses]) : Answers P E (.error c) := h

theorem answers_ite {p : Prop} [Decidable p] {r r' : Except Cause State} (h : p → Answers P E r)
    (h' : ¬p → Answers P E r') : Answers P E (if p then r else r') := by
  split
  · next hp => exact h hp
  · next hp => exact h' hp

theorem answers_raiseIf {p : Prop} [Decidable p] {c : Cause} {k : Unit → Except Cause State}
    (hk : ¬p → Answers P E (k ())) (hc : E c := by simp [fatalCauses]) : Answers P E (raiseIf p c >>= k) := by
  by_cases hp : p
  · rw [raiseIf_pos hp]; exact hc
  · rw [raiseIf_neg hp]; exact hk hp

theorem answers_useV {i : VReg} {k : List Slot → Except Cause State}
    (hk : ∀ sl, getV s i = .seq sl → Answers P E (k sl)) (hc : E .useNone := by simp [fatalCauses]) :
    Answers P E (useV s i >>= k) := by
  cases hv : getV s i with
  | none => rw [useV_of_none hv]; exact hc
  | seq sl => rw [useV_of_seq hv]; exact hk sl hv

theorem answers_slotAt {sl : List Slot} {n : Nat} {k : Slot → Except Cause State} (hk : ∀ c, Answers P E (k c))
    (hc : E .index := by simp [fatalCauses]) : Answers P E (slotAt sl n >>= k) := by
  rcases Nat.lt_or_ge n sl.length with h | h
  · rw [slotAt_of_lt h]; exact hk _
  · rw [slotAt_of_ge h]; exact hc

/-- The fatal cause is asked for only of a sequence that does not fit. -/
theorem answers_result_of_fits {d : VReg} {sl : List Slot} (hc : LMAX < sl.length → E .capacity)
    (h : P (setV s d (.seq sl))) : Answers P E (result s d sl) :=
  answers_ite (fun hover => answers_error (hc hover)) fun _ => answers_ok h

theorem answers_result {d : VReg} {sl : List Slot} (h : P (setV s d (.seq sl)))
    (hc : E .capacity := by simp [fatalCauses]) : Answers P E (result s d sl) :=
  answers_result_of_fits (fun _ => hc) h

theorem answers_result_writeNores {d : VReg} {c : List Fp} {b : Bool} (hc : LMAX < c.length → E .capacity)
    (h : P (writeNores (setV s d (.seq (elems c))) b)) :
    Answers P E (result s d (elems c) >>= fun s' => .ok (writeNores s' b)) := by
  rw [← length_elems] at hc
  rcases Nat.lt_or_ge LMAX (elems c).length with hover | hfit
  · rw [result_of_gt hover]; exact hc hover
  · rw [result_of_le hfit]; exact h

theorem answers_pushByte {b : Byte} (h : P { s with bb := s.bb ++ [b] }) (hc : E .capacity := by simp [fatalCauses]) :
    Answers P E (pushByte s b) :=
  answers_ite (fun _ => answers_error hc) fun _ => answers_ok h

theorem answers_divideInto {d : VReg} {a b : List Fp} {value : List Fp → List Fp → List Fp}
    (hc : b.length ≠ 0 → b.length ≤ a.length → LMAX < (value a b).length → E .capacity) (hno : P (noResult s d))
    (h : P (writeNores (setV s d (.seq (elems (value a b)))) false)) (hzero : E .divZero := by simp [fatalCauses]) :
    Answers P E (divideInto s d a b value) :=
  answers_raiseIf (hc := hzero) fun hpos => answers_ite (fun _ => answers_ok hno) fun hle =>
    answers_raiseIf (hc := hzero) fun _ => answers_result_writeNores (hc hpos (Nat.not_lt.1 hle)) h

theorem answers_interpolateInto {d : VReg} {x y : List Slot} (hc : LMAX < x.length → E .capacity)
    (hno : P (noResult s d)) (h : ∀ c, P (writeNores (setV s d (.seq (elems c))) false)) :
    Answers P E (interpolateInto s d x y) :=
  answers_ite (fun _ => answers_ok hno) fun _ => answers_ite (fun _ => answers_ok hno) fun _ =>
    answers_result_writeNores (by rwa [length_interpolate, length_coef]) (h _)

theorem answers_transformInto {d : VReg} {a : List Fp} {w : Fp} {value : Fp → List Fp → List Fp}
    (hc : isPowerOfTwo a.length = true → LMAX < (value w a).length → E .capacity)
    (h : ∀ c, P (setV s d (.seq (elems c)))) (hpow : E .notPow2 := by simp [fatalCauses])
    (hroot : E .badRoot := by simp [fatalCauses]) : Answers P E (transformInto s d a w value) := by
  refine answers_raiseIf (hc := hpow) fun hlen => answers_ite (fun hone => ?_) fun _ =>
    answers_raiseIf (hc := hroot) fun _ => answers_result_of_fits ?_ (h _)
  · rw [result_of_le (by rw [length_elems, hone]; exact Nat.le_trans (by decide) sixteen_le_LMAX)]
    exact h a
  · rw [length_elems]
    exact hc (Bool.eq_true_of_not_eq_false hlen)

theorem answers_fastMulInto {d : VReg} {a b : List Fp} {w : Fp} {ord : Nat} (h : ∀ c, P (setV s d (.seq (elems c))))
    (hroot : E .badRoot := by simp [fatalCauses]) (hsize : E .badSize := by simp [fatalCauses])
    (hc : E .capacity := by simp [fatalCauses]) : Answers P E (fastMulInto s d a b w ord) := by
  obtain ⟨-, hrun⟩ | ⟨-, hrun⟩ | ⟨da, db, -, -, -, -, hrun⟩ := fastMulInto_cases s d a b w ord
  · rw [hrun]; exact hroot
  · rw [hrun]; exact answers_result (h _) hc
  · rw [hrun]
    exact answers_raiseIf (hc := hsize) fun _ => answers_raiseIf (hc := hroot) fun _ =>
      answers_raiseIf (hc := hc) fun _ => answers_result (h _) hc

end answers

/-! ### The causes of each command (R162) -/

theorem length_le_of_inv {s : State} {i : VReg} {sl : List Slot} (hs : Inv s) (h : getV s i = .seq sl) :
    sl.length ≤ LMAX := by
  have hfits := hs.polyFits i
  rw [h] at hfits
  exact of_decide_eq_true hfits

/-- A length that fits raises no CAPACITY. -/
theorem no_capacity {E : Cause → Prop} {n : Nat} (hfit : n ≤ LMAX) (hover : LMAX < n) : E .capacity :=
  absurd hover (Nat.not_lt.2 hfit)

theorem length_polyRem_coef_le {a b : List Slot} (hfit : a.length ≤ LMAX) :
    (polyRem (coef a) (coef b)).length ≤ LMAX := by
  rw [length_polyRem, length_coef a]
  exact (Nat.min_le_right _ _).trans hfit

/-- A transform keeps the length of the sequences it is defined on, so its value fits where they do. -/
theorem length_transform_le {a : List Slot} {y : List Fp} (hfit : a.length ≤ LMAX)
    (hkeep : ∀ {k}, (coef a).length = 2 ^ k → y.length = 2 ^ k) (hpow : isPowerOfTwo (coef a).length = true) :
    y.length ≤ LMAX := by
  obtain ⟨k, hk⟩ := isPowerOfTwo_iff.1 hpow
  rwa [hkeep hk, ← hk, length_coef]

/-- Under the capacities of R13, the rule of a command raises only the causes R162 lists for it; and no rule writes
FATAL. -/
theorem exec_answers_listed (i : Instr) {s : State} (hs : Inv s) :
    ∃ r, exec i s = command i s r ∧ Answers (fun s' => s'.fatal = s.fatal) (· ∈ fatalCauses i) r := by
  cases i with
  | nop | xli | xld | xout | fld | fout | bclr | blen | fsetu | fsets | fbig | fbign | fbytes | fsample | fser
  | ftox | fmov | fadd | fsub | fmul | fexp | fexpx | fcmp | frord | vclr =>
    exact ⟨.ok _, rfl, answers_ok rfl⟩
  | bpushi | bpush => exact ⟨_, rfl, answers_pushByte rfl⟩
  | bget xd xa =>
    cases hget : s.bb[(getX s xa).toNat]? with
    | none => exact ⟨_, exec_bget_of_ge xd (List.getElem?_eq_none_iff.1 hget), answers_error⟩
    | some b => exact ⟨_, exec_bget_of_getElem? xd hget, answers_ok rfl⟩
  | fdiv | finv | froot => exact ⟨_, rfl, answers_raiseIf fun _ => answers_ok rfl⟩
  | vlen | vtrim | vmov | vrev | vdeg | visz | veval => exact ⟨_, rfl, answers_useV fun _ _ => answers_ok rfl⟩
  | vget | vset | vabs | vpres =>
    exact ⟨_, rfl, answers_useV fun _ _ => answers_slotAt fun _ => answers_ok rfl⟩
  | vtrunc | vevalq => exact ⟨_, rfl, answers_useV fun _ _ => answers_raiseIf fun _ => answers_ok rfl⟩
  | vpad =>
    exact ⟨_, rfl, answers_useV fun _ _ => answers_raiseIf fun _ => answers_raiseIf fun _ => answers_ok rfl⟩
  | veq => exact ⟨_, rfl, answers_useV fun _ _ => answers_useV fun _ _ => answers_ok rfl⟩
  | vpush => exact ⟨_, rfl, answers_useV fun _ _ => answers_result rfl⟩
  | vzero => exact ⟨_, rfl, answers_useV fun _ _ => answers_raiseIf fun _ => answers_result rfl⟩
  | vpow => exact ⟨_, rfl, answers_raiseIf fun _ => answers_result rfl⟩
  | vmul => exact ⟨_, rfl, answers_useV fun _ _ => answers_useV fun _ _ => answers_result rfl⟩
  | vminv =>
    exact ⟨_, rfl, answers_useV fun a ha => answers_raiseIf fun _ =>
      answers_result_of_fits (no_capacity (by simpa using length_le_of_inv hs ha)) rfl⟩
  | vscale =>
    exact ⟨_, rfl, answers_useV fun a ha =>
      answers_result_of_fits (no_capacity (by simpa using length_le_of_inv hs ha)) rfl⟩
  | vadd | vsub =>
    exact ⟨_, rfl, answers_useV fun a ha => answers_useV fun b hb =>
      answers_result_of_fits
        (no_capacity (by simpa using And.intro (length_le_of_inv hs ha) (length_le_of_inv hs hb))) rfl⟩
  | vevald =>
    exact ⟨_, rfl, answers_useV fun a ha => answers_useV fun b hb =>
      answers_result_of_fits (no_capacity (by simpa using length_le_of_inv hs hb)) rfl⟩
  | vsubsl =>
    exact ⟨_, rfl, answers_useV fun _ _ => answers_ite (fun _ => answers_ok rfl) fun _ => answers_ok rfl⟩
  | vdiv =>
    exact ⟨_, rfl, answers_useV fun a ha => answers_useV fun b hb => answers_divideInto
      (fun hpos hle => no_capacity (length_polyQuot_coef_le (by simpa [Nat.pos_iff_ne_zero] using hpos)
        (by simpa using hle) (length_le_of_inv hs ha))) rfl rfl⟩
  | vmod =>
    exact ⟨_, rfl, answers_useV fun a ha => answers_useV fun b hb => answers_divideInto
      (fun _ _ => no_capacity (length_polyRem_coef_le (length_le_of_inv hs ha))) rfl rfl⟩
  | vinterp =>
    exact ⟨_, rfl, answers_useV fun a ha => answers_useV fun b hb => answers_interpolateInto
      (no_capacity (length_le_of_inv hs ha)) rfl fun _ => rfl⟩
  | vntt =>
    exact ⟨_, rfl, answers_useV fun a ha => answers_transformInto
      (fun hpow => no_capacity (length_transform_le (length_le_of_inv hs ha) (length_ntt _) hpow)) fun _ => rfl⟩
  | vintt =>
    exact ⟨_, rfl, answers_useV fun a ha => answers_transformInto
      (fun hpow => no_capacity (length_transform_le (length_le_of_inv hs ha) (length_intt _) hpow)) fun _ => rfl⟩
  | vfmul =>
    exact ⟨_, rfl, answers_useV fun _ _ => answers_useV fun _ _ => answers_fastMulInto fun _ => rfl⟩

/-- Settles O9: the rule did not complete, since it does not write FATAL, so it answered one of the listed causes. -/
theorem fatalCausesAreThoseListed : Obligations.FatalCausesAreThoseListed := by
  intro i s t hs hf hnext ht
  obtain ⟨r, hexec, hr⟩ := exec_answers_listed i hs
  rw [hexec] at hnext
  obtain ⟨s', rfl, rfl⟩ | ⟨c, rfl, rfl⟩ := command_eq_next.1 hnext
  · have hclear : s'.fatal = false := Eq.trans hr hf
    exact absurd ht (ne_true_of_eq_false hclear)
  · exact ⟨c, hr, rfl⟩

/-! ### No result (R19, R166) -/

/-- A destination whose command writes NORES holds `NONE` exactly when NORES is set; any other holds a sequence. -/
def Signalled (writesNores : Bool) (d : VReg) (s : State) : Prop :=
  (writesNores = false → getV s d ≠ .none) ∧ (writesNores = true → (s.nores = true ↔ getV s d = .none))

theorem signalled_setV (s : State) (d : VReg) (sl : List Slot) : Signalled false d (setV s d (.seq sl)) :=
  ⟨fun _ => by simp, nofun⟩

theorem signalled_writeNores (s : State) (d : VReg) (sl : List Slot) :
    Signalled true d (writeNores (setV s d (.seq sl)) false) :=
  ⟨nofun, fun _ => by simp [getV_writeNores]⟩

theorem signalled_noResult (s : State) (d : VReg) : Signalled true d (noResult s d) :=
  ⟨nofun, fun _ => by simp [noResult, getV_writeNores]⟩

/-- The rule of a command with a polynomial destination leaves it signalled; its fatal causes do not matter here. -/
theorem exec_answers_signalled (i : Instr) (s : State) {d : VReg} (hd : destV i = some d) :
    ∃ r, exec i s = command i s r ∧ Answers (Signalled (writesNoresFlag i) d) (fun _ => True) r := by
  cases i <;> cases hd
  case vclr => exact ⟨.ok _, rfl, answers_ok (signalled_setV s d _)⟩
  case vtrim | vmov | vrev =>
    exact ⟨_, rfl, answers_useV fun _ _ => answers_ok (signalled_setV s d _)⟩
  case vset | vabs =>
    exact ⟨_, rfl, answers_useV fun _ _ => answers_slotAt fun _ => answers_ok (signalled_setV s d _)⟩
  case vtrunc =>
    exact ⟨_, rfl, answers_useV fun _ _ => answers_raiseIf fun _ => answers_ok (signalled_setV s d _)⟩
  case vpad =>
    exact ⟨_, rfl, answers_useV fun _ _ => answers_raiseIf fun _ => answers_raiseIf fun _ =>
      answers_ok (signalled_setV s d _)⟩
  case vpush | vscale => exact ⟨_, rfl, answers_useV fun _ _ => answers_result (signalled_setV s d _)⟩
  case vpow => exact ⟨_, rfl, answers_raiseIf fun _ => answers_result (signalled_setV s d _)⟩
  case vminv | vzero =>
    exact ⟨_, rfl, answers_useV fun _ _ => answers_raiseIf fun _ => answers_result (signalled_setV s d _)⟩
  case vadd | vsub | vmul | vevald =>
    exact ⟨_, rfl, answers_useV fun _ _ => answers_useV fun _ _ => answers_result (signalled_setV s d _)⟩
  case vntt | vintt =>
    exact ⟨_, rfl, answers_useV fun _ _ =>
      answers_transformInto (fun _ _ => trivial) fun _ => signalled_setV s d _⟩
  case vfmul =>
    exact ⟨_, rfl, answers_useV fun _ _ => answers_useV fun _ _ =>
      answers_fastMulInto fun _ => signalled_setV s d _⟩
  case vsubsl =>
    exact ⟨_, rfl, answers_useV fun _ _ => answers_ite (fun _ => answers_ok (signalled_noResult s d)) fun _ =>
      answers_ok (signalled_writeNores s d _)⟩
  case vdiv | vmod =>
    exact ⟨_, rfl, answers_useV fun _ _ => answers_useV fun _ _ =>
      answers_divideInto (fun _ _ _ => trivial) (signalled_noResult s d) (signalled_writeNores s d _)⟩
  case vinterp =>
    exact ⟨_, rfl, answers_useV fun _ _ => answers_useV fun _ _ =>
      answers_interpolateInto (fun _ => trivial) (signalled_noResult s d) fun _ => signalled_writeNores s d _⟩

/-- Settles O19: a completed command leaves the state its rule computed, which `complete` changes only in CMDCNT. -/
theorem noResultIsSignalled : Obligations.NoResultIsSignalled := by
  intro i s t d _ hnext ht hd
  obtain ⟨r, hexec, hr⟩ := exec_answers_signalled i s hd
  obtain ⟨s', rfl, rfl⟩ := ok_of_next_not_fatal hexec hnext ht
  exact hr

end Sys2Proof.Machine

namespace Sys2Proof.Machine

/-! ### Reset (70_reset_and_hazards.md R170, R24) -/

theorem performAccess_platformReset (s : State) : performAccess .platformReset s = .next (resetUnit s) := rfl

/-- The five constants of the window do not depend on the state (R25). -/
theorem windowRead_constant (s t : State) {r : WindowReg}
    (h : r ∈ [WindowReg.modulus, .generator, .rootorder, .lmaxr, .bmaxr]) : windowRead s r = windowRead t r := by
  cases r with
  | modulus | generator | rootorder | lmaxr | bmaxr => rfl
  | cmd | din | dout | status | cmdcnt | faultcmd | ctrl | reserved => simp at h

/-- Settles O12: the platform's reset and a write to CTRL with bit 0 set are both `resetUnit`. -/
theorem resetFromAnyState : Obligations.ResetFromAnyState := by
  intro s
  refine ⟨?_, fun w hw => ?_, fun w hw => ?_, rfl, fun r hr => windowRead_constant State.reset s hr⟩
  · rw [performAccess_platformReset, resetUnit]
  · rw [performAccess_write_ctrl, ctrlWrite_of_set hw, resetUnit]
  · rw [performAccess_write_ctrl, ctrlWrite_of_clear hw]

/-! ### The frame of a command (10_state.md sections 2 to 6, 70_reset_and_hazards.md R173)

A rule is followed primitive by primitive with `Answers`: each primitive changes one piece of the state, and the command
is one the rules of 10_state.md name for that piece. What no rule writes is `KeepsControl`. -/

/-- State `t` differs from `s` only in the registers, the buffer, the port and the flags that the command `i` writes. -/
structure Framed (i : Instr) (s t : State) : Prop where
  x : ∀ r, destX i ≠ some r → getX t r = getX s r
  f : ∀ r, destF i ≠ some r → getF t r = getF s r
  v : ∀ r, destV i ≠ some r → getV t r = getV s r
  bb : writesBuffer i = false → t.bb = s.bb
  dout : writesDout i = false → t.dout = s.dout
  eq : writesEqFlag i = false → t.eq = s.eq
  lt : writesLtFlag i = false → t.lt = s.lt
  nores : writesNoresFlag i = false → t.nores = s.nores

section framed

variable {i : Instr} {s : State}

theorem framed_refl (i : Instr) (s : State) : Framed i s s :=
  ⟨fun _ _ => rfl, fun _ _ => rfl, fun _ _ => rfl, fun _ => rfl, fun _ => rfl, fun _ => rfl, fun _ => rfl, fun _ => rfl⟩

theorem framed_setX {d : XReg} {w : Word} (h : destX i = some d) : Framed i s (setX s d w) :=
  { framed_refl i s with x := fun _ hr => getX_setX_ne s w fun hd => hr (hd ▸ h) }

theorem framed_setF {d : FReg} {a : Fp} (h : destF i = some d) : Framed i s (setF s d a) :=
  { framed_refl i s with f := fun _ hr => getF_setF_ne s a fun hd => hr (hd ▸ h) }

theorem framed_setV {d : VReg} {p : PolyVal} (h : destV i = some d) : Framed i s (setV s d p) :=
  { framed_refl i s with v := fun _ hr => getV_setV_ne s p fun hd => hr (hd ▸ h) }

theorem framed_buffer {bytes : List Byte} (h : writesBuffer i = true) : Framed i s { s with bb := bytes } :=
  { framed_refl i s with bb := fun hno => absurd h (ne_true_of_eq_false hno) }

theorem framed_dout {w : Word} (h : writesDout i = true) : Framed i s { s with dout := w } :=
  { framed_refl i s with dout := fun hno => absurd h (ne_true_of_eq_false hno) }

theorem framed_writeEq {b : Bool} (h : writesEqFlag i = true) : Framed i s (writeEq s b) :=
  { framed_refl i s with eq := fun hno => absurd h (ne_true_of_eq_false hno) }

theorem framed_compareFlags {a b : Fp} (heq : writesEqFlag i = true) (hlt : writesLtFlag i = true) :
    Framed i s (compareFlags s a b) :=
  { framed_refl i s with
    eq := fun hno => absurd heq (ne_true_of_eq_false hno)
    lt := fun hno => absurd hlt (ne_true_of_eq_false hno) }

/-- The four commands with a signalled no-result write NORES after their destination (R19). -/
theorem framed_setV_writeNores {d : VReg} {p : PolyVal} {b : Bool} (hd : destV i = some d)
    (h : writesNoresFlag i = true) : Framed i s (writeNores (setV s d p) b) :=
  { framed_setV (s := s) (p := p) hd with nores := fun hno => absurd h (ne_true_of_eq_false hno) }

theorem framed_noResult {d : VReg} (hd : destV i = some d) (h : writesNoresFlag i = true) :
    Framed i s (noResult s d) :=
  framed_setV_writeNores hd h

theorem framed_complete {t : State} (h : Framed i s t) : Framed i s (complete t) :=
  { h with }

theorem framed_fatalEntry (i : Instr) (s : State) (c : Cause) (w : CmdWord) : Framed i s (fatalEntry s c w) :=
  { framed_refl i s with }

end framed

/-- The state a command's rule computes is framed by the command; its fatal causes do not matter here. -/
theorem exec_answers_framed (i : Instr) (s : State) :
    ∃ r, exec i s = command i s r ∧ Answers (Framed i s) (fun _ => True) r := by
  cases i with
  | nop => exact ⟨.ok _, rfl, answers_ok (framed_refl _ s)⟩
  | xli | xld | blen | ftox => exact ⟨.ok _, rfl, answers_ok (framed_setX rfl)⟩
  | bget xd xa =>
    cases hget : s.bb[(getX s xa).toNat]? with
    | none => exact ⟨_, exec_bget_of_ge xd (List.getElem?_eq_none_iff.1 hget), answers_error⟩
    | some b => exact ⟨_, exec_bget_of_getElem? xd hget, answers_ok (framed_setX rfl)⟩
  | vlen | vdeg => exact ⟨_, rfl, answers_useV fun _ _ => answers_ok (framed_setX rfl)⟩
  | vpres => exact ⟨_, rfl, answers_useV fun _ _ => answers_slotAt fun _ => answers_ok (framed_setX rfl)⟩
  | fld | fsetu | fsets | fbig | fbign | fbytes | fsample | fmov | fadd | fsub | fmul | fexp | fexpx | frord =>
    exact ⟨.ok _, rfl, answers_ok (framed_setF rfl)⟩
  | fdiv | finv | froot => exact ⟨_, rfl, answers_raiseIf fun _ => answers_ok (framed_setF rfl)⟩
  | veval => exact ⟨_, rfl, answers_useV fun _ _ => answers_ok (framed_setF rfl)⟩
  | vget => exact ⟨_, rfl, answers_useV fun _ _ => answers_slotAt fun _ => answers_ok (framed_setF rfl)⟩
  | vevalq => exact ⟨_, rfl, answers_useV fun _ _ => answers_raiseIf fun _ => answers_ok (framed_setF rfl)⟩
  | bclr | fser => exact ⟨.ok _, rfl, answers_ok (framed_buffer rfl)⟩
  | bpushi | bpush => exact ⟨_, rfl, answers_pushByte (framed_buffer rfl)⟩
  | xout | fout => exact ⟨.ok _, rfl, answers_ok (framed_dout rfl)⟩
  | fcmp => exact ⟨.ok _, rfl, answers_ok (framed_compareFlags rfl rfl)⟩
  | visz => exact ⟨_, rfl, answers_useV fun _ _ => answers_ok (framed_writeEq rfl)⟩
  | veq => exact ⟨_, rfl, answers_useV fun _ _ => answers_useV fun _ _ => answers_ok (framed_writeEq rfl)⟩
  | vclr => exact ⟨.ok _, rfl, answers_ok (framed_setV rfl)⟩
  | vtrim | vmov | vrev => exact ⟨_, rfl, answers_useV fun _ _ => answers_ok (framed_setV rfl)⟩
  | vset | vabs => exact ⟨_, rfl, answers_useV fun _ _ => answers_slotAt fun _ => answers_ok (framed_setV rfl)⟩
  | vtrunc => exact ⟨_, rfl, answers_useV fun _ _ => answers_raiseIf fun _ => answers_ok (framed_setV rfl)⟩
  | vpad =>
    exact ⟨_, rfl, answers_useV fun _ _ => answers_raiseIf fun _ => answers_raiseIf fun _ =>
      answers_ok (framed_setV rfl)⟩
  | vpush | vscale => exact ⟨_, rfl, answers_useV fun _ _ => answers_result (framed_setV rfl)⟩
  | vpow => exact ⟨_, rfl, answers_raiseIf fun _ => answers_result (framed_setV rfl)⟩
  | vminv | vzero =>
    exact ⟨_, rfl, answers_useV fun _ _ => answers_raiseIf fun _ => answers_result (framed_setV rfl)⟩
  | vadd | vsub | vmul | vevald =>
    exact ⟨_, rfl, answers_useV fun _ _ => answers_useV fun _ _ => answers_result (framed_setV rfl)⟩
  | vntt | vintt =>
    exact ⟨_, rfl, answers_useV fun _ _ => answers_transformInto (fun _ _ => trivial) fun _ => framed_setV rfl⟩
  | vfmul =>
    exact ⟨_, rfl, answers_useV fun _ _ => answers_useV fun _ _ => answers_fastMulInto fun _ => framed_setV rfl⟩
  | vsubsl =>
    exact ⟨_, rfl, answers_useV fun _ _ => answers_ite (fun _ => answers_ok (framed_noResult rfl rfl)) fun _ =>
      answers_ok (framed_setV_writeNores rfl rfl)⟩
  | vdiv | vmod =>
    exact ⟨_, rfl, answers_useV fun _ _ => answers_useV fun _ _ => answers_divideInto (fun _ _ _ => trivial)
      (framed_noResult rfl rfl) (framed_setV_writeNores rfl rfl)⟩
  | vinterp =>
    exact ⟨_, rfl, answers_useV fun _ _ => answers_useV fun _ _ => answers_interpolateInto (fun _ => trivial)
      (framed_noResult rfl rfl) fun _ => framed_setV_writeNores rfl rfl⟩

/-- The end of a command writes no register, buffer, port or flag of its own, complete or fatal (R32, R163). -/
theorem framed_of_exec {i : Instr} {s t : State} (h : exec i s = .next t) : Framed i s t := by
  obtain ⟨r, hexec, hr⟩ := exec_answers_framed i s
  rw [hexec] at h
  obtain ⟨s', rfl, rfl⟩ | ⟨c, rfl, rfl⟩ := command_eq_next.1 h
  · exact framed_complete hr
  · exact framed_fatalEntry i s c (encode i)

/-- DIN and the host's side of the run belong to the host: no command writes them, complete or fatal (R21). -/
theorem exec_keeps_host_side {i : Instr} {s t : State} (h : exec i s = .next t) :
    t.din = s.din ∧ t.host = s.host ∧ t.reads = s.reads := by
  obtain ⟨s', he, hkeep⟩ | ⟨c, he⟩ := exec_cases i s
  · obtain rfl := Host.Outcome.next.inj (he.symm.trans h)
    injection hkeep with _ _ _ _ hdin hhost hreads
    exact ⟨hdin, hhost, hreads⟩
  · obtain rfl := Host.Outcome.next.inj (he.symm.trans h)
    exact ⟨rfl, rfl, rfl⟩

/-- Settles O17: `framed_of_exec` for what some command writes, `exec_keeps_host_side` for what none does. -/
theorem everyCommandsFrame : Obligations.EveryCommandsFrame := by
  intro i s t h
  obtain ⟨hx, hf, hv, hbb, hdout, heq, hlt, hnores⟩ := framed_of_exec h
  exact ⟨hx, hf, hv, hbb, hdout, heq, hlt, hnores, exec_keeps_host_side h⟩

end Sys2Proof.Machine

namespace Sys2Proof.Machine

/-! ### What one step can do (20_memory.md R30 to R32, 10_state.md R10)

An access is a command issued, a reset, or a write of what belongs to the host. -/

theorem ctrlWrite_cases (s : State) (w : Word) : ctrlWrite s w = resetUnit s ∨ ctrlWrite s w = s := by
  cases hw : w.getLsbD 0 with
  | true => exact .inl (ctrlWrite_of_set hw)
  | false => exact .inr (ctrlWrite_of_clear hw)

theorem performAccess_cases (a : HostAccess) (s : State) :
    (∃ w, performAccess a s = issueCommand w s) ∨ performAccess a s = .next (resetUnit s) ∨
    ∃ din reads, performAccess a s = .next { s with din := din, reads := reads } := by
  cases a with
  | read addr => exact .inr (.inr ⟨s.din, _, rfl⟩)
  | platformReset => exact .inr (.inl rfl)
  | write addr w =>
    rw [performAccess]
    cases windowReg addr with
    | cmd => exact .inl ⟨_, rfl⟩
    | din => exact .inr (.inr ⟨w, s.reads, rfl⟩)
    | ctrl =>
      rw [windowWrite]
      obtain hreset | hkeep := ctrlWrite_cases s w
      · exact .inr (.inl (congrArg _ hreset))
      · exact .inr (.inr ⟨s.din, s.reads, congrArg _ hkeep⟩)
    | _ => exact .inr (.inr ⟨s.din, s.reads, rfl⟩)

theorem step_cases (s : State) :
    (∃ w rest, step s = issueCommand w { s with host := rest }) ∨
    (∃ rest, step s = .next (resetUnit { s with host := rest })) ∨
    ∃ din host reads, step s = .next { s with din := din, host := host, reads := reads } := by
  cases hhost : s.host with
  | nil => exact .inr (.inr ⟨s.din, s.host, s.reads, step_of_nil hhost⟩)
  | cons a rest =>
    rw [step_of_cons hhost]
    obtain ⟨w, hissue⟩ | hreset | ⟨din, reads, hnext⟩ := performAccess_cases a { s with host := rest }
    · exact .inl ⟨w, rest, hissue⟩
    · exact .inr (.inl ⟨rest, hreset⟩)
    · exact .inr (.inr ⟨din, rest, reads, hnext⟩)

theorem exec_has_next (i : Instr) (s : State) : ∃ t, exec i s = .next t := by
  obtain ⟨s', he, -⟩ | ⟨c, he⟩ := exec_cases i s
  · exact ⟨_, he⟩
  · exact ⟨_, he⟩

theorem issueCommand_has_next (w : CmdWord) (s : State) : ∃ t, issueCommand w s = .next t := by
  cases hf : s.fatal with
  | true => exact ⟨s, issueCommand_of_fatal hf⟩
  | false =>
    cases hd : decode w with
    | none => exact ⟨_, issueCommand_of_none hf hd⟩
    | some i =>
      rw [issueCommand_of_some hf hd]
      exact exec_has_next i s

/-- Settles O6: a reset and a write of the host's own fields are next states, and a command issued has one by
`exec_cases`, illegal and fatal words included. -/
theorem everyStepHasANextState : Obligations.EveryStepHasANextState := by
  intro s
  obtain ⟨w, rest, hissue⟩ | ⟨rest, hreset⟩ | ⟨din, host, reads, hnext⟩ := step_cases s
  · rw [hissue]
    exact issueCommand_has_next w _
  · exact ⟨_, hreset⟩
  · exact ⟨_, hnext⟩

/-! ### The invariant after reset (10_state.md R28, 70_reset_and_hazards.md R170) -/

/-- Settles O15: every register file holds its replicated reset value, so each polynomial register is empty. -/
theorem invariantHoldsAtReset : Obligations.InvariantHoldsAtReset where
  polyFits i := by
    have hempty : getV State.reset i = .seq [] := readReg_replicate _ i
    rw [hempty]
    exact decide_eq_true (Nat.zero_le LMAX)
  bufferFits := Nat.zero_le BMAX
  quiet _ := ⟨rfl, rfl⟩
  recorded := nofun
  faultHigh := by decide

theorem inv_resetUnit (s : State) : Inv (resetUnit s) :=
  { invariantHoldsAtReset with recorded := nofun }

/-! ### The destination of a command keeps its capacity (R13, 42_poly_struct.md R106)

The registers a command does not write are `Framed`. A sequence it writes is tested by `result`, or is no longer than a
sequence it read. -/

/-- The value of `v[d]` fits in the register. -/
def Fits (d : VReg) (s : State) : Prop := (getV s d).fits = true

section fits

variable {s : State} {d : VReg}

theorem fits_setV {sl : List Slot} (h : sl.length ≤ LMAX) : Fits d (setV s d (.seq sl)) := by
  rw [Fits, getV_setV_same]
  exact decide_eq_true h

theorem fits_setV_writeNores {sl : List Slot} {b : Bool} (h : sl.length ≤ LMAX) :
    Fits d (writeNores (setV s d (.seq sl)) b) :=
  fits_setV h

theorem fits_noResult : Fits d (noResult s d) := by
  rw [Fits, noResult, getV_writeNores, getV_setV_same]
  rfl

theorem answers_fits_result (sl : List Slot) : Answers (Fits d) (fun _ => True) (result s d sl) :=
  answers_ite (fun _ => trivial) fun hfit => answers_ok (fits_setV (Nat.not_lt.1 hfit))

/-- The ending of VDIV, VMOD and VINTERP. -/
theorem answers_fits_result_writeNores (sl : List Slot) (b : Bool) :
    Answers (Fits d) (fun _ => True) (result s d sl >>= fun s' => .ok (writeNores s' b)) := by
  rcases Nat.lt_or_ge LMAX sl.length with hover | hfit
  · rw [result_of_gt hover]; trivial
  · rw [result_of_le hfit]; exact fits_setV_writeNores hfit

theorem answers_fits_divideInto (a b : List Fp) (value : List Fp → List Fp → List Fp) :
    Answers (Fits d) (fun _ => True) (divideInto s d a b value) :=
  answers_raiseIf fun _ => answers_ite (fun _ => answers_ok fits_noResult) fun _ =>
    answers_raiseIf fun _ => answers_fits_result_writeNores _ _

theorem answers_fits_interpolateInto (x y : List Slot) :
    Answers (Fits d) (fun _ => True) (interpolateInto s d x y) :=
  answers_ite (fun _ => answers_ok fits_noResult) fun _ => answers_ite (fun _ => answers_ok fits_noResult) fun _ =>
    answers_fits_result_writeNores _ _

theorem answers_fits_transformInto (a : List Fp) (w : Fp) (value : Fp → List Fp → List Fp) :
    Answers (Fits d) (fun _ => True) (transformInto s d a w value) :=
  answers_raiseIf fun _ => answers_ite (fun _ => answers_fits_result _) fun _ =>
    answers_raiseIf fun _ => answers_fits_result _

theorem answers_fits_fastMulInto (a b : List Fp) (w : Fp) (ord : Nat) :
    Answers (Fits d) (fun _ => True) (fastMulInto s d a b w ord) := by
  obtain ⟨-, hrun⟩ | ⟨-, hrun⟩ | ⟨da, db, -, -, -, -, hrun⟩ := fastMulInto_cases s d a b w ord
  · rw [hrun]; trivial
  · rw [hrun]; exact answers_fits_result _
  · rw [hrun]
    exact answers_raiseIf fun _ => answers_raiseIf fun _ => answers_raiseIf fun _ => answers_fits_result _

end fits

theorem length_strided_le {α : Type} {l : List α} {start step : Nat} (hs : start < l.length) (hp : 0 < step) :
    (strided l start step).length ≤ l.length := by
  by_contra hlonger
  have hin := (lt_length_strided_iff hs hp l.length).1 (Nat.not_le.1 hlonger)
  have hout := Nat.le_mul_of_pos_right l.length hp
  omega

theorem length_pad_le {sl : List Slot} {n : Nat} (c : Slot) (hge : ¬n < sl.length) (hfit : ¬n > LMAX) :
    (sl ++ List.replicate (n - sl.length) c).length ≤ LMAX := by
  rw [List.length_append, List.length_replicate]
  omega

/-- The rule of a command with a polynomial destination leaves there what fits; its fatal causes do not matter here. -/
theorem exec_answers_fits (i : Instr) {s : State} (hs : Inv s) {d : VReg} (hd : destV i = some d) :
    ∃ r, exec i s = command i s r ∧ Answers (Fits d) (fun _ => True) r := by
  cases i <;> cases hd
  case vclr => exact ⟨.ok _, rfl, answers_ok (fits_setV (Nat.zero_le LMAX))⟩
  case vmov => exact ⟨_, rfl, answers_useV fun a ha => answers_ok (fits_setV (length_le_of_inv hs ha))⟩
  case vrev =>
    exact ⟨_, rfl, answers_useV fun a ha =>
      answers_ok (fits_setV (List.length_reverse.trans_le (length_le_of_inv hs ha)))⟩
  case vtrim =>
    exact ⟨_, rfl, answers_useV fun a ha =>
      answers_ok (fits_setV ((trimSlots_prefix a).length_le.trans (length_le_of_inv hs ha)))⟩
  case vset | vabs =>
    exact ⟨_, rfl, answers_useV fun a ha => answers_slotAt fun _ =>
      answers_ok (fits_setV (List.length_set.trans_le (length_le_of_inv hs ha)))⟩
  case vtrunc =>
    exact ⟨_, rfl, answers_useV fun a ha => answers_raiseIf fun _ =>
      answers_ok (fits_setV ((List.length_take_le' _ a).trans (length_le_of_inv hs ha)))⟩
  case vpad =>
    exact ⟨_, rfl, answers_useV fun _ _ => answers_raiseIf fun hge => answers_raiseIf fun hfit =>
      answers_ok (fits_setV (length_pad_le _ hge hfit))⟩
  case vsubsl =>
    exact ⟨_, rfl, answers_useV fun a ha => answers_ite (fun _ => answers_ok fits_noResult) fun hrange =>
      answers_ok (fits_setV_writeNores
        ((length_strided_le (by omega) (by omega)).trans (length_le_of_inv hs ha)))⟩
  case vpush | vscale => exact ⟨_, rfl, answers_useV fun _ _ => answers_fits_result _⟩
  case vpow => exact ⟨_, rfl, answers_raiseIf fun _ => answers_fits_result _⟩
  case vminv | vzero => exact ⟨_, rfl, answers_useV fun _ _ => answers_raiseIf fun _ => answers_fits_result _⟩
  case vadd | vsub | vmul | vevald =>
    exact ⟨_, rfl, answers_useV fun _ _ => answers_useV fun _ _ => answers_fits_result _⟩
  case vdiv | vmod =>
    exact ⟨_, rfl, answers_useV fun _ _ => answers_useV fun _ _ => answers_fits_divideInto _ _ _⟩
  case vinterp =>
    exact ⟨_, rfl, answers_useV fun _ _ => answers_useV fun _ _ => answers_fits_interpolateInto _ _⟩
  case vntt | vintt => exact ⟨_, rfl, answers_useV fun _ _ => answers_fits_transformInto _ _ _⟩
  case vfmul =>
    exact ⟨_, rfl, answers_useV fun _ _ => answers_useV fun _ _ => answers_fits_fastMulInto _ _ _ _⟩

theorem fits_of_exec {i : Instr} {s t : State} (hs : Inv s) (h : exec i s = .next t) (j : VReg) : Fits j t := by
  by_cases hd : destV i = some j
  · obtain ⟨r, hexec, hr⟩ := exec_answers_fits i hs hd
    rw [hexec] at h
    obtain ⟨s', rfl, rfl⟩ | ⟨c, -, rfl⟩ := command_eq_next.1 h
    · exact hr
    · exact hs.polyFits j
  · rw [Fits, (framed_of_exec h).v j hd]
    exact hs.polyFits j

/-! ### The byte buffer keeps its capacity (R15, 40_host_data.md R57, R58) -/

theorem length_be8 (n : Nat) : (be8 n).length = 8 := by simp [be8]

theorem answers_pushByte_le {s : State} (h : s.bb.length ≤ BMAX) (b : Byte) :
    Answers (fun s' => s'.bb.length ≤ BMAX) (fun _ => True) (pushByte s b) := by
  refine answers_ite (fun _ => trivial) fun hroom => answers_ok ?_
  rw [List.length_append, List.length_singleton]
  omega

theorem exec_answers_bufferFits (i : Instr) {s : State} (h : s.bb.length ≤ BMAX) (hw : writesBuffer i = true) :
    ∃ r, exec i s = command i s r ∧ Answers (fun s' => s'.bb.length ≤ BMAX) (fun _ => True) r := by
  cases i <;> cases hw
  case bclr => exact ⟨.ok _, rfl, answers_ok (Nat.zero_le BMAX)⟩
  case bpushi | bpush => exact ⟨_, rfl, answers_pushByte_le h _⟩
  case fser => exact ⟨.ok _, rfl, answers_ok ((length_be8 _).trans_le eight_le_BMAX)⟩

theorem bufferFits_of_exec {i : Instr} {s t : State} (hs : s.bb.length ≤ BMAX) (h : exec i s = .next t) :
    t.bb.length ≤ BMAX := by
  cases hw : writesBuffer i with
  | true =>
    obtain ⟨r, hexec, hr⟩ := exec_answers_bufferFits i hs hw
    rw [hexec] at h
    obtain ⟨s', rfl, rfl⟩ | ⟨c, -, rfl⟩ := command_eq_next.1 h
    · exact hr
    · exact hs
  | false => rwa [(framed_of_exec h).bb hw]

/-! ### The fatal entry keeps the invariant (60_exceptions.md R162, R163) -/

theorem faultWord_fatalEntry (s : State) (c : Cause) (w : CmdWord) : faultWord (fatalEntry s c w) = w := by
  refine BitVec.eq_of_toNat_eq ?_
  rw [faultWord, fatalEntry_faultcmd, BitVec.extractLsb'_toNat, BitVec.toNat_setWidth_of_le (by decide),
    Nat.shiftRight_zero, Nat.mod_eq_of_lt w.isLt]

/-- The entry shows its cause by the code alone. -/
theorem fatalEntry_congr (s : State) (w : CmdWord) {c c' : Cause} (h : c.code = c'.code) :
    fatalEntry s c w = fatalEntry s c' w := by
  rw [fatalEntry, fatalEntry, h]

theorem inv_fatalEntry {s : State} {c : Cause} {w : CmdWord} (hs : Inv s) (hnone : decode w = none → c = .illegal)
    (hsome : ∀ i, decode w = some i → c ∈ fatalCauses i) : Inv (fatalEntry s c w) where
  polyFits := hs.polyFits
  bufferFits := hs.bufferFits
  quiet := nofun
  recorded _ := by
    refine ⟨c, rfl, ?_⟩
    rw [faultWord_fatalEntry]
    split
    · next hd => exact hnone hd
    · next i hd => exact hsome i hd
  faultHigh := by
    rw [fatalEntry_faultcmd, BitVec.toNat_setWidth_of_le (by decide)]
    exact w.isLt

/-! ### Every step keeps the invariant -/

/-- A command that completes keeps CAUSE and FAULTCMD at 0; one that does not records its own word, which decodes
to it. -/
theorem inv_of_exec {i : Instr} {s t : State} (hs : Inv s) (hf : s.fatal = false) (h : exec i s = .next t) : Inv t := by
  obtain ⟨s', he, hkeep⟩ | ⟨c, he⟩ := exec_cases i s
  · obtain rfl := Host.Outcome.next.inj (he.symm.trans h)
    injection hkeep with hfatal hcause _ hfaultcmd
    obtain ⟨hcauseZero, hfaultZero⟩ := hs.quiet hf
    exact {
      polyFits := fits_of_exec hs h
      bufferFits := bufferFits_of_exec hs.bufferFits h
      quiet := fun _ => ⟨hcause.trans hcauseZero, hfaultcmd.trans hfaultZero⟩
      recorded := fun ht => absurd (hfatal.trans hf) (ne_false_of_eq_true ht)
      faultHigh := hfaultcmd ▸ hs.faultHigh }
  · obtain ⟨c', hlisted, hcode⟩ := fatalCausesAreThoseListed i s _ hs hf he rfl
    obtain rfl := Host.Outcome.next.inj (he.symm.trans h)
    rw [fatalEntry_congr s (encode i) hcode]
    refine inv_fatalEntry hs (fun hd => ?_) fun j hd => ?_
    · rw [decodeOfEncodeIsTheInstruction] at hd
      cases hd
    · rw [decodeOfEncodeIsTheInstruction, Option.some_inj] at hd
      rwa [← hd]

theorem inv_of_issueCommand {w : CmdWord} {s t : State} (hs : Inv s) (h : issueCommand w s = .next t) : Inv t := by
  cases hf : s.fatal with
  | true =>
    obtain rfl := Host.Outcome.next.inj ((issueCommand_of_fatal hf).symm.trans h)
    exact hs
  | false =>
    cases hd : decode w with
    | none =>
      obtain rfl := Host.Outcome.next.inj ((issueCommand_of_none hf hd).symm.trans h)
      exact inv_fatalEntry hs (fun _ => rfl) fun i hi => absurd (hd.symm.trans hi) nofun
    | some i => exact inv_of_exec hs hf ((issueCommand_of_some hf hd).symm.trans h)

/-- The invariant says nothing of DIN and the host's side of the run. -/
theorem inv_with_host_side {s : State} (hs : Inv s) (din : Word) (host : List HostAccess) (reads : List Word) :
    Inv { s with din := din, host := host, reads := reads } :=
  { hs with }

/-- Settles O16: a reset establishes the invariant anew, the host's own fields are not in it, and a command issued
keeps it by `inv_of_issueCommand`. -/
theorem everyStepKeepsTheInvariant : Obligations.EveryStepKeepsTheInvariant := by
  intro s t hs hnext
  obtain ⟨w, rest, hissue⟩ | ⟨rest, hreset⟩ | ⟨din, host, reads, hhost⟩ := step_cases s
  · exact inv_of_issueCommand (inv_with_host_side hs s.din rest s.reads) (hissue.symm.trans hnext)
  · obtain rfl := Host.Outcome.next.inj (hreset.symm.trans hnext)
    exact inv_resetUnit _
  · obtain rfl := Host.Outcome.next.inj (hhost.symm.trans hnext)
    exact inv_with_host_side hs din host reads

end Sys2Proof.Machine
